-- ==== Sys2Proof/Word.lean ====
section
/-! DEFINITION. The word types of `spec/00_scope.md` R11 and R12: bytes, 32-bit words, 64-bit operands and results, the
10-bit cursor, and the bit patterns of IEEE 754 values (`spec/10_state.md` R40: "Binary64 values live in them as bit
patterns"). -/

namespace Sys2Proof

/-- One byte lane of the host bus (R54). -/
abbrev Byte := BitVec 8

/-- A `u32`: `+`, `*` and `-` wrap modulo 2^32 (R11). -/
abbrev Word := BitVec 32

/-- A 64-bit operand or result (R33, R34). -/
abbrev Dword := BitVec 64

/-- The cursor `index`, 10 bits wide (R22). -/
abbrev Cursor := BitVec 10

/-- The bit pattern of a binary64 value (R12: `asF64` and `bitsF64` are the identity on it). -/
abbrev F64 := BitVec 64

/-- The bit pattern of a binary32 value (R12: `asF32` and `bitsF32` are the identity on it). -/
abbrev F32 := BitVec 32

end Sys2Proof
end

