-- ==== Sys2Proof/Machine/Interface.lean ====
section
/-! DEFINITION. The host interface of `spec/20_memory.md`: the register map (R52), the accesses a host can issue (R51),
the events of the one total order (R61), and what the block answers on the bus. -/

namespace Sys2Proof.Machine

/-- The registers of the window (R52). -/
inductive Reg where
  | cmd
  | status
  | arg0Lo
  | arg0Hi
  | arg1Lo
  | arg1Hi
  | resLo
  | resHi
  | index
  | lastDraws
  | cfgN
  | cfgM
  | cfgMatrixA
  | cfgUpperMask
  | cfgLowerMask
  | cfgTemperB
  | cfgTemperC
  | word (i : Fin 624)
  deriving DecidableEq, Repr

/-- The widths a host bus access may have; the block serves only `w32` (R51). -/
inductive Width where
  | w8
  | w16
  | w32
  | w64
  deriving DecidableEq, Repr

/-- A host bus access at a block-relative byte offset (R50, R51). A write of another width than 32 bits gets a bus error
whatever it carries, so its data is not modelled beyond 32 bits. -/
inductive Access where
  | read (width : Width) (offset : Nat)
  | write (width : Width) (offset : Nat) (value : Word)
  deriving DecidableEq, Repr

/-- One step of an agent, as the platform's inputs order them (R61): an access of the one host, an access of a second
master (R254), the engine's move (R246), the entropy port's answer (R38), and the reset input's two edges (R260). -/
inductive Event where
  | host (a : Access)
  | otherMaster (a : Access)
  | engine
  | entropy (answer : Word)
  | resetAssert
  | resetRelease
  deriving DecidableEq, Repr

/-- What the block last drove on the host bus: nothing, the acknowledge of a write, or the datum of a read. The model's
own record (log entry 19). -/
inductive BusResponse where
  | none
  | ack
  | data (v : Word)
  deriving DecidableEq, Repr

/-- The entropy port as the engine sees it (R38, R41): no outstanding request, a request not yet answered, or the
answer. -/
inductive EntropyPort where
  | quiet
  | requested
  | answered (e : Word)
  deriving DecidableEq, Repr

/-- The engine sequencer with its pending-command latch (R25). -/
inductive Sequencer where
  | idle
  | busy (c : Word)
  deriving DecidableEq, Repr

/-- Points at which the OPEN functions are pinned: pairs of an operand and its result (R150; log entry 10). -/
structure MathPoints where
  ln  : List (F64 × F64)
  cos : List (F64 × F64)
  exp : List (F64 × F64)
  deriving DecidableEq, Repr

/-- The control registers of R52 with their offsets, in the map's order. -/
def controlMap : List (Nat × Reg) :=
  [(0x000, .cmd), (0x004, .status),
   (0x008, .arg0Lo), (0x00C, .arg0Hi), (0x010, .arg1Lo), (0x014, .arg1Hi),
   (0x018, .resLo), (0x01C, .resHi),
   (0x020, .index), (0x024, .lastDraws)] ++
  [(0x028, .cfgN), (0x02C, .cfgM), (0x030, .cfgMatrixA),
   (0x034, .cfgUpperMask), (0x038, .cfgLowerMask),
   (0x03C, .cfgTemperB), (0x040, .cfgTemperC)]

/-- The first offset of the `WORD[i]` window (R52). -/
def wordBase : Nat := 0x1000

/-- The register at a block-relative offset (R52); none at a misaligned or reserved offset and outside the window. -/
def regAt (offset : Nat) : Option Reg :=
  match controlMap.lookup offset with
  | some r => some r
  | none =>
    if h : wordBase ≤ offset ∧ offset < wordBase + 4 * 624 ∧ offset % 4 = 0 then
      some (.word ⟨(offset - wordBase) / 4, by omega⟩)
    else none

/-- `offset(REG)` (R15, R52). -/
def Reg.offset : Reg → Nat
  | .cmd => 0x000
  | .status => 0x004
  | .arg0Lo => 0x008
  | .arg0Hi => 0x00C
  | .arg1Lo => 0x010
  | .arg1Hi => 0x014
  | .resLo => 0x018
  | .resHi => 0x01C
  | .index => 0x020
  | .lastDraws => 0x024
  | .cfgN => 0x028
  | .cfgM => 0x02C
  | .cfgMatrixA => 0x030
  | .cfgUpperMask => 0x034
  | .cfgLowerMask => 0x038
  | .cfgTemperB => 0x03C
  | .cfgTemperC => 0x040
  | .word i => wordBase + 4 * i.val

/-- The register an access reaches: only an aligned 32-bit access at a mapped offset reaches one (R51, R53). -/
def Access.target : Access → Option Reg
  | .read .w32 offset => regAt offset
  | .write .w32 offset _ => regAt offset
  | .read .w8 _ => none
  | .read .w16 _ => none
  | .read .w64 _ => none
  | .write .w8 _ _ => none
  | .write .w16 _ _ => none
  | .write .w64 _ _ => none

/-- `WR REG, v` as a bus access (R15). -/
def wr (r : Reg) (v : Word) : Access := .write .w32 r.offset v

/-- `RD REG` as a bus access (R15). -/
def rd (r : Reg) : Access := .read .w32 r.offset

end Sys2Proof.Machine
end

