-- ==== Sys2Proof/Syntax.lean ====
section
/-! DEFINITION. The commands of `spec/30_encoding.md` R74: one constructor per row of spec/opcode_table.json. A command
word holds no register field and no immediate (R71), so no constructor has an argument. -/

namespace Sys2Proof

/-- The 17 commands, in the opcode map's order (R74). -/
inductive Instr where
  | seed
  | seedent
  | twist
  | next
  | bool
  | int
  | uint
  | ruint
  | float
  | double
  | byte
  | char
  | alnum
  | normal
  | expon
  | poisson
  | pseudo
  deriving DecidableEq, Repr

end Sys2Proof
end

