-- ==== Sys2Proof/WellFormed.lean ====
section
/-! DEFINITION. What well-formed means. A command has no operand field (`spec/30_encoding.md` R71), so every `Instr` is
well-formed and the check has nothing to refuse; an ACCESS of the host can be ill-formed in the three ways of
`spec/20_memory.md` R51 and R53 (width, alignment, reserved offset). -/

namespace Sys2Proof

/-- A command has no field that could be out of range (R71). -/
def Instr.wellFormed : Instr → Bool
  | .seed => true
  | .seedent => true
  | .twist => true
  | .next => true
  | .bool => true
  | .int => true
  | .uint => true
  | .ruint => true
  | .float => true
  | .double => true
  | .byte => true
  | .char => true
  | .alnum => true
  | .normal => true
  | .expon => true
  | .poisson => true
  | .pseudo => true

namespace Machine

/-- The width of an access (R51). -/
def Access.width : Access → Width
  | .read w _ => w
  | .write w _ _ => w

/-- The block-relative offset of an access (R50). -/
def Access.offset : Access → Nat
  | .read _ o => o
  | .write _ o _ => o

/-- Check 1: "Every access is a 32-bit access" (R51). -/
def Access.widthOk (a : Access) : Bool := a.width = .w32

/-- Check 2: "at an offset that is a multiple of 4" (R51). -/
def Access.aligned (a : Access) : Bool := a.offset % 4 = 0

/-- Check 3: the offset is that of a register, not a reserved one (R52, R53). -/
def Access.mapped (a : Access) : Bool :=
  decide (a.offset ≤ 0x040) || (decide (0x1000 ≤ a.offset) && decide (a.offset ≤ 0x19BC))

/-- The accesses the block serves; every other one gets a bus error (R51, R53, R244). -/
def Access.wellFormed (a : Access) : Bool := a.widthOk && a.aligned && a.mapped

end Machine

end Sys2Proof
end

