-- ==== Sys2Proof/Decode.lean ====
section
/-! DEFINITION. Decoding and encoding of command words (`spec/30_encoding.md` R70 to R76). -/

namespace Sys2Proof

/-- Why bytes are no command: fewer than the four of a word (R71), a non-zero `RSVD` field, or an unassigned `OPC`
(R75). -/
inductive DecodeError where
  | tooShort
  | reservedBits
  | unassignedOpcode
  deriving DecidableEq, Repr

/-- `OPC`, bits 7:0 of a command word (R70). -/
def opcField (c : Word) : BitVec 8 := c.extractLsb' 0 8

/-- `RSVD`, bits 31:8 of a command word (R70). -/
def rsvdField (c : Word) : BitVec 24 := c.extractLsb' 8 24

/-- The opcode map (R74, R76). -/
def decodeOpc (opc : Nat) : Except DecodeError Instr :=
  match opc with
  | 0x01 => .ok .seed
  | 0x02 => .ok .seedent
  | 0x03 => .ok .twist
  | 0x04 => .ok .next
  | 0x05 => .ok .bool
  | 0x06 => .ok .int
  | 0x07 => .ok .uint
  | 0x08 => .ok .ruint
  | 0x09 => .ok .float
  | 0x0A => .ok .double
  | 0x0B => .ok .byte
  | 0x0C => .ok .char
  | 0x0D => .ok .alnum
  | 0x0E => .ok .normal
  | 0x0F => .ok .expon
  | 0x10 => .ok .poisson
  | 0x11 => .ok .pseudo
  | _ => .error .unassignedOpcode

/-- `decode(c)` of R76: total on every 32-bit word, each illegal word rejected by the name of its cause (R75). -/
def decode (c : Word) : Except DecodeError Instr :=
  if rsvdField c = 0#24 then decodeOpc (opcField c).toNat else .error .reservedBits

/-- A 32-bit access from its byte lanes: lane `k` carries bits `[8k+7:8k]` (R54). -/
def wordOfLanes (b0 b1 b2 b3 : Byte) : Word := b3 ++ b2 ++ b1 ++ b0

/-- Byte lane `k` of a word (R54). -/
def laneOf (v : Word) (k : Nat) : Byte := v.extractLsb' (8 * k) 8

/-- The bytes of a word, lane 0 first (R54). -/
def lanesOf (v : Word) : List Byte := [laneOf v 0, laneOf v 1, laneOf v 2, laneOf v 3]

/-- The command at the front of a list of bytes, and the bytes after it. A command word is exactly one 32-bit word
(R71); a word written in one access (R70) lies in bytes as its lanes do (log entry 20). -/
def decodeBytes : List Byte → Except DecodeError (Instr × List Byte)
  | b0 :: b1 :: b2 :: b3 :: rest =>
    match decode (wordOfLanes b0 b1 b2 b3) with
    | .ok i => .ok (i, rest)
    | .error e => .error e
  | _ => .error .tooShort

/-- The `OPC` of each command (R74). -/
def Instr.opc : Instr → BitVec 8
  | .seed => 0x01#8
  | .seedent => 0x02#8
  | .twist => 0x03#8
  | .next => 0x04#8
  | .bool => 0x05#8
  | .int => 0x06#8
  | .uint => 0x07#8
  | .ruint => 0x08#8
  | .float => 0x09#8
  | .double => 0x0A#8
  | .byte => 0x0B#8
  | .char => 0x0C#8
  | .alnum => 0x0D#8
  | .normal => 0x0E#8
  | .expon => 0x0F#8
  | .poisson => 0x10#8
  | .pseudo => 0x11#8

/-- The command word of a command: `RSVD` zero above its `OPC` (R70). -/
def encode (i : Instr) : Word := 0#24 ++ i.opc

/-- The command word's bytes, lane 0 first (R54). -/
def encodeBytes (i : Instr) : List Byte := lanesOf (encode i)

/-- The instruction the decoder reads from an instruction whose bits are `w`, numbered as spec/opcode_table.json numbers
them: the low 32 bits of its `nbits` bits are the command word, and an instruction is one word long, so bits above it
must be zero (R71). -/
def decodeTableWord (nbits w : Nat) : Option Instr :=
  let bits := w % 2 ^ nbits
  if bits < 2 ^ 32 then
    match decodeBytes (lanesOf (BitVec.ofNat 32 bits)) with
    | .ok (i, _) => some i
    | .error _ => none
  else none

end Sys2Proof
end

