-- ==== Sys2Proof/Config.lean ====
section
/-! DEFINITION. What is fixed for the machine: the algorithm constants and their canonical values (`spec/10_state.md`
R27), the fuels of the two unbounded loops, and the OPEN parameters of `spec/00_scope.md` R9 as opaque constants that no
proof can look into. -/

namespace Sys2Proof.Config

/-- `N`, the state length (R9, R20). Irreducible, so that no proof unrolls a loop of 624 rounds by accident; the kernel
still computes it. -/
@[irreducible] def nWords : Nat := 624

/-- What `CFG_N` reads (R28). -/
def cfgN : Word := 624#32

/-- The reset value of `CFG_M` (R27). -/
def canonicalM : Word := 397#32

/-- The reset value of `CFG_MATRIX_A` (R27). -/
def canonicalMatrixA : Word := 0x9908B0DF#32

/-- The hardwired `CFG_UPPER_MASK` (R31). -/
def upperMask : Word := 0x80000000#32

/-- The hardwired `CFG_LOWER_MASK` (R31). -/
def lowerMask : Word := 0x7FFFFFFF#32

/-- The hardwired `CFG_TEMPER_B` (R32). -/
def temperB : Word := 0x9D2C5680#32

/-- The hardwired `CFG_TEMPER_C` (R32). -/
def temperC : Word := 0xEFC60000#32

/-- `SENTINEL`: the cursor value of the unseeded state (R22, R23). -/
def sentinel : Cursor := 625#10

/-- The default lazy seed (R104). -/
def defaultSeed : Word := 5489#32

/-- The seeding multiplier (R102). -/
def seedMultiplier : Word := 1812433253#32

/-- The size of the register window in bytes (R50). -/
def windowSize : Nat := 0x2000

/-- How many raw draws one `unit_f64_open()` may take before the model calls it a hang (R276).
DEDUCED (log entry 9): 1248 zero raw values in a row cover a whole pass of the state RAM after a twist, so the state is
the all-zero fixed point of R107 and no later draw is non-zero. -/
def openFuel : Nat := 1248

/-- How many iterations the loop of `POISSON` may take before the model calls it a hang (R173, R276).
DESIGN CHOICE (log entry 9): 2^64, the largest count whose result `k - 1` the u64 of R173 can tell from a smaller one. -/
def poissonFuel : Nat := 2 ^ 64

/-- The word `i` holds after the reset numbered `n`: "a draw per word" (R44). No body: a free value (log entry 1). -/
opaque resetWord (n i : Nat) : Word

/-- What the bus returns for a read of anything but `STATUS` while busy (R273): "A model gives such a read a free draw".
No body: a free value (log entry 7). -/
opaque busyRead (n : Nat) : Word

/-- The entropy port's answer where no input list gives one (R38, log entries 4 and 5). No body: a free value. -/
opaque entropy (n : Nat) : Word

/-- `LN64`, an OPEN total function (R150). No body (log entry 10). -/
opaque ln64 (x : F64) : F64

/-- `COS64`, an OPEN total function (R150). No body (log entry 10). -/
opaque cos64 (x : F64) : F64

/-- `EXP64`, an OPEN total function (R150). No body (log entry 10). -/
opaque exp64 (x : F64) : F64

/-- The sign bit and the fraction of `FP_NAN`, "a function of the command and its operands" (R152). No body (log
entry 11). -/
opaque nanPattern (i : Instr) (operands : List F64) : BitVec 53

end Sys2Proof.Config
end

