-- ==== Sys2Proof/Machine/Ram.lean ====
section
/-! DEFINITION. The state RAM of `spec/10_state.md` R20: exactly 624 words, and the only ways to read and write one. -/

namespace Sys2Proof.Machine

/-- `words`, "exactly 624 unsigned 32-bit integers" (R20). -/
abbrev Ram := Vector Word 624

/-- `words[i mod 624]` (R13; the twist's indices are taken modulo 624, R106, and every other index is below 624). -/
def wordAt (w : Ram) (i : Nat) : Word := w[i % 624]'(Nat.mod_lt i (by decide))

/-- `words[i mod 624] <- v` (R13). -/
def setWord (w : Ram) (i : Nat) (v : Word) : Ram := w.set (i % 624) v (Nat.mod_lt i (by decide))

/-- The RAM whose word `i` is `f i`. -/
def tabulate (f : Nat → Word) : Ram := ⟨((List.range Config.nWords).map f).toArray, by simp [Config.nWords]⟩

/-- The contents after the reset numbered `n`: a free draw per word (R44; log entry 1). -/
def resetWords (n : Nat) : Ram := tabulate (Config.resetWord n)

end Sys2Proof.Machine
end

