-- ==== Sys2Proof/Machine/State.lean ====
section
/-! DEFINITION. All the state of `spec/10_state.md`, the reasons a step can stop, and the state after reset (R44). -/

namespace Sys2Proof.Machine

/-- Why the machine stops with a fault. -/
inductive Fault where
  /-- Raised by a host access of a wrong width, at a misaligned or at a reserved offset: "A model treats a bus-error
  response as a fault of the host program" (R51, R53, R244). Safe: the block's state would not change. -/
  | busError
  /-- Raised by `NORMAL` and `POISSON` when their loop runs out of fuel: "A model runs these commands under fuel, and
  treats running out of fuel as a hang, not as a result" (R276). Safe: no result is claimed (log entry 9). -/
  | hang
  deriving DecidableEq, Repr

/-- Why a step is refused. -/
inductive Refusal where
  /-- Raised by an arm of `exec` whose instruction has no meaning yet. Safe: nothing is claimed of it. -/
  | notModelled (mnemonic : String)
  /-- Raised by an access of a second bus master: "A model admits one host agent per instance and refuses a second"
  (R254). Safe: nothing is claimed of what follows. -/
  | secondMaster
  /-- Raised by a host access at an address in no block's window, on a platform: the block "fixes no reset vector, vector
  table, I/O region or reserved range of the host's address space" (R59). Safe: nothing is claimed of it. -/
  | outsideWindows
  /-- Raised by every event on a platform whose windows meet: "Several instances occupy disjoint windows" (R59). Safe:
  nothing is claimed of such a platform. -/
  | overlappingWindows
  deriving DecidableEq, Repr

/-- The state of the block, of the agents around it, and of the inputs still to come. -/
structure State where
  /-- The state RAM (R20). -/
  words : Ram
  /-- The cursor (R22). -/
  index : Cursor
  /-- `CFG_M` (R29). -/
  cfgM : Word
  /-- `CFG_MATRIX_A` (R30). -/
  cfgMatrixA : Word
  /-- `ARG0` (R33). -/
  arg0 : Dword
  /-- `ARG1` (R33). -/
  arg1 : Dword
  /-- `RES` (R34). -/
  res : Dword
  /-- `CMD`, the last accepted command word (R35). -/
  cmd : Word
  /-- `LAST_DRAWS` (R36). -/
  lastDraws : Word
  /-- `STATUS.ERR` (R37). -/
  err : Bool
  /-- `STATUS.ERRCODE` (R37). -/
  errCode : BitVec 4
  /-- `STATUS.OVR` (R37). -/
  ovr : Bool
  /-- The sequencer and the pending-command latch (R25). -/
  seq : Sequencer
  /-- The operand snapshot `a0` taken at acceptance (R58, R245). -/
  operand0 : Dword
  /-- The operand snapshot `a1` taken at acceptance (R58, R245). -/
  operand1 : Dword
  /-- The in-progress count `draws` (R36, R41). -/
  draws : Nat
  /-- The engine's outstanding entropy request (R38, R41). -/
  port : EntropyPort
  /-- The reset input is asserted (R260). -/
  inReset : Bool
  /-- The model's own: what the block last drove on the bus (log entry 19). -/
  bus : BusResponse
  /-- The model's own: the counter free values are taken at (log entries 1, 5 and 7). -/
  free : Nat
  /-- The model's own: points at which the OPEN functions are pinned (log entry 10). -/
  math : MathPoints
  /-- The model's own: the inputs still to come, in the one total order of R61 (log entry 3). -/
  inputs : List Event
  deriving DecidableEq, Repr

/-- The machine right after reset (R44): idle and unseeded, every register at its reset value, each word a free draw. -/
def State.reset : State where
  words := resetWords 0
  index := Config.sentinel
  cfgM := Config.canonicalM
  cfgMatrixA := Config.canonicalMatrixA
  arg0 := 0#64
  arg1 := 0#64
  res := 0#64
  cmd := 0#32
  lastDraws := 0#32
  err := false
  errCode := 0#4
  ovr := false
  seq := .idle
  operand0 := 0#64
  operand1 := 0#64
  draws := 0
  port := .quiet
  inReset := false
  bus := .none
  free := 1
  math := ⟨[], [], []⟩
  inputs := []

end Sys2Proof.Machine
end

