-- ==== Sys2Proof/Machine/Flags.lean ====
section
/-! DEFINITION. The flags of `spec/10_state.md` R37 and R39, the error codes of `spec/60_exceptions.md` R240, and every
write the rules make to `STATUS`. -/

namespace Sys2Proof.Machine

/-- Code 1, ArgumentError (R240, R241). -/
def argumentError : BitVec 4 := 1#4

/-- Code 2, ConfigurationError (R240, R242). -/
def configurationError : BitVec 4 := 2#4

/-- Code 3, IllegalCommand (R240, R243). -/
def illegalCommand : BitVec 4 := 3#4

/-- `STATUS.BUSY`: "reads 1 exactly in `BUSY(c)`" (R25). -/
def State.busy (s : State) : Bool :=
  match s.seq with
  | .idle => false
  | .busy _ => true

/-- `STATUS.SENT`: "reads 1 exactly when `index = 625`" (R37). -/
def State.sent (s : State) : Bool := s.index = Config.sentinel

/-- The 32 bits of `STATUS` (R37): the reserved bits 31:10 and 3:2 read 0. -/
def statusWord (s : State) : Word :=
  0#22 ++ BitVec.ofBool s.sent ++ BitVec.ofBool s.ovr ++ s.errCode ++ 0#2 ++ BitVec.ofBool s.err ++ BitVec.ofBool s.busy

/-- A successful operation: `ERR <- 0`, `ERRCODE <- 0` (R39). -/
def operationOk (s : State) : State := { s with err := false, errCode := 0#4 }

/-- A failed operation: `ERR <- 1`, `ERRCODE <- code`, and nothing else (R39, R249). `LAST_DRAWS` stays after a failed
write to `INDEX` or a `CFG_*` register: decision D31 says that an error sets it to 0, R36 and decision D32 tie it to
commands, and the model reads D31 as about commands (DEDUCED, log entry 23). A failed command sets it in
`completeError`. -/
def operationFailed (code : BitVec 4) (s : State) : State := { s with err := true, errCode := code }

/-- A dropped write sets the sticky `OVR` and changes nothing else (R39, R272). -/
def setOvr (s : State) : State := { s with ovr := true }

/-- A host write of `v` to `STATUS`: clears `OVR` when bit 8 of `v` is 1 and "changes nothing else" (R37). -/
def writeStatus (v : Word) (s : State) : State := { s with ovr := s.ovr && !v.getLsbD 8 }

end Sys2Proof.Machine
end

