-- ==== Sys2Proof/Machine/Ops.lean ====
section
/-! DEFINITION. The operations the commands share: the primitives of `spec/40_state_engine.md` (seed, ensure_seeded,
twist, temper, next_raw), the frame of a completion (`spec/60_exceptions.md` R246) with its one way to fail, acceptance
(R245) and reset (`spec/70_reset_and_hazards.md` R260, R261). There is no trap and no return from one (R249, R250). -/

namespace Sys2Proof.Machine

/-- `(1812433253 * (p XOR (p >> 30)) + i) mod 2^32` (R102). -/
def seedNext (p : Word) (i : Nat) : Word := Config.seedMultiplier * (p ^^^ (p >>> 30)) + BitVec.ofNat 32 i

/-- Word `i` of the state `seed(value)` leaves (R102). -/
def seedWord (value : Word) : Nat → Word
  | 0 => value
  | i + 1 => seedNext (seedWord value i) (i + 1)

/-- All 624 words of `seed(value)` (R102). -/
def seedWords (value : Word) : Ram := tabulate (seedWord value)

/-- `seed(value)`: all words from the recurrence, then `index <- 624` (R102). -/
def seed (value : Word) (s : State) : State := { s with words := seedWords value, index := 624#10 }

/-- `ensure_seeded()`: lazy default seeding in the sentinel state (R104). -/
def ensureSeeded (s : State) : State := if s.index = Config.sentinel then seed Config.defaultSeed s else s

/-- The high bit of one word above the low 31 bits of the next (R106, with the hardwired masks of R31). -/
def twistJoin (hi lo : Word) : Word := (hi &&& Config.upperMask) ||| (lo &&& Config.lowerMask)

/-- `x >> 1`, and `XOR a` when `x` is odd (R106). -/
def twistMix (a x : Word) : Word := if x.getLsbD 0 then (x >>> 1) ^^^ a else x >>> 1

/-- The update of position `i`, reading the words as they stand at that moment (R105, R106). -/
def twistAt (m : Nat) (a : Word) (w : Ram) (i : Nat) : Ram :=
  setWord w i (wordAt w (i + m) ^^^ twistMix a (twistJoin (wordAt w i) (wordAt w (i + 1))))

/-- The first `n` positions of the forward pass, in ascending order and in place (R105). -/
def twistTo (m : Nat) (a : Word) (w : Ram) : Nat → Ram
  | 0 => w
  | n + 1 => twistAt m a (twistTo m a w n) n

/-- The whole pass over positions 0..623 (R105, R106). -/
def twistWords (m : Nat) (a : Word) (w : Ram) : Ram := twistTo m a w Config.nWords

/-- `twist()`: `m` and `a` are sampled from `CFG_M` and `CFG_MATRIX_A` at its start; `index <- 0` (R106). -/
def twist (s : State) : State := { s with words := twistWords s.cfgM.toNat s.cfgMatrixA s.words, index := 0#10 }

/-- `temper(y)` (R108, with the hardwired masks of R32). -/
def temper (y : Word) : Word :=
  let y1 := y ^^^ (y >>> 11)
  let y2 := y1 ^^^ ((y1 <<< 7) &&& Config.temperB)
  let y3 := y2 ^^^ ((y2 <<< 15) &&& Config.temperC)
  y3 ^^^ (y3 >>> 18)

/-- "if index >= 624: ensure_seeded(); twist()" (R110). -/
def refill (s : State) : State := if 624 ≤ s.index.toNat then twist (ensureSeeded s) else s

/-- `next_raw()`: "the single source of raw values" (R110). -/
def nextRaw (s : State) : Word × State :=
  let f := refill s
  (temper (wordAt f.words f.index.toNat), { f with index := f.index + 1#10, draws := f.draws + 1 })

/-- The exclusive-or of `n` consecutive raw draws onto `acc` (R190). -/
def xorDraws : Nat → Word → State → Word × State
  | 0, acc, s => (acc, s)
  | n + 1, acc, s => xorDraws n (acc ^^^ (nextRaw s).1) (nextRaw s).2

/-- `unit_f64_open()`'s draws: raw values until one is non-zero (R155); none when the fuel runs out (R276). -/
def drawNonzero : Nat → State → Option (Word × State)
  | 0, _ => none
  | n + 1, s => if (nextRaw s).1 = 0#32 then drawNonzero n (nextRaw s).2 else some (nextRaw s)

/-- The start of a completion: `draws <- 0` (R246). -/
def beginCommand (s : State) : State := { s with draws := 0 }

/-- `min(draws, 0xFFFFFFFF)` (R36, R246). -/
def saturate (n : Nat) : Word := BitVec.ofNat 32 (min n 0xFFFFFFFF)

/-- The end of every completion: `sequencer <- IDLE`, and no entropy request is left (R246, R41). -/
def goIdle (s : State) : State := { s with seq := .idle, port := .quiet }

/-- A completion without a result: `LAST_DRAWS <- min(draws, 0xFFFFFFFF)`, `ERR` and `ERRCODE` cleared, `RES` as it was
(R34, R246). -/
def completeOk (s : State) : State := goIdle (operationOk { s with lastDraws := saturate s.draws })

/-- A completion with a result (R34, R246). -/
def completeValue (v : Dword) (s : State) : State := completeOk { s with res := v }

/-- A completion with an error, the one way a command fails: `LAST_DRAWS <- 0`, `ERR <- 1`, `ERRCODE <- code`; words,
index and `RES` unchanged (D31, R246, R249). -/
def completeError (code : BitVec 4) (s : State) : State := goIdle (operationFailed code { s with lastDraws := 0#32, draws := 0 })

/-- The entropy request of an accepted word: only `SEEDENT` makes one (R38, R112; log entry 4). -/
def requestOf (c : Word) : EntropyPort :=
  match decode c with
  | .ok .seedent => .requested
  | _ => .quiet

/-- Acceptance of the command word `c` while idle (R245): the latch, the read-back of `CMD` and the operand snapshot.
`ERR` and `ERRCODE` are not changed. -/
def accept (c : Word) (s : State) : State :=
  { s with cmd := c, operand0 := s.arg0, operand1 := s.arg1, seq := .busy c, port := requestOf c }

/-- The entropy port answers an outstanding request, and only that (R38; log entry 4). -/
def answerEntropy (e : Word) (s : State) : State :=
  match s.port with
  | .requested => { s with port := .answered e }
  | .quiet => s
  | .answered _ => s

/-- The reset input is asserted: every piece of state takes its reset value, the words new free draws, and any pending
command is abandoned (R44, R260, R261). The platform's inputs and parameters are not the block's and stay. -/
def assertReset (s : State) : State :=
  { State.reset with
    words := resetWords s.free
    inReset := true
    free := s.free + 1
    math := s.math
    inputs := s.inputs }

/-- The reset input is released (R260). -/
def releaseReset (s : State) : State := { s with inReset := false }

end Sys2Proof.Machine
end

