-- ==== Sys2Proof/Machine/Bus.lean ====
section
/-! DEFINITION. Host bus accesses (`spec/20_memory.md` R51 to R58; while busy, `spec/70_reset_and_hazards.md` R272 and
R273). -/

namespace Sys2Proof.Machine

/-- Bits 31:0 of a 64-bit register (R33, R54). -/
def loHalf (d : Dword) : Word := d.extractLsb' 0 32

/-- Bits 63:32 of a 64-bit register (R33, R54). -/
def hiHalf (d : Dword) : Word := d.extractLsb' 32 32

/-- A write of bits 31:0 (R33). -/
def withLo (d : Dword) (v : Word) : Dword := hiHalf d ++ v

/-- A write of bits 63:32 (R33). -/
def withHi (d : Dword) (v : Word) : Dword := v ++ loHalf d

/-- What a register reads as, as long as the read is defined (R52). -/
def readReg (r : Reg) (s : State) : Word :=
  match r with
  | .cmd => s.cmd
  | .status => statusWord s
  | .arg0Lo => loHalf s.arg0
  | .arg0Hi => hiHalf s.arg0
  | .arg1Lo => loHalf s.arg1
  | .arg1Hi => hiHalf s.arg1
  | .resLo => loHalf s.res
  | .resHi => hiHalf s.res
  | .index => s.index.zeroExtend 32
  | .lastDraws => s.lastDraws
  | .cfgN => Config.cfgN
  | .cfgM => s.cfgM
  | .cfgMatrixA => s.cfgMatrixA
  | .cfgUpperMask => Config.upperMask
  | .cfgLowerMask => Config.lowerMask
  | .cfgTemperB => Config.temperB
  | .cfgTemperC => Config.temperC
  | .word i => wordAt s.words i.val

/-- A validated write to a hardwired register: only its own value succeeds, and nothing changes but the flags (R28, R31,
R32). -/
def writeHardwired (canonical v : Word) (s : State) : State :=
  if v = canonical then operationOk s else operationFailed configurationError s

/-- A validated write to `CFG_M`: `1 <= v <= 623`, on the full 32-bit value (R29). -/
def writeCfgM (v : Word) (s : State) : State :=
  if 1 ≤ v.toNat ∧ v.toNat ≤ 623 then operationOk { s with cfgM := v } else operationFailed configurationError s

/-- A validated write to `CFG_MATRIX_A`: `v[31] = 1` (R30). -/
def writeCfgMatrixA (v : Word) (s : State) : State :=
  if v.getLsbD 31 then operationOk { s with cfgMatrixA := v } else operationFailed configurationError s

/-- A validated write to `INDEX`: `v <= 625` (R56). -/
def writeIndex (v : Word) (s : State) : State :=
  if v.toNat ≤ 625 then operationOk { s with index := v.extractLsb' 0 10 } else operationFailed argumentError s

/-- A host write while idle (R52, R57): a `CMD` write starts a command; `RES` and `LAST_DRAWS` ignore writes. -/
def writeReg (r : Reg) (v : Word) (s : State) : State :=
  match r with
  | .cmd => accept v s
  | .status => writeStatus v s
  | .arg0Lo => { s with arg0 := withLo s.arg0 v }
  | .arg0Hi => { s with arg0 := withHi s.arg0 v }
  | .arg1Lo => { s with arg1 := withLo s.arg1 v }
  | .arg1Hi => { s with arg1 := withHi s.arg1 v }
  | .resLo => s
  | .resHi => s
  | .index => writeIndex v s
  | .lastDraws => s
  | .cfgN => writeHardwired Config.cfgN v s
  | .cfgM => writeCfgM v s
  | .cfgMatrixA => writeCfgMatrixA v s
  | .cfgUpperMask => writeHardwired Config.upperMask v s
  | .cfgLowerMask => writeHardwired Config.lowerMask v s
  | .cfgTemperB => writeHardwired Config.temperB v s
  | .cfgTemperC => writeHardwired Config.temperC v s
  | .word i => { s with words := setWord s.words i.val v }

/-- A served read: of anything but `STATUS` while busy, a free value (R273; log entry 7). Reads change no register
(R57). -/
def busRead (r : Reg) (s : State) : State :=
  if s.busy && r != .status then { s with bus := .data (Config.busyRead s.free), free := s.free + 1 }
  else { s with bus := .data (readReg r s) }

/-- A served write: to anything but `STATUS` while busy, dropped with `OVR` set (R272). -/
def busWrite (r : Reg) (v : Word) (s : State) : State :=
  if s.busy && r != .status then { setOvr s with bus := .ack } else { writeReg r v s with bus := .ack }

/-- A host access. One that reaches no register is a bus error, idle or busy, and sets no `STATUS` bit (R51, R53, R244;
log entries 6 and 8). -/
def hostAccess (a : Access) (s : State) : Host.Outcome State Fault Refusal :=
  match a.target with
  | none => .fault .busError
  | some r =>
    match a with
    | .read _ _ => .next (busRead r s)
    | .write _ _ v => .next (busWrite r v s)

/-- The byte of the window at a block-relative offset, through the lanes of the register there (R54); none where no
register lies. -/
def windowByte (s : State) (offset : Nat) : Option Byte :=
  match regAt (offset - offset % 4) with
  | some r => some (laneOf (readReg r s) (offset % 4))
  | none => none

end Sys2Proof.Machine
end

