-- ==== Sys2Proof/Machine/Float.lean ====
section
/-! DEFINITION. IEEE 754 arithmetic on bit patterns (`spec/42_float_normalizer.md` R151): round to nearest, ties to even,
subnormals kept, no flags. Every finite value is an exact integer multiple of the format's smallest subnormal; each
operation computes its exact result as a fraction of such units and rounds once (log entry 12). -/

namespace Sys2Proof.Machine

/-- The quotient of `n` by `d` rounded to the nearest integer, ties to even. -/
def roundQuotient (n d : Nat) : Nat :=
  if d < 2 * (n % d) ∨ (2 * (n % d) = d ∧ (n / d) % 2 = 1) then n / d + 1 else n / d

/-- The magnitude bits of the value `n / d` units rounded to a format with `fracBits` fraction bits whose infinity is
`infBits`. With `k` the exponent of the unit in the last place, the rounded significand `q` has at most `fracBits + 1`
bits (or is the next power of two), and `k * 2^fracBits + q` is its encoding, subnormals and carries into the next
binade included. -/
def roundMagnitude (fracBits infBits n d : Nat) : Nat :=
  let k := Nat.log2 (n / d) - fracBits
  min infBits (k * 2 ^ fracBits + roundQuotient n (d * 2 ^ k))

/-- Binary64 infinity without its sign. -/
def f64Inf : F64 := 0x7FF0000000000000#64

/-- The NaN an operation answers inside a command; no result shows it (R152, log entry 12). -/
def f64Nan : F64 := 0x7FF8000000000000#64

/-- The sign bit alone. -/
def f64SignBit : F64 := 0x8000000000000000#64

def f64Sign (x : F64) : Bool := x.getLsbD 63
def f64Exponent (x : F64) : Nat := (x.extractLsb' 52 11).toNat
def f64Fraction (x : F64) : Nat := (x.extractLsb' 0 52).toNat
def f64IsNan (x : F64) : Bool := f64Exponent x = 2047 && f64Fraction x != 0
def f64IsInf (x : F64) : Bool := f64Exponent x = 2047 && f64Fraction x = 0
def f64IsZero (x : F64) : Bool := f64Exponent x = 0 && f64Fraction x = 0

/-- The magnitude of a value in units of 2^-1074; an infinity's lies above every finite one. -/
def f64Magnitude (x : F64) : Nat :=
  if f64Exponent x = 0 then f64Fraction x else (2 ^ 52 + f64Fraction x) * 2 ^ (f64Exponent x - 1)

/-- The value in units of 2^-1074. -/
def f64Scaled (x : F64) : Int := if f64Sign x then -(f64Magnitude x : Int) else f64Magnitude x

/-- A pattern from a sign and magnitude bits. -/
def f64Make (negative : Bool) (bits : Nat) : F64 :=
  if negative then f64SignBit ||| BitVec.ofNat 64 bits else BitVec.ofNat 64 bits

/-- The value `n / d` in units of 2^-1074, with a sign, rounded to nearest even. -/
def f64Round (negative : Bool) (n d : Nat) : F64 := f64Make negative (roundMagnitude 52 f64Inf.toNat n d)

/-- `<` on binary64: false with a NaN operand (R14). -/
def flt (x y : F64) : Bool := !f64IsNan x && !f64IsNan y && decide (f64Scaled x < f64Scaled y)

/-- `<=` on binary64: false with a NaN operand (R14). -/
def fle (x y : F64) : Bool := !f64IsNan x && !f64IsNan y && decide (f64Scaled x ≤ f64Scaled y)

/-- `fneg`: "flips the sign bit exactly" (R14). -/
def fneg (x : F64) : F64 := x ^^^ f64SignBit

/-- `fadd` (R14, R151). An exact zero sum is -0.0 only when both operands are negative zeros. -/
def fadd (x y : F64) : F64 :=
  if f64IsNan x || f64IsNan y then f64Nan
  else if f64IsInf x then (if f64IsInf y && f64Sign x != f64Sign y then f64Nan else x)
  else if f64IsInf y then y
  else if f64Scaled x + f64Scaled y = 0 then f64Make (f64Sign x && f64Sign y) 0
  else f64Round (decide (f64Scaled x + f64Scaled y < 0)) (f64Scaled x + f64Scaled y).natAbs 1

/-- `fsub(x, y)`, the IEEE subtraction of R172: the sum with the negated operand. -/
def fsub (x y : F64) : F64 := fadd x (fneg y)

/-- `fmul` (R14, R151). -/
def fmul (x y : F64) : F64 :=
  if f64IsNan x || f64IsNan y then f64Nan
  else if f64IsInf x || f64IsInf y then
    (if f64IsZero x || f64IsZero y then f64Nan else f64Make (f64Sign x != f64Sign y) f64Inf.toNat)
  else f64Round (f64Sign x != f64Sign y) (f64Magnitude x * f64Magnitude y) (2 ^ 1074)

/-- `fdiv` (R14, R151). A finite non-zero operand over zero is an infinity. -/
def fdiv (x y : F64) : F64 :=
  if f64IsNan x || f64IsNan y then f64Nan
  else if f64IsInf x then (if f64IsInf y then f64Nan else f64Make (f64Sign x != f64Sign y) f64Inf.toNat)
  else if f64IsInf y then f64Make (f64Sign x != f64Sign y) 0
  else if f64IsZero y then
    (if f64IsZero x then f64Nan else f64Make (f64Sign x != f64Sign y) f64Inf.toNat)
  else f64Round (f64Sign x != f64Sign y) (f64Magnitude x * 2 ^ 1074) (f64Magnitude y)

/-- The bits of an integer square root from bit `b - 1` down, above the part `r` already found. -/
def sqrtBits (n : Nat) : Nat → Nat → Nat
  | 0, r => r
  | b + 1, r => sqrtBits n b (if (r + 2 ^ b) * (r + 2 ^ b) ≤ n then r + 2 ^ b else r)

/-- The integer square root, rounded down. -/
def natSqrt (n : Nat) : Nat := sqrtBits n (Nat.log2 n / 2 + 1) 0

/-- `fsqrt`, correctly rounded (R14, R151): `sqrt(m * 2^-1074)` is `sqrt(m * 2^1074)` units. The integer root and a
sticky half stand for the exact root, which lies strictly between them or is the integer. -/
def fsqrt (x : F64) : F64 :=
  if f64IsNan x then f64Nan
  else if f64IsZero x then x
  else if f64Sign x then f64Nan
  else if f64IsInf x then x
  else
    let n := f64Magnitude x * 2 ^ 1074
    let r := natSqrt n
    f64Round false (2 * r + (if r * r = n then 0 else 1)) 2

/-- `toF64(n)`, exact below 2^53 (R12). -/
def toF64 (n : Nat) : F64 := f64Round false (n * 2 ^ 1074) 1

/-- +0.0 -/
def f64Zero : F64 := 0#64
/-- 1.0 -/
def f64One : F64 := 0x3FF0000000000000#64
/-- -2.0 (R171). -/
def f64MinusTwo : F64 := 0xC000000000000000#64
/-- 2^-32 (R153). -/
def f64TwoPowMinus32 : F64 := 0x3DF0000000000000#64
/-- `TWO_PI` (R171; log entry 17). -/
def f64TwoPi : F64 := 0x401921FB54442D18#64

/-- `toF64(r) * 2^-32` (R153, R155). -/
def unitF64 (r : Word) : F64 := fmul (toF64 r.toNat) f64TwoPowMinus32

/-- `toF32(r >> 8) * 2^-24` (R154): in units of 2^-149, the binary32 format's smallest subnormal. -/
def unitF32 (r : Word) : F32 := BitVec.ofNat 32 (roundMagnitude 23 0x7F800000 ((r >>> 8).toNat * 2 ^ 149) (2 ^ 24))

/-- An OPEN function: the pinned value where the operand is pinned, the opaque function elsewhere (R150; log entry
10). -/
def openFunction (points : List (F64 × F64)) (f : F64 → F64) (x : F64) : F64 :=
  match points.lookup x with
  | some y => y
  | none => f x

/-- `LN64` (R150). -/
def ln64 (s : State) (x : F64) : F64 := openFunction s.math.ln Config.ln64 x

/-- `COS64` (R150). -/
def cos64 (s : State) (x : F64) : F64 := openFunction s.math.cos Config.cos64 x

/-- `EXP64` (R150). -/
def exp64 (s : State) (x : F64) : F64 := openFunction s.math.exp Config.exp64 x

/-- `FP_NAN` (R152): always a NaN encoding (exponent all ones, fraction non-zero), its sign and fraction an opaque
function of the command and its operands (log entry 11). -/
def fpNan (i : Instr) (operands : List F64) : F64 :=
  let p := Config.nanPattern i operands
  let fraction := p.extractLsb' 0 52
  p.extractLsb' 52 1 ++ 0x7FF#11 ++ (if fraction = 0#52 then 1#52 else fraction)

end Sys2Proof.Machine
end

