-- ==== Sys2Proof/Machine/Operands.lean ====
section
/-! DEFINITION. Operand and result assembly (`spec/30_encoding.md` R72, R73). -/

namespace Sys2Proof.Machine

/-- A `u32` operand: `ARGn[31:0]`, with `ARGn[63:32]` ignored (R72). -/
def operandU32 (a : Dword) : Word := a.extractLsb' 0 32

/-- An `i32` operand: `ARGn[31:0]` read as two's complement (R72). -/
def operandI32 (a : Dword) : Int := (a.extractLsb' 0 32).toInt

/-- An `f64` operand: all 64 bits (R72). -/
def operandF64 (a : Dword) : F64 := a

/-- A `u32` result, `zext_64(v)` (R73). -/
def resultU32 (v : Word) : Dword := v.zeroExtend 64

/-- An `i32` result, `sext_64(v)` (R73). -/
def resultI32 (v : Int) : Dword := (BitVec.ofInt 32 v).signExtend 64

/-- A `u8` code (R73). -/
def resultCode (v : Byte) : Dword := v.zeroExtend 64

/-- A `bool` result: 1 for true, 0 for false (R73). -/
def resultBool (b : Bool) : Dword := if b then 1#64 else 0#64

/-- An `f32` result, `zext_64(bitsF32(v))` (R73). -/
def resultF32 (v : F32) : Dword := v.zeroExtend 64

/-- An `f64` result of the command `i` on `operands`: `bitsF64(v)`, or `FP_NAN` where `v` is a NaN (R73, R152). -/
def resultF64 (i : Instr) (operands : List F64) (v : F64) : Dword := if f64IsNan v then fpNan i operands else v

end Sys2Proof.Machine
end

