-- ==== Sys2Proof/Machine/Engine.lean ====
section
/-! DEFINITION. The meanings of SEED, SEEDENT, TWIST and NEXT (`spec/40_state_engine.md` R111 to R114), each a whole
completion step (`spec/60_exceptions.md` R246). -/

namespace Sys2Proof.Machine

/-- `SEED` (R111). -/
def execSeed (s : State) : Host.Outcome State Fault Refusal :=
  .next (completeOk (seed (operandU32 s.operand0) (beginCommand s)))

/-- `SEEDENT` (R112): seeds with the entropy port's answer; until it answers the engine waits with `BUSY = 1`
(R38, R266; log entry 4). -/
def execSeedent (s : State) : Host.Outcome State Fault Refusal :=
  match s.port with
  | .answered e => .next (completeOk (seed e (beginCommand s)))
  | .quiet => .next s
  | .requested => .next s

/-- `TWIST` (R113). -/
def execTwist (s : State) : Host.Outcome State Fault Refusal :=
  .next (completeOk (twist (ensureSeeded (beginCommand s))))

/-- `NEXT` (R114). -/
def execNext (s : State) : Host.Outcome State Fault Refusal :=
  let d := nextRaw (beginCommand s)
  .next (completeValue (resultU32 d.1) d.2)

end Sys2Proof.Machine
end

