-- ==== Sys2Proof/Machine/Fold.lean ====
section
/-! DEFINITION. The auxiliary XOR-fold (`spec/44_auxiliary.md` R190): PSEUDO. -/

namespace Sys2Proof.Machine

/-- `PSEUDO` (R190): the exclusive-or of 32 consecutive raw draws. -/
def execPseudo (s : State) : Host.Outcome State Fault Refusal :=
  let d := xorDraws 32 0#32 (beginCommand s)
  .next (completeValue (resultU32 d.1) d.2)

end Sys2Proof.Machine
end

