-- ==== Sys2Proof/Machine/Ranged.lean ====
section
/-! DEFINITION. The ranged integer mapper (`spec/41_ranged_int_mapper.md` R130 to R137): INT, UINT, RUINT, BYTE, CHAR and
ALNUM. Operand checks come before any draw (R130). -/

namespace Sys2Proof.Machine

/-- `map(lo, span)`: direct modulo with one raw draw, in exact integer arithmetic (R131). -/
def mapRange (lo : Int) (span : Nat) (s : State) : Int × State :=
  let d := nextRaw s
  (lo + (d.1.toNat % span : Nat), d.2)

/-- `INT` (R132). -/
def execInt (s : State) : Host.Outcome State Fault Refusal :=
  let lo := operandI32 s.operand0
  let hi := operandI32 s.operand1
  if hi < lo then .next (completeError argumentError s)
  else
    let v := mapRange lo (hi - lo + 1).toNat (beginCommand s)
    .next (completeValue (resultI32 v.1) v.2)

/-- `UINT` (R133). -/
def execUint (s : State) : Host.Outcome State Fault Refusal :=
  let lo := (operandU32 s.operand0).toNat
  let hi := (operandU32 s.operand1).toNat
  if hi < lo then .next (completeError argumentError s)
  else
    let v := mapRange lo (hi - lo + 1) (beginCommand s)
    .next (completeValue (resultU32 (BitVec.ofInt 32 v.1)) v.2)

/-- `RUINT` (R134). -/
def execRuint (s : State) : Host.Outcome State Fault Refusal :=
  let lo := (operandU32 s.operand0).toNat
  let hi := (operandU32 s.operand1).toNat
  if hi ≤ lo then .next (completeError argumentError s)
  else
    let v := mapRange lo (hi - lo) (beginCommand s)
    .next (completeValue (resultU32 (BitVec.ofInt 32 v.1)) v.2)

/-- `BYTE` (R135): the low byte of one raw draw. -/
def execByte (s : State) : Host.Outcome State Fault Refusal :=
  let d := nextRaw (beginCommand s)
  .next (completeValue (resultCode (d.1.extractLsb' 0 8)) d.2)

/-- `CHAR` (R136): a lowercase ASCII letter. -/
def execChar (s : State) : Host.Outcome State Fault Refusal :=
  let v := mapRange 0x61 26 (beginCommand s)
  .next (completeValue (resultCode (BitVec.ofInt 8 v.1)) v.2)

/-- `ALPHABET[k]`: `A`..`Z`, `a`..`z`, `0`..`9` (R137). -/
def alphabet (k : Nat) : Byte :=
  if k < 26 then BitVec.ofNat 8 (0x41 + k)
  else if k < 52 then BitVec.ofNat 8 (0x61 + (k - 26))
  else BitVec.ofNat 8 (0x30 + (k - 52))

/-- `ALNUM` (R137). -/
def execAlnum (s : State) : Host.Outcome State Fault Refusal :=
  let v := mapRange 0 62 (beginCommand s)
  .next (completeValue (resultCode (alphabet v.1.toNat)) v.2)

end Sys2Proof.Machine
end

