-- ==== Sys2Proof/Machine/Sampler.lean ====
section
/-! DEFINITION. The distribution sampler (`spec/43_distribution_sampler.md` R170 to R173): NORMAL, EXPON and POISSON. -/

namespace Sys2Proof.Machine

/-- The Box-Muller value for the uniforms `u1` and `u2`, in the evaluation order of R171. -/
def boxMuller (s : State) (mu sigma u1 u2 : F64) : F64 :=
  let root := fsqrt (fmul f64MinusTwo (ln64 s u1))
  let c := cos64 s (fmul f64TwoPi u2)
  fadd mu (fmul (fmul sigma root) c)

/-- `NORMAL` (R171): two open uniforms, `u1` drawn first; a loop that runs out of fuel is a hang (R276). -/
def execNormal (s : State) : Host.Outcome State Fault Refusal :=
  let mu := operandF64 s.operand0
  let sigma := operandF64 s.operand1
  match drawNonzero Config.openFuel (beginCommand s) with
  | none => .fault .hang
  | some d1 =>
    match drawNonzero Config.openFuel d1.2 with
    | none => .fault .hang
    | some d2 =>
      .next (completeValue (resultF64 .normal [mu, sigma] (boxMuller s mu sigma (unitF64 d1.1) (unitF64 d2.1))) d2.2)

/-- The exponential value for the uniform `u` (R172). -/
def inverseCdf (s : State) (rate u : F64) : F64 := fdiv (fneg (ln64 s (fsub f64One u))) rate

/-- `EXPON` (R172): `rate` must be greater than 0; a NaN is not. -/
def execExpon (s : State) : Host.Outcome State Fault Refusal :=
  let rate := operandF64 s.operand0
  if flt f64Zero rate then
    let d := nextRaw (beginCommand s)
    .next (completeValue (resultF64 .expon [rate] (inverseCdf s rate (unitF64 d.1))) d.2)
  else .next (completeError argumentError s)

/-- The loop of R173: `k` iterations done and the product `p` so far; it stops as soon as `p > L` is false, with the new
`k`. None when the fuel runs out (R276). -/
def poissonLoop (limit : F64) : Nat → Dword → F64 → State → Option (Dword × State)
  | 0, _, _, _ => none
  | n + 1, k, p, s =>
    let d := nextRaw s
    let q := fmul p (unitF64 d.1)
    if flt limit q then poissonLoop limit n (k + 1#64) q d.2 else some (k + 1#64, d.2)

/-- `mean >= 0.0 and mean < +inf`; a NaN fails both comparisons (R173). -/
def meanOk (mean : F64) : Bool := fle f64Zero mean && flt mean f64Inf

/-- `POISSON` (R173): the result is the iteration count less one. -/
def execPoisson (s : State) : Host.Outcome State Fault Refusal :=
  let mean := operandF64 s.operand0
  if meanOk mean then
    match poissonLoop (exp64 s (fneg mean)) Config.poissonFuel 0#64 f64One (beginCommand s) with
    | none => .fault .hang
    | some r => .next (completeValue (r.1 - 1#64) r.2)
  else .next (completeError argumentError s)

end Sys2Proof.Machine
end

