-- ==== Sys2Proof/Machine/Uniform.lean ====
section
/-! DEFINITION. The float normalizer's commands (`spec/42_float_normalizer.md` R156 to R158): FLOAT, DOUBLE and BOOL. -/

namespace Sys2Proof.Machine

/-- `FLOAT` (R156). -/
def execFloat (s : State) : Host.Outcome State Fault Refusal :=
  let d := nextRaw (beginCommand s)
  .next (completeValue (resultF32 (unitF32 d.1)) d.2)

/-- `DOUBLE` (R157). -/
def execDouble (s : State) : Host.Outcome State Fault Refusal :=
  let d := nextRaw (beginCommand s)
  .next (completeValue (resultF64 .double [] (unitF64 d.1)) d.2)

/-- `0.0 <= p and p <= 1.0`; a NaN fails both comparisons (R158). -/
def probabilityOk (p : F64) : Bool := fle f64Zero p && fle p f64One

/-- `BOOL` (R158). -/
def execBool (s : State) : Host.Outcome State Fault Refusal :=
  let p := operandF64 s.operand0
  if probabilityOk p then
    let d := nextRaw (beginCommand s)
    .next (completeValue (resultBool (flt (unitF64 d.1) p)) d.2)
  else .next (completeError argumentError s)

end Sys2Proof.Machine
end

