-- ==== Sys2Proof/Machine/Dispatch.lean ====
section
/-! DEFINITION. The meaning of each command (`spec/30_encoding.md` R74), as the completion step of
`spec/60_exceptions.md` R246 runs it. -/

namespace Sys2Proof.Machine

-- One arm per command: run its completion step in the state whose operand snapshot it uses.
def exec (i : Instr) (s : State) : Host.Outcome State Fault Refusal :=
  match i with
  | .seed => Sys2Proof.Machine.execSeed s
  | .seedent => Sys2Proof.Machine.execSeedent s
  | .twist => Sys2Proof.Machine.execTwist s
  | .next => Sys2Proof.Machine.execNext s
  | .bool => Sys2Proof.Machine.execBool s
  | .int => Sys2Proof.Machine.execInt s
  | .uint => Sys2Proof.Machine.execUint s
  | .ruint => Sys2Proof.Machine.execRuint s
  | .float => Sys2Proof.Machine.execFloat s
  | .double => Sys2Proof.Machine.execDouble s
  | .byte => Sys2Proof.Machine.execByte s
  | .char => Sys2Proof.Machine.execChar s
  | .alnum => Sys2Proof.Machine.execAlnum s
  | .normal => Sys2Proof.Machine.execNormal s
  | .expon => Sys2Proof.Machine.execExpon s
  | .poisson => Sys2Proof.Machine.execPoisson s
  | .pseudo => Sys2Proof.Machine.execPseudo s

end Sys2Proof.Machine
end

