-- ==== Sys2Proof/Machine/Agents.lean ====
section
/-! DEFINITION. The agents' moves (`spec/00_scope.md` R8) in the one total order of `spec/20_memory.md` R61. -/

namespace Sys2Proof.Machine

/-- The completion step of the pending word `c` (R246): an illegal word completes with IllegalCommand (R243), decided
from the word alone and first (R247). -/
def completeCommand (c : Word) (s : State) : Host.Outcome State Fault Refusal :=
  match decode c with
  | .error _ => .next (completeError illegalCommand s)
  | .ok i => exec i s

/-- The engine's move: a completion while `BUSY(c)`, nothing while `IDLE` (R256) or held in reset (R260). -/
def engineStep (s : State) : Host.Outcome State Fault Refusal :=
  if s.inReset then .next s
  else
    match s.seq with
    | .idle => .next s
    | .busy c => completeCommand c s

/-- One event. While reset is asserted "the block answers no access" (R260) and makes no entropy request (R261; log
entry 13). -/
def perform (ev : Event) (s : State) : Host.Outcome State Fault Refusal :=
  match ev with
  | .host a => if s.inReset then .next { s with bus := .none } else hostAccess a s
  | .otherMaster _ => .refused .secondMaster
  | .engine => engineStep s
  | .entropy e => .next (answerEntropy e s)
  | .resetAssert => .next (assertReset s)
  | .resetRelease => .next (releaseReset s)

/-- One step: the first input still to come, or, when none is left, the engine's move (R61, R270; log entry 3). -/
def agentStep (s : State) : Host.Outcome State Fault Refusal :=
  match s.inputs with
  | [] => engineStep s
  | ev :: rest => perform ev { s with inputs := rest }

/-- The state in which the engine's next move completes the command word `c`: no input before it, reset released, `c`
accepted with the operands the ARG registers hold, and the entropy port's answer at hand where `c` asks for one (R245,
R246; log entry 5). -/
def placeCommand (c : Word) (s : State) : State :=
  let t := accept c { s with inputs := [], inReset := false }
  match t.port with
  | .requested => { t with port := .answered (Config.entropy s.free), free := s.free + 1 }
  | .quiet => t
  | .answered _ => t

end Sys2Proof.Machine
end

