-- ==== Sys2Proof/Machine/Step.lean ====
section
/-! DEFINITION. The one step of the machine, and where it finds its next command. -/

namespace Sys2Proof.Machine

/-- One step of the machine: one move of one agent in the total order of `spec/20_memory.md` R61. -/
def step (s : State) : Host.Outcome State Fault Refusal := agentStep s

/-- `s` with the command word of bits `w` accepted and pending, so that the next step completes exactly it. The block
has no program counter and fetches nothing (`spec/10_state.md` R24, `spec/20_memory.md` R64): the pending-command latch
stands in its place (log entry 5). -/
def State.withFetchWord (s : State) (nbits w : Nat) : State := placeCommand (BitVec.ofNat 32 (w % 2 ^ nbits)) s

end Sys2Proof.Machine
end

