-- ==== Sys2Proof/Machine/Platform.lean ====
section
/-! DEFINITION. The host's map around the blocks: the OPEN platform parameter `BASE` (`spec/20_memory.md` R50) and the
placement of several blocks in disjoint windows (R59). `spec/92_eei_decisions.md` calls an OPEN parameter an argument of
the model: `base` is a field of each placed block (log entry 16). The blocks themselves know only block-relative
offsets. -/

namespace Sys2Proof.Machine

/-- A block with the base address of its window in the host's map (R50). -/
structure PlacedBlock where
  base : Nat
  block : State
  deriving DecidableEq, Repr

/-- The block-relative offset of a host address in the window at `base`: `0 <= a < 0x2000` (R50). -/
def windowOffset (base address : Nat) : Option Nat :=
  if base ≤ address ∧ address < base + Config.windowSize then some (address - base) else none

/-- The host address of a register in the window at `base` (R50). -/
def Reg.address (base : Nat) (r : Reg) : Nat := base + r.offset

/-- An access at a host address, as the block whose window is at `base` receives it; none outside the window. Here the
number in the access is a host address, not an offset. -/
def Access.relative (base : Nat) : Access → Option Access
  | .read w address => (windowOffset base address).map (.read w)
  | .write w address v => (windowOffset base address).map fun offset => .write w offset v

/-- Two windows do not meet. -/
def windowsApart (a b : Nat) : Bool := decide (a + Config.windowSize ≤ b) || decide (b + Config.windowSize ≤ a)

/-- "Several instances occupy disjoint windows" (R59). -/
def wellPlaced : List PlacedBlock → Bool
  | [] => true
  | p :: rest => rest.all (fun q => windowsApart p.base q.base) && wellPlaced rest

/-- What happens on the platform: the host accesses an address of its map, or an agent of the block numbered `k` moves. -/
inductive PlatformEvent where
  | host (a : Access)
  | at (k : Nat) (ev : Event)
  deriving DecidableEq, Repr

/-- The platform's outcome when one of its blocks answered with `o`. -/
def replaceBlock (p : PlacedBlock) (rest : List PlacedBlock) (o : Host.Outcome State Fault Refusal) :
    Host.Outcome (List PlacedBlock) Fault Refusal :=
  match o with
  | .next t => .next ({ p with block := t } :: rest)
  | .fault r => .fault r
  | .refused r => .refused r

/-- The platform's outcome with a block in front that had no part in it. -/
def keepBlock (p : PlacedBlock) (o : Host.Outcome (List PlacedBlock) Fault Refusal) :
    Host.Outcome (List PlacedBlock) Fault Refusal :=
  match o with
  | .next ps => .next (p :: ps)
  | .fault r => .fault r
  | .refused r => .refused r

/-- A host access goes to the block whose window holds its address. An address in no window is not the blocks' (R59) and
is refused. -/
def accessPlatform (a : Access) : List PlacedBlock → Host.Outcome (List PlacedBlock) Fault Refusal
  | [] => .refused .outsideWindows
  | p :: rest =>
    match a.relative p.base with
    | some b => replaceBlock p rest (perform (.host b) p.block)
    | none => keepBlock p (accessPlatform a rest)

/-- A move of an agent of the block numbered `k`; a number the platform lacks does nothing. -/
def moveBlock (ev : Event) : Nat → List PlacedBlock → Host.Outcome (List PlacedBlock) Fault Refusal
  | _, [] => .next []
  | 0, p :: rest => replaceBlock p rest (perform ev p.block)
  | k + 1, p :: rest => keepBlock p (moveBlock ev k rest)

/-- One event of the platform. Blocks whose windows meet are no platform (R59), and every event on one is refused. -/
def performPlatform (ev : PlatformEvent) (ps : List PlacedBlock) : Host.Outcome (List PlacedBlock) Fault Refusal :=
  if wellPlaced ps then
    match ev with
    | .host a => accessPlatform a ps
    | .at k e => moveBlock e k ps
  else .refused .overlappingWindows

end Sys2Proof.Machine
end

