-- ==== Sys2Proof/Machine/Assembly.lean ====
section
/-! DEFINITION. The host assembly notation of `spec/00_scope.md` R15, the pseudo-instructions of `spec/30_encoding.md`
R80 with their expansions, and the sequences of events they make in the total order of R61 (log entry 15). -/

namespace Sys2Proof.Machine

/-- The three bus forms of R15. A read has the name it is given to. -/
inductive HostOp where
  | wr (r : Reg) (v : Word)
  | rd (r : Reg) (name : String)
  | poll
  deriving DecidableEq, Repr

/-- The pseudo-instructions of R80 with their operands: 32-bit values, binary64 patterns, and the name of `GETRES`. -/
inductive Pseudo where
  | seed (v : Word)
  | seedent
  | twist
  | next
  | bool (p : F64)
  | int (lo hi : Word)
  | uint (lo hi : Word)
  | ruint (lo hi : Word)
  | float
  | double
  | byte
  | char
  | alnum
  | normal (mu sigma : F64)
  | expon (rate : F64)
  | poisson (mean : F64)
  | pseudo
  | getres (name : String)
  deriving DecidableEq, Repr

/-- `WR CMD, <word of i>; POLL` (R80). -/
def issue (i : Instr) : List HostOp := [.wr .cmd (encode i), .poll]

/-- The writes of `ARG0_LO` and `ARG0_HI` from a 64-bit pattern (R80). -/
def loadArg0 (x : Dword) : List HostOp := [.wr .arg0Lo (loHalf x), .wr .arg0Hi (hiHalf x)]

/-- The writes of `ARG1_LO` and `ARG1_HI` from a 64-bit pattern (R80). -/
def loadArg1 (x : Dword) : List HostOp := [.wr .arg1Lo (loHalf x), .wr .arg1Hi (hiHalf x)]

/-- The writes of the two `_LO` halves (R80). -/
def loadRange (lo hi : Word) : List HostOp := [.wr .arg0Lo lo, .wr .arg1Lo hi]

/-- The expansion column of R80. -/
def Pseudo.expand : Pseudo → List HostOp
  | .seed v => .wr .arg0Lo v :: issue .seed
  | .seedent => issue .seedent
  | .twist => issue .twist
  | .next => issue .next
  | .bool p => loadArg0 p ++ issue .bool
  | .int lo hi => loadRange lo hi ++ issue .int
  | .uint lo hi => loadRange lo hi ++ issue .uint
  | .ruint lo hi => loadRange lo hi ++ issue .ruint
  | .float => issue .float
  | .double => issue .double
  | .byte => issue .byte
  | .char => issue .char
  | .alnum => issue .alnum
  | .normal mu sigma => loadArg0 mu ++ loadArg1 sigma ++ issue .normal
  | .expon rate => loadArg0 rate ++ issue .expon
  | .poisson mean => loadArg0 mean ++ issue .poisson
  | .pseudo => issue .pseudo
  | .getres name => [.rd .status "s", .rd .resLo (name ++ "_lo"), .rd .resHi (name ++ "_hi")]

/-- The binary64 value a decimal literal stands for, `digits * 10^exponent` with a sign: the nearest one (R80). What R80
leaves open is the model's choice (DESIGN CHOICE, log entry 25): an exact tie goes to the even value, a literal from the
overflow threshold up stands for an infinity, and one whose nearest value is zero keeps its written sign. -/
def decimalF64 (negative : Bool) (digits : Nat) (exponent : Int) : F64 :=
  f64Round negative (digits * 10 ^ exponent.toNat * 2 ^ 1074) (10 ^ (-exponent).toNat)

/-- What happens between a poll's first read and its last (R270): `polls` reads that find `BUSY`, the entropy port's
answer where one is asked for, and the engine's completion. A host procedure takes one of these for all its commands (log
entry 26). -/
structure Latency where
  polls : Nat
  answer : Word
  deriving DecidableEq, Repr

/-- The events of one bus form. `POLL` repeats `RD STATUS` until `BUSY` is clear (R15). -/
def HostOp.events (l : Latency) : HostOp → List Event
  | .wr r v => [.host (Machine.wr r v)]
  | .rd r _ => [.host (Machine.rd r)]
  | .poll => List.replicate l.polls (.host (Machine.rd .status)) ++ [.entropy l.answer, .engine, .host (Machine.rd .status)]

/-- The events of a pseudo-instruction (R80). -/
def Pseudo.events (l : Latency) (p : Pseudo) : List Event := p.expand.flatMap (HostOp.events l)

/-- A sequence of events, stopping at the first fault or refusal. -/
def performAll : List Event → State → Host.Outcome State Fault Refusal
  | [], s => .next s
  | ev :: rest, s =>
    match perform ev s with
    | .next t => performAll rest t
    | .fault r => .fault r
    | .refused r => .refused r

/-- The datum the block last answered a read with; none where it answered no read. The spec does not say what a host
gets from an access that is not answered (R260): no value is made up for it here, and log entry 22 says what each kind of
host does then. -/
def busDatum (s : State) : Option Word :=
  match s.bus with
  | .data v => some v
  | .ack => none
  | .none => none

/-- The event was a host access and the block did not answer it, in the state it left (R260; log entry 22). -/
def unanswered (ev : Event) (after : State) : Bool :=
  match ev with
  | .host _ => after.bus = .none
  | .otherMaster _ => false
  | .engine => false
  | .entropy _ => false
  | .resetAssert => false
  | .resetRelease => false

end Sys2Proof.Machine
end

