-- ==== Sys2Proof/Machine/Procedures.lean ====
section
/-! DEFINITION. The host procedures of `spec/45_host_procedures.md`: fixed sequences of commands over caller-owned
collections (R200 to R208), and cloning (R220). They are host software; the block sees only their bus accesses (log
entry 15). -/

namespace Sys2Proof.Machine

/-- How a host procedure ends: with a value, with its own ArgumentError and no command issued (R200), with the error
code of a failed command (R201), at an access that the block does not answer because reset is asserted (the model's
choice, log entry 22: the spec is silent), or stopped because an access or a command stopped. -/
inductive ProcResult (α : Type) where
  | done (value : α) (s : State)
  | argumentError (s : State)
  | commandError (code : BitVec 4) (s : State)
  | unanswered (s : State)
  | fault (r : Fault)
  | refused (r : Refusal)
  deriving DecidableEq, Repr

/-- The same ending with the value mapped. -/
def ProcResult.map {α β : Type} (f : α → β) : ProcResult α → ProcResult β
  | .done a s => .done (f a) s
  | .argumentError s => .argumentError s
  | .commandError c s => .commandError c s
  | .unanswered s => .unanswered s
  | .fault r => .fault r
  | .refused r => .refused r

/-- Continue after a value. -/
def ProcResult.andThen {α β : Type} (x : ProcResult α) (f : α → State → ProcResult β) : ProcResult β :=
  match x with
  | .done a s => f a s
  | .argumentError s => .argumentError s
  | .commandError c s => .commandError c s
  | .unanswered s => .unanswered s
  | .fault r => .fault r
  | .refused r => .refused r

/-- A sequence of events as a procedure's step. It ends at the first host access that the block does not answer (R260;
the model's choice, log entry 22). -/
def procEvents : List Event → State → ProcResult Unit
  | [], s => .done () s
  | ev :: rest, s =>
    match perform ev s with
    | .next t => if Machine.unanswered ev t then .unanswered t else procEvents rest t
    | .fault r => .fault r
    | .refused r => .refused r

/-- `RD REG` as a procedure's step. -/
def procRead (r : Reg) (s : State) : ProcResult Word :=
  (procEvents [.host (rd r)] s).andThen fun _ t =>
    match busDatum t with
    | some v => .done v t
    | none => .unanswered t

/-- The commands whose result is wider than 32 bits, so that a call needs `RES_HI` (R201 says "where needed" and no
more; DEDUCED from R73, log entry 24): the binary64 results and the u64 of `POISSON`. `GETRES` reads both halves by its
own expansion and is called by no procedure. -/
def Pseudo.needsHigh : Pseudo → Bool
  | .seed _ => false
  | .seedent => false
  | .twist => false
  | .next => false
  | .bool _ => false
  | .int _ _ => false
  | .uint _ _ => false
  | .ruint _ _ => false
  | .float => false
  | .double => true
  | .byte => false
  | .char => false
  | .alnum => false
  | .normal _ _ => true
  | .expon _ => true
  | .poisson _ => true
  | .pseudo => false
  | .getres _ => false

/-- The command call convention (R201): the expansion, `RD STATUS`, stop with the error code when `ERR = 1`, else read
`RES_LO`, and `RES_HI` where the result is wider than 32 bits (log entry 24). A call that does not read `RES_HI` has the
value of `RES_LO`, zero-extended. -/
def call (l : Latency) (p : Pseudo) (s : State) : ProcResult Dword :=
  (procEvents (p.events l) s).andThen fun _ s1 =>
  (procRead .status s1).andThen fun status s2 =>
  if status.getLsbD 1 then .commandError (status.extractLsb' 4 4) s2
  else
    (procRead .resLo s2).andThen fun lo s3 =>
    if p.needsHigh then (procRead .resHi s3).andThen fun hi s4 => .done (hi ++ lo) s4
    else .done (lo.zeroExtend 64) s3

/-- Several calls in order, with their results (R200). R270 leaves the latency of each command open; that all calls of one
procedure have the same one is the model's choice (DESIGN CHOICE, log entry 26). -/
def callAll (l : Latency) : List Pseudo → State → ProcResult (List Dword)
  | [], s => .done [] s
  | p :: rest, s =>
    (call l p s).andThen fun v t => (callAll l rest t).map (v :: ·)

/-- The longest collection whose length fits the u32 operands (R201). -/
def maxLength : Nat := 0xFFFFFFFF

/-- A 32-bit operand of a call. -/
def u32 (n : Nat) : Word := BitVec.ofNat 32 n

/-- `bytes(len)` (R202): `len` `BYTE` commands. -/
def bytes (l : Latency) (len : Nat) (s : State) : ProcResult (List Byte) :=
  if maxLength < len then .argumentError s
  else (callAll l (List.replicate len .byte) s).map (List.map fun v => v.extractLsb' 0 8)

/-- `string(len)` (R203): `len` `ALNUM` commands; the string as its ASCII codes. -/
def string (l : Latency) (len : Nat) (s : State) : ProcResult (List Byte) :=
  if maxLength < len then .argumentError s
  else (callAll l (List.replicate len .alnum) s).map (List.map fun v => v.extractLsb' 0 8)

/-- `choose(values)` (R204): none for an empty list and no command; else one `RUINT 0, n`. A value read back that is no
index, which takes a procedure begun while another command is pending, answers none too (DESIGN CHOICE, log entry 27). -/
def choose {α : Type} (l : Latency) (values : List α) (s : State) : ProcResult (Option α) :=
  if maxLength < values.length then .argumentError s
  else if values.length = 0 then .done none s
  else (call l (.ruint 0#32 (u32 values.length)) s).map fun v => values[v.toNat]?

/-- Swap two elements of a list: no effect when the positions are equal. It has none either when one is outside the list,
which takes a procedure begun while another command is pending (DESIGN CHOICE, log entry 27). -/
def swap {α : Type} (xs : List α) (i j : Nat) : List α :=
  match xs[i]?, xs[j]? with
  | some a, some b => (xs.set i b).set j a
  | some _, none => xs
  | none, _ => xs

/-- The `UINT 0, i` calls of `shuffle`, for `i` down to 1 (R205). -/
def shuffleCalls : Nat → List Pseudo
  | 0 => []
  | i + 1 => .uint 0#32 (u32 (i + 1)) :: shuffleCalls i

/-- The swaps of `shuffle`, for `i` down to 1, with the drawn indices (R205). -/
def shuffleSwaps {α : Type} : Nat → List Dword → List α → List α
  | 0, _, xs => xs
  | _ + 1, [], xs => xs
  | i + 1, j :: js, xs => shuffleSwaps i js (swap xs (i + 1) j.toNat)

/-- `shuffle(values)` (R205): Fisher-Yates from `len - 1` down to 1. -/
def shuffle {α : Type} (l : Latency) (values : List α) (s : State) : ProcResult (List α) :=
  if maxLength < values.length then .argumentError s
  else (callAll l (shuffleCalls (values.length - 1)) s).map fun js => shuffleSwaps (values.length - 1) js values

/-- The `UINT i, n - 1` calls of `sample`, for the `k` positions from `i` up (R206). -/
def sampleCalls (n : Nat) : Nat → Nat → List Pseudo
  | _, 0 => []
  | i, k + 1 => .uint (u32 i) (u32 (n - 1)) :: sampleCalls n (i + 1) k

/-- The swaps of `sample`, from position `i` up, with the drawn indices (R206). -/
def sampleSwaps {α : Type} : Nat → List Dword → List α → List α
  | _, [], xs => xs
  | i, j :: js, xs => sampleSwaps (i + 1) js (swap xs i j.toNat)

/-- `sample(values, k)` (R206): a partial Fisher-Yates pass on a copy; fails when `k > n`. -/
def sample {α : Type} (l : Latency) (values : List α) (k : Nat) (s : State) : ProcResult (List α) :=
  if maxLength < values.length ∨ values.length < k then .argumentError s
  else (callAll l (sampleCalls values.length 0 k) s).map fun js => (sampleSwaps 0 js values).take k

/-- `sample_with_replacement(values, k)` (R207): `k` `RUINT 0, n` commands; fails on an empty list when `k > 0`. A value
read back that is no index, which takes a procedure begun while another command is pending, gives no element (DESIGN
CHOICE, log entry 27). -/
def sampleWithReplacement {α : Type} (l : Latency) (values : List α) (k : Nat) (s : State) : ProcResult (List α) :=
  if maxLength < values.length ∨ (values.length = 0 ∧ 0 < k) then .argumentError s
  else (callAll l (List.replicate k (.ruint 0#32 (u32 values.length))) s).map fun js =>
    js.filterMap fun j => values[j.toNat]?

/-- The first choice whose cumulative weight, counted on from `cum`, exceeds `d` (R208). There is one for every `d` below
the total; none for a larger `d`, which takes a procedure begun while another command is pending (DESIGN CHOICE, log entry
27). -/
def pickWeighted {α : Type} (d : Nat) : Nat → List (α × Word) → Option α
  | _, [] => none
  | cum, (c, w) :: rest => if d < cum + w.toNat then some c else pickWeighted d (cum + w.toNat) rest

/-- The exact sum of u32 weights (R208). -/
def weightTotal (weights : List Word) : Nat := (weights.map BitVec.toNat).sum

/-- `weighted_choice(choices, weights)` (R208): one `RUINT 0, total`; from an idle block the loop always finds a choice, as
`d < total`. -/
def weightedChoice {α : Type} (l : Latency) (choices : List α) (weights : List Word) (s : State) :
    ProcResult (Option α) :=
  if maxLength < choices.length ∨ choices.length ≠ weights.length ∨ weightTotal weights = 0 ∨
      0xFFFFFFFF < weightTotal weights then .argumentError s
  else (call l (.ruint 0#32 (u32 (weightTotal weights))) s).map fun d => pickWeighted d.toNat 0 (choices.zip weights)

/-- The registers `clone` copies, in the order R220 writes them: every `WORD[i]`, `CFG_M`, `CFG_MATRIX_A`, `INDEX`. -/
def cloneRegs : List Reg := (List.finRange 624).map Reg.word ++ [.cfgM, .cfgMatrixA, .index]

/-- `WR B.REG, (RD A.REG)` for each register in turn (R220): the two instances afterwards. -/
def copyRegs : List Reg → State → State → ProcResult State
  | [], a, b => .done a b
  | r :: rest, a, b =>
    (procRead r a).andThen fun v a1 =>
    (procEvents [.host (wr r v)] b).andThen fun _ b1 => copyRegs rest a1 b1

/-- `clone(A, B)` (R220): the value is instance A after its reads, the state is instance B. -/
def clone (a b : State) : ProcResult State := copyRegs cloneRegs a b

end Sys2Proof.Machine
end

