-- ==== Sys2Proof/Safety.lean ====
section
/-! DEFINITION. What counts as a legal state and a safe move, and the words claims are stated in: the raw stream of a
state, the value of a generator, the state a command leaves. -/

namespace Sys2Proof.Safety

open Sys2Proof.Machine

/-- "Values 626 to 1023 are never held" (R22). -/
def cursorLegal (s : State) : Bool := decide (s.index.toNat ≤ 625)

/-- The legal values of the two programmable constants (R29, R30). -/
def configLegal (s : State) : Bool :=
  decide (1 ≤ s.cfgM.toNat) && decide (s.cfgM.toNat ≤ 623) && s.cfgMatrixA.getLsbD 31

/-- `ERRCODE` is 0 when `ERR = 0` (R37) and one of the three codes when `ERR = 1` (R240: "4..15 reserved, never
written"). -/
def flagsLegal (s : State) : Bool :=
  if s.err then s.errCode = argumentError || s.errCode = configurationError || s.errCode = illegalCommand
  else s.errCode = 0#4

/-- While a command is pending, `CMD` and the snapshot are what acceptance left (R58, R64, R245). -/
def latchLegal (s : State) : Bool :=
  match s.seq with
  | .idle => true
  | .busy c => s.cmd = c && s.operand0 = s.arg0 && s.operand1 = s.arg1

/-- An entropy request is outstanding, or answered, only while a `SEEDENT` is pending, and then always (R38, R41). -/
def portLegal (s : State) : Bool :=
  match s.seq with
  | .idle => s.port = .quiet
  | .busy c => decide (s.port = .quiet ↔ requestOf c = .quiet)

/-- While reset is asserted the block is idle and every register with a reset value holds it (R260, R44). -/
def resetLegal (s : State) : Bool :=
  !s.inReset ||
    (s.seq = .idle && s.index = Config.sentinel && s.cfgM = Config.canonicalM && s.cfgMatrixA = Config.canonicalMatrixA &&
      s.arg0 = 0#64 && s.arg1 = 0#64 && s.res = 0#64 && s.cmd = 0#32 && s.lastDraws = 0#32 &&
      !s.err && s.errCode = 0#4 && !s.ovr)

/-- The states the block can be in. -/
def legal (s : State) : Bool :=
  cursorLegal s && configLegal s && flagsLegal s && latchLegal s && portLegal s && resetLegal s

/-- A step from `s` goes on: no bus error, no hang, no second master. -/
def stepsOn (s : State) : Prop := ∃ t, step s = .next t

/-- The next input is a host access that R271 warns of: anything but `STATUS` while a command is pending. -/
def hazard (s : State) : Bool :=
  match s.inputs with
  | [] => false
  | ev :: _ =>
    match ev with
    | .host a => s.busy && a.target != some .status
    | .otherMaster _ => false
    | .engine => false
    | .entropy _ => false
    | .resetAssert => false
    | .resetRelease => false

/-- The state after `n` raw draws (R17). -/
def drawMany : Nat → State → State
  | 0, s => s
  | n + 1, s => drawMany n (nextRaw s).2

/-- Raw draw number `n` from `s`, counting from 0. -/
def rawDraw (s : State) (n : Nat) : Word := (nextRaw (drawMany n s)).1

/-- Two states have the same generator: `words`, `index`, `CFG_M` and `CFG_MATRIX_A` (R42). -/
def sameGenerator (s t : State) : Prop :=
  s.words = t.words ∧ s.index = t.index ∧ s.cfgM = t.cfgM ∧ s.cfgMatrixA = t.cfgMatrixA

/-- Two states run one command on the same operands, entropy answer and OPEN functions. -/
def sameOperands (s t : State) : Prop :=
  s.operand0 = t.operand0 ∧ s.operand1 = t.operand1 ∧ s.port = t.port ∧ s.math = t.math

/-- `s` after a command that drew its way to the generator of `g` and left `res` and `lastDraws`: `ERR` and `ERRCODE`
cleared, the sequencer idle, EVERY OTHER FIELD that of `s` (R246). -/
def completed (s g : State) (res : Dword) (lastDraws : Word) : State :=
  { s with
    words := g.words, index := g.index, draws := g.draws, res := res, lastDraws := lastDraws
    err := false, errCode := 0#4, seq := .idle, port := .quiet }

/-- `s` after a command that failed with `code`: `LAST_DRAWS` is 0, the sequencer idle, EVERY OTHER FIELD that of `s`
(R246, R249). -/
def failed (s : State) (code : BitVec 4) : State :=
  { s with lastDraws := 0#32, draws := 0, err := true, errCode := code, seq := .idle, port := .quiet }

/-- `s` with the in-progress count at 0, as a completion starts (R246). -/
def started (s : State) : State := { s with draws := 0 }

/-- The partial product of `n` uniforms from `s` (R173). -/
def product (s : State) : Nat → F64
  | 0 => f64One
  | n + 1 => fmul (product s n) (unitF64 (rawDraw s n))

/-- `z` is what IEEE 754 round to nearest, ties to even, answers for the exact result of magnitude `n / d` units of 2^-1074
and the sign given: finite and at least as near as any finite value, its last bit 0 where another one is just as near;
from the overflow threshold up, the infinity of that sign (R151; log entry 12). -/
def nearestEven (z : F64) (negative : Bool) (n d : Nat) : Prop :=
  (n < d * (2 ^ 2098 - 2 ^ 2044) → f64Exponent z < 2047 ∧ f64Sign z = negative ∧
    ∀ y : F64, f64Exponent y < 2047 →
      let near := ((n : Int) - d * f64Magnitude z).natAbs
      let far := ((n : Int) - d * f64Magnitude y).natAbs
      near ≤ far ∧ (near = far → f64Magnitude y ≠ f64Magnitude z → z.getLsbD 0 = false)) ∧
  (d * (2 ^ 2098 - 2 ^ 2044) ≤ n → z = f64Make negative f64Inf.toNat)

/-- The inputs put the engine's move next: it is the first of them, or none is left (R61; log entry 3). -/
def engineNext (s : State) : Prop := s.inputs = [] ∨ ∃ rest, s.inputs = .engine :: rest

/-- The next input is a write of the register by the host, which the block takes as it is idle and not in reset. -/
def writeNext (r : Reg) (v : Word) (s : State) : Prop :=
  s.inReset = false ∧ s.busy = false ∧ ∃ rest, s.inputs = .host (wr r v) :: rest

/-- The next input is the assertion of reset. -/
def resetNext (s : State) : Prop := ∃ rest, s.inputs = .resetAssert :: rest

end Sys2Proof.Safety
end

