-- ==== Sys2Proof/Certificates/Slice0/Obligations.lean ====
section
/-! DEFINITION. The statements for the provers, in the order of spec/. A state written `{ s with f := v }` says that every
field but `f` is that of `s`: the frame of each statement is in that equality. `completed`, `failed` and `started`
(Sys2Proof/Safety.lean) are such equalities for the end and the start of a completion. -/

open Sys2Proof Sys2Proof.Machine Sys2Proof.Safety

/-! ### Encoding: spec/30_encoding.md -/

/-- R76, its table read row by row: the decoder reads each assigned word as its command, and every other word is
illegal. -/
def Obligations.DecodeIsTheOpcodeMap : Prop :=
  decode 0x00000001#32 = .ok .seed ∧ decode 0x00000002#32 = .ok .seedent ∧ decode 0x00000003#32 = .ok .twist ∧
  decode 0x00000004#32 = .ok .next ∧ decode 0x00000005#32 = .ok .bool ∧ decode 0x00000006#32 = .ok .int ∧
  decode 0x00000007#32 = .ok .uint ∧ decode 0x00000008#32 = .ok .ruint ∧ decode 0x00000009#32 = .ok .float ∧
  decode 0x0000000A#32 = .ok .double ∧ decode 0x0000000B#32 = .ok .byte ∧ decode 0x0000000C#32 = .ok .char ∧
  decode 0x0000000D#32 = .ok .alnum ∧ decode 0x0000000E#32 = .ok .normal ∧ decode 0x0000000F#32 = .ok .expon ∧
  decode 0x00000010#32 = .ok .poisson ∧ decode 0x00000011#32 = .ok .pseudo ∧
  ∀ c : Word, c.toNat = 0 ∨ 0x11 < c.toNat → ∃ e, decode c = .error e

/-- Decode and encode agree: a word decodes to a command exactly when it is the command's own word, so no bit of a
command word is dropped and none is shared (R74, R75). -/
def Obligations.DecodeAndEncodeAgree : Prop :=
  ∀ (c : Word) (i : Instr), decode c = .ok i ↔ c = encode i

/-- A word is rebuilt from the four byte lanes of R54; and the bytes of a command word decode to the command whatever
bytes follow. That a command word in bytes has lane 0 first is the model's choice (log entry 20): the block never reads
one so. -/
def Obligations.LanesRebuildTheWord : Prop :=
  (∀ (i : Instr) (rest : List Byte), decodeBytes (encodeBytes i ++ rest) = .ok (i, rest)) ∧
  (∀ v : Word, wordOfLanes (laneOf v 0) (laneOf v 1) (laneOf v 2) (laneOf v 3) = v)

/-! ### Reset and the step -/

/-- The registers right after reset, as the host reads them (R44 and the table of R27): nothing is said of the words. -/
def Obligations.RegistersAfterReset : Prop :=
  readReg .status .reset = 0x00000200#32 ∧ State.reset.index = 625#10 ∧ State.reset.seq = .idle ∧
  State.reset.port = .quiet ∧ readReg .cmd .reset = 0#32 ∧ State.reset.arg0 = 0#64 ∧ State.reset.arg1 = 0#64 ∧
  State.reset.res = 0#64 ∧ readReg .lastDraws .reset = 0#32 ∧ readReg .cfgN .reset = 624#32 ∧
  readReg .cfgM .reset = 397#32 ∧ readReg .cfgMatrixA .reset = 0x9908B0DF#32 ∧
  readReg .cfgUpperMask .reset = 0x80000000#32 ∧ readReg .cfgLowerMask .reset = 0x7FFFFFFF#32 ∧
  readReg .cfgTemperB .reset = 0x9D2C5680#32 ∧ readReg .cfgTemperC .reset = 0xEFC60000#32

/-- The invariant of legal states holds right after reset. -/
def Obligations.ResetIsLegal : Prop := legal .reset = true

/-- Every step keeps the invariant of legal states: the cursor stays in 0..625 (R22), the programmable constants stay
valid (R29, R30), `ERR` and `ERRCODE` agree and no reserved code appears (R37, R240), a pending command and its operands
are those accepted (R58, R64), an entropy request belongs to a pending SEEDENT, which always has one, and a block held
in reset holds its reset values. That a SEEDENT has its request from acceptance on is the model's choice (log entry 4),
and so is giving the reset values at the assertion of the input, which R260 gives at its release (log entry 13). -/
def Obligations.StepKeepsLegal : Prop :=
  ∀ s t : State, legal s = true → step s = .next t → legal t = true

/-- R61: the inputs come in their order, and the engine moves when none is left. A pending word that decodes to `i` runs
as `exec i` (R246), whether the engine's move is scheduled or not; an idle engine does nothing and holds all state
(R256). That the engine moves when no input is left is the model's choice (log entry 3). -/
def Obligations.StepRunsTheDecodedCommand : Prop :=
  (∀ (s : State) (c : Word) (i : Instr), s.inputs = [] → s.inReset = false → s.seq = .busy c → decode c = .ok i →
    step s = exec i s) ∧
  (∀ (s : State) (rest : List Event) (c : Word) (i : Instr), s.inputs = .engine :: rest → s.inReset = false →
    s.seq = .busy c → decode c = .ok i → step s = exec i { s with inputs := rest }) ∧
  (∀ (s : State) (ev : Event) (rest : List Event), s.inputs = ev :: rest → step s = perform ev { s with inputs := rest }) ∧
  (∀ s : State, s.seq = .idle → perform .engine s = .next s)

/-- `withFetchWord` accepts the command's word with the operands the ARG registers hold, and the next step runs it. How
a command is placed is the model's choice (log entry 5). -/
def Obligations.PlacedCommandRunsNext : Prop :=
  ∀ (i : Instr) (s : State),
    step (s.withFetchWord 32 (encode i).toNat) = exec i (s.withFetchWord 32 (encode i).toNat) ∧
    (s.withFetchWord 32 (encode i).toNat).seq = .busy (encode i) ∧
    (s.withFetchWord 32 (encode i).toNat).operand0 = s.arg0 ∧
    (s.withFetchWord 32 (encode i).toNat).operand1 = s.arg1 ∧
    sameGenerator s (s.withFetchWord 32 (encode i).toNat)

/-- R243 and the error branch of R246: an illegal word completes with IllegalCommand; no word, index, RES or CFG
register changes and no raw draw is made. -/
def Obligations.IllegalWordCompletesWithCode3 : Prop :=
  ∀ (s : State) (c : Word) (e : DecodeError), s.inReset = false → s.seq = .busy c → decode c = .error e →
    perform .engine s = .next (failed s 3#4)

/-- R261 and R260: asserting reset abandons the pending command and any entropy request, and every register takes its
reset value, the words being new free draws; while it is asserted no access is answered and the engine does not move.
The free draws and the two edges of the input are the model's (log entries 1 and 13). -/
def Obligations.ResetAbandonsThePendingCommand : Prop :=
  (∀ s : State, perform .resetAssert s =
    .next { State.reset with
      words := resetWords s.free, inReset := true, free := s.free + 1, math := s.math, inputs := s.inputs }) ∧
  (∀ (s : State) (a : Access), s.inReset = true → perform (.host a) s = .next { s with bus := .none }) ∧
  (∀ s : State, s.inReset = true → perform .engine s = .next s) ∧
  (∀ s : State, perform .resetRelease s = .next { s with inReset := false })

/-! ### The host interface: spec/20_memory.md, spec/10_state.md, spec/60_exceptions.md -/

/-- R52: each register's offset is the table's, and the map is one to one over exactly these offsets. With the OPEN
`BASE` of R50 as any number, a register's host address is `BASE` plus its offset, and an address outside the window of
0x2000 bytes reaches no offset. `BASE` as an argument is the model's (log entry 16). -/
def Obligations.RegisterMapIsOneToOne : Prop :=
  (Reg.cmd.offset = 0x000 ∧ Reg.status.offset = 0x004 ∧ Reg.arg0Lo.offset = 0x008 ∧ Reg.arg0Hi.offset = 0x00C ∧
    Reg.arg1Lo.offset = 0x010 ∧ Reg.arg1Hi.offset = 0x014 ∧ Reg.resLo.offset = 0x018 ∧ Reg.resHi.offset = 0x01C ∧
    Reg.index.offset = 0x020 ∧ Reg.lastDraws.offset = 0x024 ∧ Reg.cfgN.offset = 0x028 ∧ Reg.cfgM.offset = 0x02C ∧
    Reg.cfgMatrixA.offset = 0x030 ∧ Reg.cfgUpperMask.offset = 0x034 ∧ Reg.cfgLowerMask.offset = 0x038 ∧
    Reg.cfgTemperB.offset = 0x03C ∧ Reg.cfgTemperC.offset = 0x040 ∧
    ∀ i : Fin 624, (Reg.word i).offset = 0x1000 + 4 * i.val) ∧
  (∀ r : Reg, regAt r.offset = some r) ∧ (∀ (o : Nat) (r : Reg), regAt o = some r → r.offset = o) ∧
  (∀ o : Nat, regAt o ≠ none ↔ o % 4 = 0 ∧ (o ≤ 0x040 ∨ (0x1000 ≤ o ∧ o ≤ 0x19BC))) ∧
  (∀ (base : Nat) (r : Reg), r.address base = base + r.offset ∧ windowOffset base (r.address base) = some r.offset) ∧
  (∀ base address o : Nat, windowOffset base address = some o ↔ address = base + o ∧ o < 0x2000)

/-- From R51 and R53: a host access is a bus error exactly when it is not an aligned 32-bit access at the offset of a
register; every other access is answered. That this holds while busy too, against the words of R272 (log entry 8), that
it covers offsets beyond the window (log entry 6), and that a second master's access is refused (R254; log entry 14) are
the model's choices. -/
def Obligations.BusErrorExactlyForIllFormedAccesses : Prop :=
  (∀ (a : Access) (s : State), s.inReset = false →
    (perform (.host a) s = .fault .busError ↔ a.wellFormed = false) ∧
    (a.wellFormed = true → ∃ t, perform (.host a) s = .next t)) ∧
  (∀ (a : Access) (s : State), perform (.otherMaster a) s = .refused .secondMaster)

/-- R57 and R65: a read has no side effect on any register, and while idle it returns the register: the value of R33 to
R37, R22, R29, R30 and R55 that its name stands for, halves by R54. (For the hardwired registers see
HardwiredRegistersAreValidated.) -/
def Obligations.ReadsHaveNoSideEffect : Prop :=
  (∀ (r : Reg) (s : State), s.inReset = false →
    ∃ b n, perform (.host (rd r)) s = .next { s with bus := b, free := n }) ∧
  (∀ (r : Reg) (s : State), s.inReset = false → s.busy = false →
    perform (.host (rd r)) s = .next { s with bus := .data (readReg r s) }) ∧
  (∀ s : State,
    readReg .cmd s = s.cmd ∧ readReg .status s = statusWord s ∧
    readReg .arg0Lo s = s.arg0.extractLsb' 0 32 ∧ readReg .arg0Hi s = s.arg0.extractLsb' 32 32 ∧
    readReg .arg1Lo s = s.arg1.extractLsb' 0 32 ∧ readReg .arg1Hi s = s.arg1.extractLsb' 32 32 ∧
    readReg .resLo s = s.res.extractLsb' 0 32 ∧ readReg .resHi s = s.res.extractLsb' 32 32 ∧
    readReg .index s = s.index.zeroExtend 32 ∧ readReg .lastDraws s = s.lastDraws ∧ readReg .cfgM s = s.cfgM ∧
    readReg .cfgMatrixA s = s.cfgMatrixA ∧ ∀ i : Fin 624, readReg (.word i) s = wordAt s.words i.val)

/-- R273: while busy, a read of anything but STATUS answers a free value, and a read of STATUS answers STATUS, with BUSY
set. The free value is the model's `Config.busyRead` (log entry 7): nothing is known of it. -/
def Obligations.BusyReadsAreFreeButStatus : Prop :=
  (∀ (r : Reg) (s : State), s.inReset = false → s.busy = true → r ≠ .status →
    perform (.host (rd r)) s = .next { s with bus := .data (Config.busyRead s.free), free := s.free + 1 }) ∧
  (∀ s : State, s.inReset = false → s.busy = true →
    perform (.host (rd .status)) s = .next { s with bus := .data (statusWord s) } ∧ (statusWord s).getLsbD 0 = true)

/-- R272: while busy, a write to any offset other than STATUS is dropped and sets OVR, and changes no other state; a
write to STATUS is taken and clears OVR as R37 says. -/
def Obligations.BusyWritesAreDropped : Prop :=
  (∀ (r : Reg) (v : Word) (s : State), s.inReset = false → s.busy = true → r ≠ .status →
    perform (.host (wr r v)) s = .next { s with ovr := true, bus := .ack }) ∧
  (∀ (v : Word) (s : State), s.inReset = false → s.busy = true →
    perform (.host (wr .status v)) s = .next { s with ovr := if v.getLsbD 8 then false else s.ovr, bus := .ack })

/-- R37: the fields of STATUS, its reserved bits, and what a write to it does, idle or busy. -/
def Obligations.StatusFieldsAndWrites : Prop :=
  (∀ s : State,
    (statusWord s).getLsbD 0 = s.busy ∧ (statusWord s).getLsbD 1 = s.err ∧ (statusWord s).extractLsb' 2 2 = 0#2 ∧
    (statusWord s).extractLsb' 4 4 = s.errCode ∧ (statusWord s).getLsbD 8 = s.ovr ∧
    ((statusWord s).getLsbD 9 = true ↔ s.index = 625#10) ∧ (statusWord s).extractLsb' 10 22 = 0#22 ∧
    (s.busy = true ↔ ∃ c, s.seq = .busy c)) ∧
  (∀ (v : Word) (s : State), s.inReset = false →
    perform (.host (wr .status v)) s = .next { s with ovr := if v.getLsbD 8 then false else s.ovr, bus := .ack })

/-- R245, the branch that accepts: CMD, the operand snapshot and the pending-command latch; ERR and ERRCODE stay. The
entropy request of a SEEDENT is the model's part (log entry 4). -/
def Obligations.AcceptanceLatchesTheCommand : Prop :=
  ∀ (c : Word) (s : State), s.inReset = false → s.busy = false →
    perform (.host (wr .cmd c)) s =
      .next { s with
        cmd := c, operand0 := s.arg0, operand1 := s.arg1, seq := .busy c
        port := if c = 2#32 then .requested else .quiet, bus := .ack }

/-- R33: each half of ARG0 and ARG1 is written alone while idle, the other half staying, and reads back. -/
def Obligations.ArgumentHalvesAreSeparate : Prop :=
  ∀ (v : Word) (s : State), s.inReset = false → s.busy = false →
    (∃ d, perform (.host (wr .arg0Lo v)) s = .next { s with arg0 := d, bus := .ack } ∧
      d.extractLsb' 0 32 = v ∧ d.extractLsb' 32 32 = s.arg0.extractLsb' 32 32 ∧
      perform (.host (rd .arg0Lo)) { s with arg0 := d, bus := .ack } = .next { s with arg0 := d, bus := .data v }) ∧
    (∃ d, perform (.host (wr .arg0Hi v)) s = .next { s with arg0 := d, bus := .ack } ∧
      d.extractLsb' 32 32 = v ∧ d.extractLsb' 0 32 = s.arg0.extractLsb' 0 32 ∧
      perform (.host (rd .arg0Hi)) { s with arg0 := d, bus := .ack } = .next { s with arg0 := d, bus := .data v }) ∧
    (∃ d, perform (.host (wr .arg1Lo v)) s = .next { s with arg1 := d, bus := .ack } ∧
      d.extractLsb' 0 32 = v ∧ d.extractLsb' 32 32 = s.arg1.extractLsb' 32 32 ∧
      perform (.host (rd .arg1Lo)) { s with arg1 := d, bus := .ack } = .next { s with arg1 := d, bus := .data v }) ∧
    (∃ d, perform (.host (wr .arg1Hi v)) s = .next { s with arg1 := d, bus := .ack } ∧
      d.extractLsb' 32 32 = v ∧ d.extractLsb' 0 32 = s.arg1.extractLsb' 0 32 ∧
      perform (.host (rd .arg1Hi)) { s with arg1 := d, bus := .ack } = .next { s with arg1 := d, bus := .data v })

/-- R34, R36, R57: writes to RES and LAST_DRAWS are ignored while idle, with no error. -/
def Obligations.ReadOnlyRegistersIgnoreWrites : Prop :=
  ∀ (r : Reg) (v : Word) (s : State), s.inReset = false → s.busy = false →
    r = .resLo ∨ r = .resHi ∨ r = .lastDraws → perform (.host (wr r v)) s = .next { s with bus := .ack }

/-- R28, R31, R32: the five hardwired registers read their constants in every state; a write of the constant succeeds
with no change, any other value raises ConfigurationError and changes nothing else. That LAST_DRAWS stays then is the
model's reading (log entry 23). -/
def Obligations.HardwiredRegistersAreValidated : Prop :=
  (∀ s : State, readReg .cfgN s = 624#32 ∧ readReg .cfgUpperMask s = 0x80000000#32 ∧
    readReg .cfgLowerMask s = 0x7FFFFFFF#32 ∧ readReg .cfgTemperB s = 0x9D2C5680#32 ∧
    readReg .cfgTemperC s = 0xEFC60000#32) ∧
  (∀ (r : Reg) (v : Word) (s : State), s.inReset = false → s.busy = false →
    r = .cfgN ∨ r = .cfgUpperMask ∨ r = .cfgLowerMask ∨ r = .cfgTemperB ∨ r = .cfgTemperC →
    perform (.host (wr r v)) s =
      .next (if v = readReg r s then { s with err := false, errCode := 0#4, bus := .ack }
        else { s with err := true, errCode := 2#4, bus := .ack }))

/-- R29: CFG_M accepts exactly 1..623, on the full 32-bit value; any other raises ConfigurationError. That LAST_DRAWS
stays then is the model's reading (log entry 23). -/
def Obligations.RecurrenceOffsetIsValidated : Prop :=
  ∀ (v : Word) (s : State), s.inReset = false → s.busy = false →
    (1 ≤ v.toNat ∧ v.toNat ≤ 623 →
      perform (.host (wr .cfgM v)) s = .next { s with cfgM := v, err := false, errCode := 0#4, bus := .ack }) ∧
    (¬(1 ≤ v.toNat ∧ v.toNat ≤ 623) →
      perform (.host (wr .cfgM v)) s = .next { s with err := true, errCode := 2#4, bus := .ack })

/-- R30: CFG_MATRIX_A accepts exactly the values with bit 31 set; any other raises ConfigurationError. That LAST_DRAWS
stays then is the model's reading (log entry 23). -/
def Obligations.MatrixNeedsItsHighBit : Prop :=
  ∀ (v : Word) (s : State), s.inReset = false → s.busy = false →
    (2 ^ 31 ≤ v.toNat →
      perform (.host (wr .cfgMatrixA v)) s = .next { s with cfgMatrixA := v, err := false, errCode := 0#4, bus := .ack }) ∧
    (v.toNat < 2 ^ 31 →
      perform (.host (wr .cfgMatrixA v)) s = .next { s with err := true, errCode := 2#4, bus := .ack })

/-- R56: INDEX accepts 0..625 and reads back zero-extended; a larger value raises ArgumentError; 624 forces a twist at
the next raw draw, and 625 re-arms lazy default seeding. That LAST_DRAWS stays after a refused write is the model's
reading (log entry 23). -/
def Obligations.CursorWritesAreValidated : Prop :=
  ∀ (v : Word) (s : State), s.inReset = false → s.busy = false →
    (v.toNat ≤ 625 → ∃ n : Cursor,
      perform (.host (wr .index v)) s = .next { s with index := n, err := false, errCode := 0#4, bus := .ack } ∧
      n.toNat = v.toNat ∧ readReg .index { s with index := n } = v) ∧
    (625 < v.toNat → perform (.host (wr .index v)) s = .next { s with err := true, errCode := 1#4, bus := .ack }) ∧
    (∀ t, perform (.host (wr .index 624#32)) s = .next t → (nextRaw t).2.words = (twist s).words) ∧
    (∀ t, perform (.host (wr .index 625#32)) s = .next t → (nextRaw t).2.words = (twist (seed 5489#32 s)).words)

/-- R55: the state window. A read while idle returns the word, a write of `v` changes that word alone; and a raw draw or
a TWIST in the sentinel state re-seeds with 5489 and twists, which overwrites every word written this way: what the
words were makes no difference. -/
def Obligations.StateWindowReadsAndWrites : Prop :=
  (∀ (i : Fin 624) (s : State), s.inReset = false → s.busy = false →
    perform (.host (rd (.word i))) s = .next { s with bus := .data (wordAt s.words i.val) }) ∧
  (∀ (i : Fin 624) (v : Word) (s : State), s.inReset = false → s.busy = false →
    ∃ w : Ram, perform (.host (wr (.word i) v)) s = .next { s with words := w, bus := .ack } ∧
      ∀ j : Fin 624, wordAt w j.val = if j = i then v else wordAt s.words j.val) ∧
  (∀ s : State, s.index = 625#10 →
    (nextRaw s).2.words = (twist (seed 5489#32 s)).words ∧
    ∃ s', exec .twist s = .next s' ∧ s'.words = (twist (seed 5489#32 s)).words) ∧
  (∀ s t : State, s.index = 625#10 → t.index = 625#10 → s.cfgM = t.cfgM → s.cfgMatrixA = t.cfgMatrixA →
    (nextRaw s).1 = (nextRaw t).1 ∧ (nextRaw s).2.words = (nextRaw t).2.words ∧
    ∀ s' t', exec .twist s = .next s' → exec .twist t = .next t' → s'.words = t'.words)

/-- R43, R33, R35, R39: no command changes a CFG register, an ARG register, CMD or OVR, nor the reset input, the bus or
the inputs; and what a failed command changes is only ERR, ERRCODE, LAST_DRAWS and the sequencer. -/
def Obligations.CommandsKeepConfigurationAndArguments : Prop :=
  ∀ (i : Instr) (s t : State), exec i s = .next t →
    t.cfgM = s.cfgM ∧ t.cfgMatrixA = s.cfgMatrixA ∧ t.arg0 = s.arg0 ∧ t.arg1 = s.arg1 ∧ t.cmd = s.cmd ∧
    t.ovr = s.ovr ∧ t.operand0 = s.operand0 ∧ t.operand1 = s.operand1 ∧ t.inReset = s.inReset ∧ t.bus = s.bus ∧
    t.free = s.free ∧ t.math = s.math ∧ t.inputs = s.inputs ∧
    (t.err = true → t.lastDraws = 0#32 ∨ t = s) ∧
    (t.err = true → t.words = s.words ∧ t.index = s.index ∧ t.res = s.res)

/-- R39 and R250, of the whole machine: OVR, once set, is cleared by a STATUS write with bit 8 set or by reset, and by
no other step. -/
def Obligations.OverrunIsSticky : Prop :=
  ∀ s t : State, step s = .next t → s.ovr = true →
    t.ovr = true ∨ (∃ rest, s.inputs = .resetAssert :: rest) ∨
    (∃ v o rest, s.inputs = .host (.write .w32 o v) :: rest ∧ regAt o = some .status ∧ v.getLsbD 8 = true)

/-- R43, and from R21, of the whole machine: a step changes CFG_M or CFG_MATRIX_A only by the host's write of that
register while idle, which gives it its new value, or by reset; and INDEX or a word only by the host's write of it while
idle, by reset, or by the engine's move while a command is pending. That the engine moves when no input is left is the
model's choice (log entry 3). -/
def Obligations.OnlyWritesAndResetChangeConfiguration : Prop :=
  ∀ s t : State, step s = .next t →
    (t.cfgM ≠ s.cfgM → resetNext s ∨ writeNext .cfgM t.cfgM s) ∧
    (t.cfgMatrixA ≠ s.cfgMatrixA → resetNext s ∨ writeNext .cfgMatrixA t.cfgMatrixA s) ∧
    (t.index ≠ s.index →
      resetNext s ∨ writeNext .index (t.index.zeroExtend 32) s ∨ (s.busy = true ∧ engineNext s)) ∧
    (∀ i : Fin 624, wordAt t.words i.val ≠ wordAt s.words i.val →
      resetNext s ∨ writeNext (.word i) (wordAt t.words i.val) s ∨ (s.busy = true ∧ engineNext s))

/-! ### The state engine: spec/40_state_engine.md -/

/-- R102: the words and the cursor a seed leaves; no configuration register is read and no draw is made. -/
def Obligations.SeedFollowsItsRecurrence : Prop :=
  ∀ (v : Word) (s : State), ∃ w : Ram,
    seed v s = { s with words := w, index := 624#10 } ∧ wordAt w 0 = v ∧
    ∀ i, i < 623 → (wordAt w (i + 1)).toNat =
      (1812433253 * (wordAt w i ^^^ (wordAt w i >>> 30)).toNat + (i + 1)) % 2 ^ 32

/-- R104: lazy default seeding, and the two places it is called from. -/
def Obligations.LazySeedingOnlyAtTheSentinel : Prop :=
  ∀ s : State, (s.index = 625#10 → ensureSeeded s = seed 5489#32 s) ∧ (s.index ≠ 625#10 → ensureSeeded s = s) ∧
    (624 ≤ s.index.toNat → (nextRaw s).2.words = (twist (ensureSeeded s)).words) ∧
    (∀ t, exec .twist s = .next t → t.words = (twist (ensureSeeded s)).words)

/-- No seed leaves an all-zero array (section 1 of the file, on the seed). -/
def Obligations.NoSeedIsAllZero : Prop := ∀ v : Word, ∃ i, i < 624 ∧ wordAt (seedWords v) i ≠ 0#32

/-- R105 and R106: the twist's one forward pass in place, as the recurrence it computes. Position `i` mixes its own old
word with the next one, which is the OLD word except at 623, where it is the NEW word 0; the word `m` further on is the
old one when `i + m < 624` and the new one otherwise. Everything but `words` and `index` stays. -/
def Obligations.TwistIsTheInPlaceRecurrence : Prop :=
  ∀ s : State, 1 ≤ s.cfgM.toNat → s.cfgM.toNat ≤ 623 → ∃ w : Ram,
    twist s = { s with words := w, index := 0#10 } ∧
    ∀ i, i < 624 →
      wordAt w i =
        (if i + s.cfgM.toNat < 624 then wordAt s.words (i + s.cfgM.toNat) else wordAt w (i + s.cfgM.toNat - 624)) ^^^
        (let x := (wordAt s.words i &&& 0x80000000#32) |||
           ((if i < 623 then wordAt s.words (i + 1) else wordAt w 0) &&& 0x7FFFFFFF#32)
         if x.getLsbD 0 then (x >>> 1) ^^^ s.cfgMatrixA else x >>> 1)

/-- The all-zero array is a fixed point of the twist (section 1 of the file), whatever the configuration. -/
def Obligations.AllZeroIsATwistFixedPoint : Prop :=
  ∀ (m : Nat) (a : Word) (w : Ram), (∀ i, i < 624 → wordAt w i = 0#32) → twistWords m a w = w

/-- From R108 and R109: tempering is its four steps with 0x9D2C5680 and 0xEFC60000, and loses nothing: it is a bijection
on u32. -/
def Obligations.TemperIsABijection : Prop :=
  (∀ y : Word, ∃ y1 y2 y3 : Word,
    y1 = y ^^^ (y >>> 11) ∧ y2 = y1 ^^^ ((y1 <<< 7) &&& 0x9D2C5680#32) ∧ y3 = y2 ^^^ ((y2 <<< 15) &&& 0xEFC60000#32) ∧
    temper y = y3 ^^^ (y3 >>> 18)) ∧
  temper 0x00000001#32 = 0x00400091#32 ∧ temper 0x80000000#32 = 0x88102204#32 ∧
  temper 0xFFFFFFFF#32 = 0x6FE01BF8#32 ∧ temper 0x2B26E943#32 = 0x5FE1DC66#32 ∧
  Function.Bijective temper

/-- R110: a raw draw, in its three cases; afterwards the cursor is in 1..624. -/
def Obligations.RawDrawReadsTheCursorsWord : Prop :=
  (∀ s : State, s.index.toNat < 624 →
    nextRaw s = (temper (wordAt s.words s.index.toNat), { s with index := s.index + 1#10, draws := s.draws + 1 })) ∧
  (∀ s : State, s.index = 624#10 →
    nextRaw s = (temper (wordAt (twist s).words 0), { twist s with index := 1#10, draws := s.draws + 1 })) ∧
  (∀ s : State, s.index = 625#10 →
    nextRaw s = (temper (wordAt (twist (seed 5489#32 s)).words 0),
      { twist (seed 5489#32 s) with index := 1#10, draws := s.draws + 1 })) ∧
  (∀ s : State, 1 ≤ (nextRaw s).2.index.toNat ∧ (nextRaw s).2.index.toNat ≤ 624)

/-- The regeneration boundary (section 3 of the file): after a seed, raw draw number `k`, counting from 1, twists
exactly when `k mod 624 = 1`, and leaves the cursor at `(k - 1) mod 624 + 1`. -/
def Obligations.RegenerationBoundary : Prop :=
  ∀ (v : Word) (s : State) (k : Nat), 1 ≤ k →
    (624 ≤ (drawMany (k - 1) (seed v s)).index.toNat ↔ k % 624 = 1) ∧
    (drawMany k (seed v s)).index.toNat = (k - 1) % 624 + 1

/-- R111: SEED completes in every state, with the low half of its operand; RES stays and nothing is drawn. The next raw
draw twists first; value 5489 leaves what lazy default seeding leaves; value 0 makes word 1 a 1. -/
def Obligations.SeedCompletes : Prop :=
  encode .seed = 0x00000001#32 ∧
  (∀ s : State, exec .seed s =
    .next (completed s { started s with words := seedWords (s.operand0.extractLsb' 0 32), index := 624#10 } s.res 0#32)) ∧
  (∀ s t : State, exec .seed s = .next t →
    (nextRaw t).1 = temper (wordAt (twist t).words 0) ∧ (nextRaw t).2.words = (twist t).words) ∧
  (∀ s : State, s.index = 625#10 → (ensureSeeded s).words = seedWords 5489#32) ∧
  wordAt (seedWords 0#32) 1 = 1#32

/-- R112, R38, R266: SEEDENT, once the port has answered `e`, leaves what a SEED of `e` leaves; before that it waits,
BUSY, and nothing changes. The answer is an input that finds the request made at acceptance (log entry 4). -/
def Obligations.SeedFromEntropyCompletesOrWaits : Prop :=
  encode .seedent = 0x00000002#32 ∧
  (∀ (s : State) (e : Word), s.port = .answered e → exec .seedent s =
    .next (completed s { started s with words := seedWords e, index := 624#10 } s.res 0#32)) ∧
  (∀ s : State, s.port = .quiet ∨ s.port = .requested → exec .seedent s = .next s) ∧
  (∀ (s : State) (e : Word), s.port = .requested → perform (.entropy e) s = .next { s with port := .answered e })

/-- R113: TWIST completes in every state: lazy seeding first at the sentinel, then one twist; RES stays and nothing is
drawn. The next raw draw returns the new word 0 tempered, without another twist. -/
def Obligations.TwistCompletes : Prop :=
  encode .twist = 0x00000003#32 ∧
  (∀ s : State, s.index ≠ 625#10 → exec .twist s = .next (completed s (twist (started s)) s.res 0#32)) ∧
  (∀ s : State, s.index = 625#10 →
    exec .twist s = .next (completed s (twist (seed 5489#32 (started s))) s.res 0#32)) ∧
  (∀ s t : State, exec .twist s = .next t →
    (nextRaw t).1 = temper (wordAt t.words 0) ∧ (nextRaw t).2.words = t.words ∧ (nextRaw t).2.index = 1#10)

/-- R114: NEXT completes in every state with the raw draw, zero-extended. A raw value of 0 occurs exactly when the word
read is 0. -/
def Obligations.NextCompletes : Prop :=
  encode .next = 0x00000004#32 ∧
  (∀ s : State, exec .next s =
    .next (completed s (nextRaw (started s)).2 ((nextRaw (started s)).1.zeroExtend 64) 1#32)) ∧
  (∀ y : Word, temper y = 0#32 ↔ y = 0#32)

/-! ### The ranged integer mapper: spec/41_ranged_int_mapper.md -/

/-- R132: INT with `min <= max` draws once and completes with `min + (r mod (max - min + 1))`, which lies in `[min,
max]`, sign-extended; with `min > max` it fails with code 1, nothing drawn. -/
def Obligations.IntCompletesInItsRange : Prop :=
  encode .int = 0x00000006#32 ∧
  (∀ s : State, (s.operand0.extractLsb' 0 32).toInt ≤ (s.operand1.extractLsb' 0 32).toInt → ∃ v : Word,
    exec .int s = .next (completed s (nextRaw (started s)).2 (v.signExtend 64) 1#32) ∧
    v.toInt = (s.operand0.extractLsb' 0 32).toInt +
      ((nextRaw (started s)).1.toNat : Int) %
        ((s.operand1.extractLsb' 0 32).toInt - (s.operand0.extractLsb' 0 32).toInt + 1) ∧
    (s.operand0.extractLsb' 0 32).toInt ≤ v.toInt ∧ v.toInt ≤ (s.operand1.extractLsb' 0 32).toInt) ∧
  (∀ s : State, (s.operand1.extractLsb' 0 32).toInt < (s.operand0.extractLsb' 0 32).toInt →
    exec .int s = .next (failed s 1#4))

/-- R133: UINT with `min <= max` draws once and completes with `min + (r mod (max - min + 1))`, which lies in `[min,
max]`; over the full range it is the raw value; with `min > max` it fails with code 1, nothing drawn. -/
def Obligations.UintCompletesInItsRange : Prop :=
  encode .uint = 0x00000007#32 ∧
  (∀ s : State, (s.operand0.extractLsb' 0 32).toNat ≤ (s.operand1.extractLsb' 0 32).toNat → ∃ v : Word,
    exec .uint s = .next (completed s (nextRaw (started s)).2 (v.zeroExtend 64) 1#32) ∧
    v.toNat = (s.operand0.extractLsb' 0 32).toNat +
      (nextRaw (started s)).1.toNat % ((s.operand1.extractLsb' 0 32).toNat - (s.operand0.extractLsb' 0 32).toNat + 1) ∧
    (s.operand0.extractLsb' 0 32).toNat ≤ v.toNat ∧ v.toNat ≤ (s.operand1.extractLsb' 0 32).toNat ∧
    (s.operand0.extractLsb' 0 32 = 0#32 → s.operand1.extractLsb' 0 32 = 0xFFFFFFFF#32 → v = (nextRaw (started s)).1)) ∧
  (∀ s : State, (s.operand1.extractLsb' 0 32).toNat < (s.operand0.extractLsb' 0 32).toNat →
    exec .uint s = .next (failed s 1#4))

/-- R134: RUINT with `min < max` draws once and completes with `min + (r mod (max - min))`, which lies in `[min, max)`;
with `max <= min` it fails with code 1, nothing drawn. -/
def Obligations.RangedUintCompletesInItsRange : Prop :=
  encode .ruint = 0x00000008#32 ∧
  (∀ s : State, (s.operand0.extractLsb' 0 32).toNat < (s.operand1.extractLsb' 0 32).toNat → ∃ v : Word,
    exec .ruint s = .next (completed s (nextRaw (started s)).2 (v.zeroExtend 64) 1#32) ∧
    v.toNat = (s.operand0.extractLsb' 0 32).toNat +
      (nextRaw (started s)).1.toNat % ((s.operand1.extractLsb' 0 32).toNat - (s.operand0.extractLsb' 0 32).toNat) ∧
    (s.operand0.extractLsb' 0 32).toNat ≤ v.toNat ∧ v.toNat < (s.operand1.extractLsb' 0 32).toNat) ∧
  (∀ s : State, (s.operand1.extractLsb' 0 32).toNat ≤ (s.operand0.extractLsb' 0 32).toNat →
    exec .ruint s = .next (failed s 1#4))

/-- R135, R136, R137: BYTE, CHAR and ALNUM complete in every state with one draw: the raw value's low byte, the letter
at `r mod 26`, and the character at `r mod 62` of `A..Z a..z 0..9`. -/
def Obligations.ByteAndCharactersComplete : Prop :=
  encode .byte = 0x0000000B#32 ∧ encode .char = 0x0000000C#32 ∧ encode .alnum = 0x0000000D#32 ∧
  ∀ s : State, ∃ b c a : BitVec 64,
    exec .byte s = .next (completed s (nextRaw (started s)).2 b 1#32) ∧
    exec .char s = .next (completed s (nextRaw (started s)).2 c 1#32) ∧
    exec .alnum s = .next (completed s (nextRaw (started s)).2 a 1#32) ∧
    b.toNat = (nextRaw (started s)).1.toNat % 256 ∧
    c.toNat = 0x61 + (nextRaw (started s)).1.toNat % 26 ∧ c.toNat ≤ 0x7A ∧
    (let k := (nextRaw (started s)).1.toNat % 62
     (k < 26 → a.toNat = 0x41 + k) ∧ (26 ≤ k ∧ k < 52 → a.toNat = 0x61 + (k - 26)) ∧
       (52 ≤ k → a.toNat = 0x30 + (k - 52)))

/-! ### The float normalizer: spec/42_float_normalizer.md -/

/-- R153 and R155's scaling: `toF64(r) * 2^-32` is exact (in units of 2^-1074 it is `r * 2^1042`), is no NaN, has no
negative sign and lies below 1.0. -/
def Obligations.UnitDoubleIsExact : Prop :=
  ∀ r : Word, f64IsNan (unitF64 r) = false ∧ f64Sign (unitF64 r) = false ∧
    f64Scaled (unitF64 r) = (r.toNat : Int) * 2 ^ 1042 ∧ flt (unitF64 r) f64One = true

/-- R154: `toF32(r >> 8) * 2^-24` is exact: for a value below 256 the pattern is that of +0.0, and otherwise the
binary32 value of the pattern, in units of 2^-149, is `(r >> 8) * 2^125`; it lies below 1.0. -/
def Obligations.UnitSingleIsExact : Prop :=
  ∀ r : Word, (r.toNat < 256 → unitF32 r = 0#32) ∧
    (256 ≤ r.toNat →
      (2 ^ 23 + (unitF32 r).toNat % 2 ^ 23) * 2 ^ ((unitF32 r).toNat / 2 ^ 23 - 1) = (r.toNat / 256) * 2 ^ 125) ∧
    (unitF32 r).toNat < 0x3F800000

/-- R156 and R157: FLOAT and DOUBLE complete in every state with one draw: the binary32 pattern zero-extended, the
binary64 pattern as it is. -/
def Obligations.FloatAndDoubleComplete : Prop :=
  encode .float = 0x00000009#32 ∧ encode .double = 0x0000000A#32 ∧
  ∀ s : State,
    exec .float s = .next (completed s (nextRaw (started s)).2 ((unitF32 (nextRaw (started s)).1).zeroExtend 64) 1#32) ∧
    exec .double s = .next (completed s (nextRaw (started s)).2 (unitF64 (nextRaw (started s)).1) 1#32)

/-- R158: BOOL with `p` in [0.0, 1.0] (both zeros included, no NaN) draws once and answers 1 exactly when the uniform is
below `p`, that is when `r * 2^1042` is below `p` in units of 2^-1074; otherwise it fails with code 1, nothing drawn. -/
def Obligations.BoolThresholdIsExact : Prop :=
  encode .bool = 0x00000005#32 ∧
  (∀ s : State, f64IsNan s.operand0 = false → 0 ≤ f64Scaled s.operand0 → f64Scaled s.operand0 ≤ 2 ^ 1074 →
    exec .bool s = .next (completed s (nextRaw (started s)).2
      (if ((nextRaw (started s)).1.toNat : Int) * 2 ^ 1042 < f64Scaled s.operand0 then 1#64 else 0#64) 1#32)) ∧
  (∀ s : State, f64IsNan s.operand0 = true ∨ f64Scaled s.operand0 < 0 ∨ 2 ^ 1074 < f64Scaled s.operand0 →
    exec .bool s = .next (failed s 1#4))

/-- R151, round to nearest, ties to even: for finite operands `fadd`, `fsub`, `fmul` and `fdiv` answer the nearest value
to the exact sum, difference, product or quotient (in units of 2^-1074), with the sign of the exact result, of the
operands' signs where it is zero; and the cases with an infinity, a NaN or a zero divisor. What IEEE 754 asks is general
knowledge (log entry 12). -/
def Obligations.RoundingIsToNearestEven : Prop :=
  (∀ (negative : Bool) (n d : Nat), 0 < d → nearestEven (f64Round negative n d) negative n d) ∧
  (∀ x y : F64, f64Exponent x < 2047 → f64Exponent y < 2047 →
    (let sum := f64Scaled x + f64Scaled y
     nearestEven (fadd x y) (if sum = 0 then f64Sign x && f64Sign y else decide (sum < 0)) sum.natAbs 1) ∧
    (let difference := f64Scaled x - f64Scaled y
     nearestEven (fsub x y) (if difference = 0 then f64Sign x && !f64Sign y else decide (difference < 0))
       difference.natAbs 1) ∧
    nearestEven (fmul x y) (f64Sign x != f64Sign y) (f64Magnitude x * f64Magnitude y) (2 ^ 1074) ∧
    (0 < f64Magnitude y →
      nearestEven (fdiv x y) (f64Sign x != f64Sign y) (f64Magnitude x * 2 ^ 1074) (f64Magnitude y)) ∧
    (f64Magnitude y = 0 → 0 < f64Magnitude x → fdiv x y = f64Make (f64Sign x != f64Sign y) f64Inf.toNat) ∧
    (f64Magnitude y = 0 → f64Magnitude x = 0 → f64IsNan (fdiv x y) = true)) ∧
  (∀ x y : F64, f64IsNan x = true ∨ f64IsNan y = true →
    f64IsNan (fadd x y) = true ∧ f64IsNan (fsub x y) = true ∧ f64IsNan (fmul x y) = true ∧ f64IsNan (fdiv x y) = true) ∧
  (∀ x y : F64, f64IsInf x = true → f64IsNan y = false →
    (f64IsInf y = true ∧ f64Sign x ≠ f64Sign y → f64IsNan (fadd x y) = true) ∧
    (f64IsInf y = false ∨ f64Sign x = f64Sign y → fadd x y = x ∧ fadd y x = x) ∧
    (f64Exponent y < 2047 ∧ f64Magnitude y = 0 → f64IsNan (fmul x y) = true ∧ f64IsNan (fmul y x) = true) ∧
    (0 < f64Magnitude y → fmul x y = f64Make (f64Sign x != f64Sign y) f64Inf.toNat ∧
      fmul y x = f64Make (f64Sign y != f64Sign x) f64Inf.toNat) ∧
    (f64IsInf y = true → f64IsNan (fdiv x y) = true) ∧
    (f64IsInf y = false → fdiv x y = f64Make (f64Sign x != f64Sign y) f64Inf.toNat ∧
      fdiv y x = f64Make (f64Sign y != f64Sign x) 0))

/-- R151: every finite value, subnormals and both zeros included, rounds to itself, so an exact result is never
disturbed (log entry 12). -/
def Obligations.FiniteValuesRoundToThemselves : Prop :=
  ∀ x : F64, f64Exponent x < 2047 → f64Round (f64Sign x) (f64Magnitude x) 1 = x

/-- R151, `fsqrt`: the integer root under it is the exact one, rounded down; and for a finite positive operand the
answer `z` is the value nearest to the exact root, ties to even. (In units of 2^-1074 the root is `r` with `r * r = m`,
and `z` is as near to `r` as `y` when `r` is on its side of their midpoint: `4 * m <= (y + z)^2` for a larger `y`.) A
zero and +infinity answer themselves; any other negative operand and a NaN answer a NaN. What IEEE 754 asks is general
knowledge (log entry 12). -/
def Obligations.IntegerRootIsExact : Prop :=
  (∀ n : Nat, natSqrt n * natSqrt n ≤ n ∧ n < (natSqrt n + 1) * (natSqrt n + 1)) ∧
  (∀ x : F64, f64Sign x = false → f64Exponent x < 2047 → 0 < f64Magnitude x →
    let m := f64Magnitude x * 2 ^ 1074
    let z := f64Magnitude (fsqrt x)
    f64Sign (fsqrt x) = false ∧ f64Exponent (fsqrt x) < 2047 ∧
    ∀ w : F64, f64Exponent w < 2047 →
      let y := f64Magnitude w
      (z < y → 4 * m ≤ (y + z) * (y + z)) ∧ (y < z → (y + z) * (y + z) ≤ 4 * m) ∧
      ((y + z) * (y + z) = 4 * m → y ≠ z → (fsqrt x).getLsbD 0 = false)) ∧
  (∀ x : F64, f64Exponent x < 2047 → f64Magnitude x = 0 → fsqrt x = x) ∧
  fsqrt f64Inf = f64Inf ∧
  (∀ x : F64, f64IsNan x = true ∨ (f64Sign x = true ∧ 0 < f64Magnitude x) → f64IsNan (fsqrt x) = true)

/-- R152: what is written for a NaN result is a NaN encoding, whatever the free value `Config.nanPattern` is (log entry
11). -/
def Obligations.NanResultsAreNanEncodings : Prop :=
  ∀ (i : Instr) (operands : List F64) (v : F64),
    f64IsNan (fpNan i operands) = true ∧ (f64IsNan v = false → resultF64 i operands v = v) ∧
    (f64IsNan v = true → f64IsNan (resultF64 i operands v) = true)

/-! ### The distribution sampler and the fold: spec/43_distribution_sampler.md, spec/44_auxiliary.md -/

/-- The model's fuel for `unit_f64_open()` is exact (log entry 9, on R155 and R276): the resampling loop gives up only
where no later raw draw is non-zero either. -/
def Obligations.OpenUniformGivesUpOnlyOnEndlessZeros : Prop :=
  ∀ s : State, drawNonzero Config.openFuel s = none ↔ ∀ n, rawDraw s n = 0#32

/-- R171: NORMAL completes exactly when the raw stream has two non-zero values; with the first at draw `i` and the next
at draw `j` it draws `j + 1` times and writes the Box-Muller value of the two uniforms in R171's evaluation order, or a
NaN encoding. With fewer it is a hang (R276). The OPEN functions are the state's: nothing is known of them (log entry
10). -/
def Obligations.NormalCompletesOnTwoNonzeroDraws : Prop :=
  encode .normal = 0x0000000E#32 ∧
  (∀ (s : State) (i j : Nat), i < j → rawDraw (started s) i ≠ 0#32 → rawDraw (started s) j ≠ 0#32 →
    (∀ k, k < j → k ≠ i → rawDraw (started s) k = 0#32) →
    let u1 := unitF64 (rawDraw (started s) i)
    let u2 := unitF64 (rawDraw (started s) j)
    let v := fadd s.operand0
      (fmul (fmul s.operand1 (fsqrt (fmul 0xC000000000000000#64 (ln64 s u1)))) (cos64 s (fmul 0x401921FB54442D18#64 u2)))
    exec .normal s = .next (completed s (drawMany (j + 1) (started s))
      (if f64IsNan v then fpNan .normal [s.operand0, s.operand1] else v) (BitVec.ofNat 32 (j + 1)))) ∧
  (∀ (s : State) (i : Nat), (∀ k, k ≠ i → rawDraw (started s) k = 0#32) → exec .normal s = .fault .hang)

/-- R172: EXPON with `rate > 0.0` draws once and writes `-ln(1 - u) / rate`, or a NaN encoding; `1 - u` is exact. Any
other rate, zeros and NaNs included, fails with code 1, nothing drawn. -/
def Obligations.ExponCompletesForPositiveRates : Prop :=
  encode .expon = 0x0000000F#32 ∧
  (∀ s : State, f64IsNan s.operand0 = false → 0 < f64Scaled s.operand0 →
    let w := fsub f64One (unitF64 (nextRaw (started s)).1)
    let v := fdiv (fneg (ln64 s w)) s.operand0
    exec .expon s = .next (completed s (nextRaw (started s)).2
      (if f64IsNan v then fpNan .expon [s.operand0] else v) 1#32) ∧
    f64Scaled w = 2 ^ 1074 - ((nextRaw (started s)).1.toNat : Int) * 2 ^ 1042) ∧
  (∀ s : State, f64IsNan s.operand0 = true ∨ f64Scaled s.operand0 ≤ 0 → exec .expon s = .next (failed s 1#4))

/-- R173: POISSON with a finite mean `>= 0` that first finds a product not above `L` at iteration `n` completes there
with `n - 1`, LAST_DRAWS saturating (R36); a negative, infinite or NaN mean fails with code 1, nothing drawn. The bound
on `n` is the model's fuel (log entry 9). -/
def Obligations.PoissonCompletesAtItsFirstSmallProduct : Prop :=
  encode .poisson = 0x00000010#32 ∧
  (∀ (s : State) (n : Nat), f64IsNan s.operand0 = false → 0 ≤ f64Scaled s.operand0 → f64Exponent s.operand0 < 2047 →
    1 ≤ n → n ≤ 2 ^ 64 →
    (∀ k, 1 ≤ k → k < n → flt (exp64 s (fneg s.operand0)) (product (started s) k) = true) →
    flt (exp64 s (fneg s.operand0)) (product (started s) n) = false →
    exec .poisson s = .next (completed s (drawMany n (started s)) (BitVec.ofNat 64 (n - 1))
      (BitVec.ofNat 32 (min n 0xFFFFFFFF)))) ∧
  (∀ s : State, f64IsNan s.operand0 = true ∨ f64Scaled s.operand0 < 0 ∨ f64Exponent s.operand0 = 2047 →
    exec .poisson s = .next (failed s 1#4))

/-- R190: PSEUDO completes in every state with 32 draws, and its result is the exclusive-or of the raw values 32 NEXT
commands would return; words and index end as those 32 commands would leave them. -/
def Obligations.PseudoFoldsThirtyTwoDraws : Prop :=
  encode .pseudo = 0x00000011#32 ∧
  (∀ s : State, exec .pseudo s = .next (completed s (drawMany 32 (started s))
    (((List.range 32).foldl (fun acc k => acc ^^^ rawDraw (started s) k) 0#32).zeroExtend 64) 32#32)) ∧
  (∀ (s t : State) (u : Nat → State), exec .pseudo s = .next t → u 0 = s →
    (∀ k, k < 32 → exec .next (u k) = .next (u (k + 1))) →
    t.res = (List.range 32).foldl (fun acc k => acc ^^^ (u (k + 1)).res) 0#64 ∧ sameGenerator t (u 32))

/-! ### The whole machine and the host procedures -/

/-- Determinism and value semantics (R18): two states with the same generator, run on the same command and operands,
stop alike, or leave the same generator and, where the command completes, the same LAST_DRAWS, ERR, ERRCODE, and the
same RES where it writes one. -/
def Obligations.SameGeneratorSameResults : Prop :=
  ∀ (i : Instr) (s t : State), sameGenerator s t → sameOperands s t →
    (∀ s', exec i s = .next s' → ∃ t', exec i t = .next t' ∧ sameGenerator s' t' ∧
      (i ≠ .seedent ∨ (∃ e, s.port = .answered e) →
        s'.lastDraws = t'.lastDraws ∧ s'.err = t'.err ∧ s'.errCode = t'.errCode ∧
        (s'.err = false → i ≠ .seed → i ≠ .seedent → i ≠ .twist → s'.res = t'.res))) ∧
    (∀ f, exec i s = .fault f → exec i t = .fault f)

/-- R205: the output of `shuffle` is a permutation of its input, whatever indices were drawn. -/
def Obligations.ShuffleIsAPermutation : Prop :=
  ∀ (l : Latency) (values out : List Nat) (s t : State), shuffle l values s = .done out t → out.Perm values

/-- R208, of an idle block: with weights of the choices' number and an exact total from 1 to 0xFFFFFFFF,
`weighted_choice` draws once, never returns an entry of weight 0 and always finds one: the choice whose cumulative
weight is the first to exceed the draw `r mod total`, and the generator is left as one raw draw leaves it. Any other
weights are its own ArgumentError, with no command issued. (The length bound is R201's.) -/
def Obligations.WeightedChoiceFollowsTheCumulativeWeights : Prop :=
  ∀ (l : Latency) (choices : List Nat) (weights : List Word) (s : State),
    (s.inReset = false → s.busy = false → choices.length = weights.length → choices.length ≤ 0xFFFFFFFF →
      0 < weightTotal weights → weightTotal weights ≤ 0xFFFFFFFF →
      let d := (nextRaw (started s)).1.toNat % weightTotal weights
      ∃ (k : Nat) (c : Nat) (w : Word) (t : State), weightedChoice l choices weights s = .done (some c) t ∧
        choices[k]? = some c ∧ weights[k]? = some w ∧ w ≠ 0#32 ∧
        weightTotal (weights.take k) ≤ d ∧ d < weightTotal (weights.take (k + 1)) ∧
        t.busy = false ∧ sameGenerator t (nextRaw (started s)).2) ∧
    (choices.length ≠ weights.length ∨ 0xFFFFFFFF < choices.length ∨ weightTotal weights = 0 ∨
      0xFFFFFFFF < weightTotal weights → weightedChoice l choices weights s = .argumentError s)

/-- R220: cloning an idle legal instance into an idle one gives it the same generator, and the source keeps its own. -/
def Obligations.CloneCopiesTheGenerator : Prop :=
  ∀ a b : State, legal a = true → a.inReset = false → b.inReset = false → a.busy = false → b.busy = false →
    ∃ a' b', clone a b = .done a' b' ∧ sameGenerator a b' ∧ sameGenerator a a' ∧ b'.busy = false
end

