-- ==== Sys2Proof/Laws/Ram.lean ====
section
/-! SUPPORT. Read after write in the state RAM, and what the words of a seed, a twist and a reset are. -/

namespace Sys2Proof.Machine

theorem wordAt_mod (w : Ram) (i : Nat) : wordAt w (i % 624) = wordAt w i := by
  simp [wordAt]

theorem wordAt_setWord (w : Ram) (i j : Nat) (v : Word) :
    wordAt (setWord w i v) j = if i % 624 = j % 624 then v else wordAt w j := by
  simp [wordAt, setWord, Vector.getElem_set]

theorem wordAt_setWord_self (w : Ram) (i : Nat) (v : Word) : wordAt (setWord w i v) i = v := by
  simp [wordAt_setWord]

theorem wordAt_setWord_ne (w : Ram) {i j : Nat} (v : Word) (h : i % 624 ≠ j % 624) :
    wordAt (setWord w i v) j = wordAt w j := by
  simp [wordAt_setWord, h]

theorem wordAt_tabulate (f : Nat → Word) (i : Nat) : wordAt (tabulate f) i = f (i % 624) := by
  simp [wordAt, tabulate]

/-- Two RAMs with equal words are equal. -/
theorem ram_ext {w w' : Ram} (h : ∀ i < 624, wordAt w i = wordAt w' i) : w = w' := by
  apply Vector.ext
  intro i hi
  simpa [wordAt, Nat.mod_eq_of_lt hi] using h i hi

theorem wordAt_seedWords (v : Word) {i : Nat} (h : i < 624) : wordAt (seedWords v) i = seedWord v i := by
  rw [seedWords, wordAt_tabulate, Nat.mod_eq_of_lt h]

theorem wordAt_resetWords (n : Nat) {i : Nat} (h : i < 624) : wordAt (resetWords n) i = Config.resetWord n i := by
  rw [resetWords, wordAt_tabulate, Nat.mod_eq_of_lt h]

theorem twistWords_eq (m : Nat) (a : Word) (w : Ram) : twistWords m a w = twistTo m a w 624 := by
  rw [twistWords, Config.nWords]

/-- The positions at and above `n` are not yet written after `n` positions of the pass. -/
theorem wordAt_twistTo_above (m : Nat) (a : Word) (w : Ram) {n i : Nat} (hn : n ≤ i) (hi : i < 624) :
    wordAt (twistTo m a w n) i = wordAt w i := by
  induction n with
  | zero => rfl
  | succ n ih =>
    rw [twistTo, twistAt, wordAt_setWord_ne _ _ (by rw [Nat.mod_eq_of_lt hi, Nat.mod_eq_of_lt (by omega)]; omega)]
    exact ih (by omega)

/-- A position below `n` keeps the value its own update gave it. -/
theorem wordAt_twistTo_below (m : Nat) (a : Word) (w : Ram) {n i : Nat} (hi : i < n) (hn : n ≤ 624) :
    wordAt (twistTo m a w n) i = wordAt (twistTo m a w (i + 1)) i := by
  induction n with
  | zero => omega
  | succ n ih =>
    rcases Nat.lt_or_ge i n with h | h
    · rw [twistTo, twistAt, wordAt_setWord_ne _ _ (by rw [Nat.mod_eq_of_lt (by omega), Nat.mod_eq_of_lt (by omega)]; omega)]
      exact ih h (by omega)
    · rw [show i = n by omega]

end Sys2Proof.Machine
end

