-- ==== Sys2Proof/Laws/State.lean ====
section
/-! SUPPORT. One lemma per field per update of the state: what each shared operation leaves in each field. -/

namespace Sys2Proof.Machine

/-! ### operationOk -/

@[simp] theorem operationOk_words (s : State) : (operationOk s).words = s.words := rfl
@[simp] theorem operationOk_index (s : State) : (operationOk s).index = s.index := rfl
@[simp] theorem operationOk_cfgM (s : State) : (operationOk s).cfgM = s.cfgM := rfl
@[simp] theorem operationOk_cfgMatrixA (s : State) : (operationOk s).cfgMatrixA = s.cfgMatrixA := rfl
@[simp] theorem operationOk_arg0 (s : State) : (operationOk s).arg0 = s.arg0 := rfl
@[simp] theorem operationOk_arg1 (s : State) : (operationOk s).arg1 = s.arg1 := rfl
@[simp] theorem operationOk_res (s : State) : (operationOk s).res = s.res := rfl
@[simp] theorem operationOk_cmd (s : State) : (operationOk s).cmd = s.cmd := rfl
@[simp] theorem operationOk_lastDraws (s : State) : (operationOk s).lastDraws = s.lastDraws := rfl
@[simp] theorem operationOk_err (s : State) : (operationOk s).err = false := rfl
@[simp] theorem operationOk_errCode (s : State) : (operationOk s).errCode = 0#4 := rfl
@[simp] theorem operationOk_ovr (s : State) : (operationOk s).ovr = s.ovr := rfl
@[simp] theorem operationOk_seq (s : State) : (operationOk s).seq = s.seq := rfl
@[simp] theorem operationOk_operand0 (s : State) : (operationOk s).operand0 = s.operand0 := rfl
@[simp] theorem operationOk_operand1 (s : State) : (operationOk s).operand1 = s.operand1 := rfl
@[simp] theorem operationOk_draws (s : State) : (operationOk s).draws = s.draws := rfl
@[simp] theorem operationOk_port (s : State) : (operationOk s).port = s.port := rfl
@[simp] theorem operationOk_inReset (s : State) : (operationOk s).inReset = s.inReset := rfl
@[simp] theorem operationOk_bus (s : State) : (operationOk s).bus = s.bus := rfl
@[simp] theorem operationOk_free (s : State) : (operationOk s).free = s.free := rfl
@[simp] theorem operationOk_math (s : State) : (operationOk s).math = s.math := rfl
@[simp] theorem operationOk_inputs (s : State) : (operationOk s).inputs = s.inputs := rfl

/-! ### operationFailed -/

@[simp] theorem operationFailed_words (c : BitVec 4) (s : State) : (operationFailed c s).words = s.words := rfl
@[simp] theorem operationFailed_index (c : BitVec 4) (s : State) : (operationFailed c s).index = s.index := rfl
@[simp] theorem operationFailed_cfgM (c : BitVec 4) (s : State) : (operationFailed c s).cfgM = s.cfgM := rfl
@[simp] theorem operationFailed_cfgMatrixA (c : BitVec 4) (s : State) : (operationFailed c s).cfgMatrixA = s.cfgMatrixA := rfl
@[simp] theorem operationFailed_arg0 (c : BitVec 4) (s : State) : (operationFailed c s).arg0 = s.arg0 := rfl
@[simp] theorem operationFailed_arg1 (c : BitVec 4) (s : State) : (operationFailed c s).arg1 = s.arg1 := rfl
@[simp] theorem operationFailed_res (c : BitVec 4) (s : State) : (operationFailed c s).res = s.res := rfl
@[simp] theorem operationFailed_cmd (c : BitVec 4) (s : State) : (operationFailed c s).cmd = s.cmd := rfl
@[simp] theorem operationFailed_lastDraws (c : BitVec 4) (s : State) : (operationFailed c s).lastDraws = s.lastDraws := rfl
@[simp] theorem operationFailed_err (c : BitVec 4) (s : State) : (operationFailed c s).err = true := rfl
@[simp] theorem operationFailed_errCode (c : BitVec 4) (s : State) : (operationFailed c s).errCode = c := rfl
@[simp] theorem operationFailed_ovr (c : BitVec 4) (s : State) : (operationFailed c s).ovr = s.ovr := rfl
@[simp] theorem operationFailed_seq (c : BitVec 4) (s : State) : (operationFailed c s).seq = s.seq := rfl
@[simp] theorem operationFailed_operand0 (c : BitVec 4) (s : State) : (operationFailed c s).operand0 = s.operand0 := rfl
@[simp] theorem operationFailed_operand1 (c : BitVec 4) (s : State) : (operationFailed c s).operand1 = s.operand1 := rfl
@[simp] theorem operationFailed_draws (c : BitVec 4) (s : State) : (operationFailed c s).draws = s.draws := rfl
@[simp] theorem operationFailed_port (c : BitVec 4) (s : State) : (operationFailed c s).port = s.port := rfl
@[simp] theorem operationFailed_inReset (c : BitVec 4) (s : State) : (operationFailed c s).inReset = s.inReset := rfl
@[simp] theorem operationFailed_bus (c : BitVec 4) (s : State) : (operationFailed c s).bus = s.bus := rfl
@[simp] theorem operationFailed_free (c : BitVec 4) (s : State) : (operationFailed c s).free = s.free := rfl
@[simp] theorem operationFailed_math (c : BitVec 4) (s : State) : (operationFailed c s).math = s.math := rfl
@[simp] theorem operationFailed_inputs (c : BitVec 4) (s : State) : (operationFailed c s).inputs = s.inputs := rfl

/-! ### setOvr -/

@[simp] theorem setOvr_words (s : State) : (setOvr s).words = s.words := rfl
@[simp] theorem setOvr_index (s : State) : (setOvr s).index = s.index := rfl
@[simp] theorem setOvr_cfgM (s : State) : (setOvr s).cfgM = s.cfgM := rfl
@[simp] theorem setOvr_cfgMatrixA (s : State) : (setOvr s).cfgMatrixA = s.cfgMatrixA := rfl
@[simp] theorem setOvr_arg0 (s : State) : (setOvr s).arg0 = s.arg0 := rfl
@[simp] theorem setOvr_arg1 (s : State) : (setOvr s).arg1 = s.arg1 := rfl
@[simp] theorem setOvr_res (s : State) : (setOvr s).res = s.res := rfl
@[simp] theorem setOvr_cmd (s : State) : (setOvr s).cmd = s.cmd := rfl
@[simp] theorem setOvr_lastDraws (s : State) : (setOvr s).lastDraws = s.lastDraws := rfl
@[simp] theorem setOvr_err (s : State) : (setOvr s).err = s.err := rfl
@[simp] theorem setOvr_errCode (s : State) : (setOvr s).errCode = s.errCode := rfl
@[simp] theorem setOvr_ovr (s : State) : (setOvr s).ovr = true := rfl
@[simp] theorem setOvr_seq (s : State) : (setOvr s).seq = s.seq := rfl
@[simp] theorem setOvr_operand0 (s : State) : (setOvr s).operand0 = s.operand0 := rfl
@[simp] theorem setOvr_operand1 (s : State) : (setOvr s).operand1 = s.operand1 := rfl
@[simp] theorem setOvr_draws (s : State) : (setOvr s).draws = s.draws := rfl
@[simp] theorem setOvr_port (s : State) : (setOvr s).port = s.port := rfl
@[simp] theorem setOvr_inReset (s : State) : (setOvr s).inReset = s.inReset := rfl
@[simp] theorem setOvr_bus (s : State) : (setOvr s).bus = s.bus := rfl
@[simp] theorem setOvr_free (s : State) : (setOvr s).free = s.free := rfl
@[simp] theorem setOvr_math (s : State) : (setOvr s).math = s.math := rfl
@[simp] theorem setOvr_inputs (s : State) : (setOvr s).inputs = s.inputs := rfl

/-! ### writeStatus -/

@[simp] theorem writeStatus_words (v : Word) (s : State) : (writeStatus v s).words = s.words := rfl
@[simp] theorem writeStatus_index (v : Word) (s : State) : (writeStatus v s).index = s.index := rfl
@[simp] theorem writeStatus_cfgM (v : Word) (s : State) : (writeStatus v s).cfgM = s.cfgM := rfl
@[simp] theorem writeStatus_cfgMatrixA (v : Word) (s : State) : (writeStatus v s).cfgMatrixA = s.cfgMatrixA := rfl
@[simp] theorem writeStatus_arg0 (v : Word) (s : State) : (writeStatus v s).arg0 = s.arg0 := rfl
@[simp] theorem writeStatus_arg1 (v : Word) (s : State) : (writeStatus v s).arg1 = s.arg1 := rfl
@[simp] theorem writeStatus_res (v : Word) (s : State) : (writeStatus v s).res = s.res := rfl
@[simp] theorem writeStatus_cmd (v : Word) (s : State) : (writeStatus v s).cmd = s.cmd := rfl
@[simp] theorem writeStatus_lastDraws (v : Word) (s : State) : (writeStatus v s).lastDraws = s.lastDraws := rfl
@[simp] theorem writeStatus_err (v : Word) (s : State) : (writeStatus v s).err = s.err := rfl
@[simp] theorem writeStatus_errCode (v : Word) (s : State) : (writeStatus v s).errCode = s.errCode := rfl
@[simp] theorem writeStatus_ovr (v : Word) (s : State) : (writeStatus v s).ovr = (s.ovr && !v.getLsbD 8) := rfl
@[simp] theorem writeStatus_seq (v : Word) (s : State) : (writeStatus v s).seq = s.seq := rfl
@[simp] theorem writeStatus_operand0 (v : Word) (s : State) : (writeStatus v s).operand0 = s.operand0 := rfl
@[simp] theorem writeStatus_operand1 (v : Word) (s : State) : (writeStatus v s).operand1 = s.operand1 := rfl
@[simp] theorem writeStatus_draws (v : Word) (s : State) : (writeStatus v s).draws = s.draws := rfl
@[simp] theorem writeStatus_port (v : Word) (s : State) : (writeStatus v s).port = s.port := rfl
@[simp] theorem writeStatus_inReset (v : Word) (s : State) : (writeStatus v s).inReset = s.inReset := rfl
@[simp] theorem writeStatus_bus (v : Word) (s : State) : (writeStatus v s).bus = s.bus := rfl
@[simp] theorem writeStatus_free (v : Word) (s : State) : (writeStatus v s).free = s.free := rfl
@[simp] theorem writeStatus_math (v : Word) (s : State) : (writeStatus v s).math = s.math := rfl
@[simp] theorem writeStatus_inputs (v : Word) (s : State) : (writeStatus v s).inputs = s.inputs := rfl

/-! ### seed -/

@[simp] theorem seed_words (v : Word) (s : State) : (seed v s).words = seedWords v := rfl
@[simp] theorem seed_index (v : Word) (s : State) : (seed v s).index = 624#10 := rfl
@[simp] theorem seed_cfgM (v : Word) (s : State) : (seed v s).cfgM = s.cfgM := rfl
@[simp] theorem seed_cfgMatrixA (v : Word) (s : State) : (seed v s).cfgMatrixA = s.cfgMatrixA := rfl
@[simp] theorem seed_arg0 (v : Word) (s : State) : (seed v s).arg0 = s.arg0 := rfl
@[simp] theorem seed_arg1 (v : Word) (s : State) : (seed v s).arg1 = s.arg1 := rfl
@[simp] theorem seed_res (v : Word) (s : State) : (seed v s).res = s.res := rfl
@[simp] theorem seed_cmd (v : Word) (s : State) : (seed v s).cmd = s.cmd := rfl
@[simp] theorem seed_lastDraws (v : Word) (s : State) : (seed v s).lastDraws = s.lastDraws := rfl
@[simp] theorem seed_err (v : Word) (s : State) : (seed v s).err = s.err := rfl
@[simp] theorem seed_errCode (v : Word) (s : State) : (seed v s).errCode = s.errCode := rfl
@[simp] theorem seed_ovr (v : Word) (s : State) : (seed v s).ovr = s.ovr := rfl
@[simp] theorem seed_seq (v : Word) (s : State) : (seed v s).seq = s.seq := rfl
@[simp] theorem seed_operand0 (v : Word) (s : State) : (seed v s).operand0 = s.operand0 := rfl
@[simp] theorem seed_operand1 (v : Word) (s : State) : (seed v s).operand1 = s.operand1 := rfl
@[simp] theorem seed_draws (v : Word) (s : State) : (seed v s).draws = s.draws := rfl
@[simp] theorem seed_port (v : Word) (s : State) : (seed v s).port = s.port := rfl
@[simp] theorem seed_inReset (v : Word) (s : State) : (seed v s).inReset = s.inReset := rfl
@[simp] theorem seed_bus (v : Word) (s : State) : (seed v s).bus = s.bus := rfl
@[simp] theorem seed_free (v : Word) (s : State) : (seed v s).free = s.free := rfl
@[simp] theorem seed_math (v : Word) (s : State) : (seed v s).math = s.math := rfl
@[simp] theorem seed_inputs (v : Word) (s : State) : (seed v s).inputs = s.inputs := rfl

/-! ### twist -/

@[simp] theorem twist_words (s : State) : (twist s).words = twistWords s.cfgM.toNat s.cfgMatrixA s.words := rfl
@[simp] theorem twist_index (s : State) : (twist s).index = 0#10 := rfl
@[simp] theorem twist_cfgM (s : State) : (twist s).cfgM = s.cfgM := rfl
@[simp] theorem twist_cfgMatrixA (s : State) : (twist s).cfgMatrixA = s.cfgMatrixA := rfl
@[simp] theorem twist_arg0 (s : State) : (twist s).arg0 = s.arg0 := rfl
@[simp] theorem twist_arg1 (s : State) : (twist s).arg1 = s.arg1 := rfl
@[simp] theorem twist_res (s : State) : (twist s).res = s.res := rfl
@[simp] theorem twist_cmd (s : State) : (twist s).cmd = s.cmd := rfl
@[simp] theorem twist_lastDraws (s : State) : (twist s).lastDraws = s.lastDraws := rfl
@[simp] theorem twist_err (s : State) : (twist s).err = s.err := rfl
@[simp] theorem twist_errCode (s : State) : (twist s).errCode = s.errCode := rfl
@[simp] theorem twist_ovr (s : State) : (twist s).ovr = s.ovr := rfl
@[simp] theorem twist_seq (s : State) : (twist s).seq = s.seq := rfl
@[simp] theorem twist_operand0 (s : State) : (twist s).operand0 = s.operand0 := rfl
@[simp] theorem twist_operand1 (s : State) : (twist s).operand1 = s.operand1 := rfl
@[simp] theorem twist_draws (s : State) : (twist s).draws = s.draws := rfl
@[simp] theorem twist_port (s : State) : (twist s).port = s.port := rfl
@[simp] theorem twist_inReset (s : State) : (twist s).inReset = s.inReset := rfl
@[simp] theorem twist_bus (s : State) : (twist s).bus = s.bus := rfl
@[simp] theorem twist_free (s : State) : (twist s).free = s.free := rfl
@[simp] theorem twist_math (s : State) : (twist s).math = s.math := rfl
@[simp] theorem twist_inputs (s : State) : (twist s).inputs = s.inputs := rfl

/-! ### beginCommand -/

@[simp] theorem beginCommand_words (s : State) : (beginCommand s).words = s.words := rfl
@[simp] theorem beginCommand_index (s : State) : (beginCommand s).index = s.index := rfl
@[simp] theorem beginCommand_cfgM (s : State) : (beginCommand s).cfgM = s.cfgM := rfl
@[simp] theorem beginCommand_cfgMatrixA (s : State) : (beginCommand s).cfgMatrixA = s.cfgMatrixA := rfl
@[simp] theorem beginCommand_arg0 (s : State) : (beginCommand s).arg0 = s.arg0 := rfl
@[simp] theorem beginCommand_arg1 (s : State) : (beginCommand s).arg1 = s.arg1 := rfl
@[simp] theorem beginCommand_res (s : State) : (beginCommand s).res = s.res := rfl
@[simp] theorem beginCommand_cmd (s : State) : (beginCommand s).cmd = s.cmd := rfl
@[simp] theorem beginCommand_lastDraws (s : State) : (beginCommand s).lastDraws = s.lastDraws := rfl
@[simp] theorem beginCommand_err (s : State) : (beginCommand s).err = s.err := rfl
@[simp] theorem beginCommand_errCode (s : State) : (beginCommand s).errCode = s.errCode := rfl
@[simp] theorem beginCommand_ovr (s : State) : (beginCommand s).ovr = s.ovr := rfl
@[simp] theorem beginCommand_seq (s : State) : (beginCommand s).seq = s.seq := rfl
@[simp] theorem beginCommand_operand0 (s : State) : (beginCommand s).operand0 = s.operand0 := rfl
@[simp] theorem beginCommand_operand1 (s : State) : (beginCommand s).operand1 = s.operand1 := rfl
@[simp] theorem beginCommand_draws (s : State) : (beginCommand s).draws = 0 := rfl
@[simp] theorem beginCommand_port (s : State) : (beginCommand s).port = s.port := rfl
@[simp] theorem beginCommand_inReset (s : State) : (beginCommand s).inReset = s.inReset := rfl
@[simp] theorem beginCommand_bus (s : State) : (beginCommand s).bus = s.bus := rfl
@[simp] theorem beginCommand_free (s : State) : (beginCommand s).free = s.free := rfl
@[simp] theorem beginCommand_math (s : State) : (beginCommand s).math = s.math := rfl
@[simp] theorem beginCommand_inputs (s : State) : (beginCommand s).inputs = s.inputs := rfl

/-! ### goIdle -/

@[simp] theorem goIdle_words (s : State) : (goIdle s).words = s.words := rfl
@[simp] theorem goIdle_index (s : State) : (goIdle s).index = s.index := rfl
@[simp] theorem goIdle_cfgM (s : State) : (goIdle s).cfgM = s.cfgM := rfl
@[simp] theorem goIdle_cfgMatrixA (s : State) : (goIdle s).cfgMatrixA = s.cfgMatrixA := rfl
@[simp] theorem goIdle_arg0 (s : State) : (goIdle s).arg0 = s.arg0 := rfl
@[simp] theorem goIdle_arg1 (s : State) : (goIdle s).arg1 = s.arg1 := rfl
@[simp] theorem goIdle_res (s : State) : (goIdle s).res = s.res := rfl
@[simp] theorem goIdle_cmd (s : State) : (goIdle s).cmd = s.cmd := rfl
@[simp] theorem goIdle_lastDraws (s : State) : (goIdle s).lastDraws = s.lastDraws := rfl
@[simp] theorem goIdle_err (s : State) : (goIdle s).err = s.err := rfl
@[simp] theorem goIdle_errCode (s : State) : (goIdle s).errCode = s.errCode := rfl
@[simp] theorem goIdle_ovr (s : State) : (goIdle s).ovr = s.ovr := rfl
@[simp] theorem goIdle_seq (s : State) : (goIdle s).seq = .idle := rfl
@[simp] theorem goIdle_operand0 (s : State) : (goIdle s).operand0 = s.operand0 := rfl
@[simp] theorem goIdle_operand1 (s : State) : (goIdle s).operand1 = s.operand1 := rfl
@[simp] theorem goIdle_draws (s : State) : (goIdle s).draws = s.draws := rfl
@[simp] theorem goIdle_port (s : State) : (goIdle s).port = .quiet := rfl
@[simp] theorem goIdle_inReset (s : State) : (goIdle s).inReset = s.inReset := rfl
@[simp] theorem goIdle_bus (s : State) : (goIdle s).bus = s.bus := rfl
@[simp] theorem goIdle_free (s : State) : (goIdle s).free = s.free := rfl
@[simp] theorem goIdle_math (s : State) : (goIdle s).math = s.math := rfl
@[simp] theorem goIdle_inputs (s : State) : (goIdle s).inputs = s.inputs := rfl

/-! ### completeOk -/

@[simp] theorem completeOk_words (s : State) : (completeOk s).words = s.words := rfl
@[simp] theorem completeOk_index (s : State) : (completeOk s).index = s.index := rfl
@[simp] theorem completeOk_cfgM (s : State) : (completeOk s).cfgM = s.cfgM := rfl
@[simp] theorem completeOk_cfgMatrixA (s : State) : (completeOk s).cfgMatrixA = s.cfgMatrixA := rfl
@[simp] theorem completeOk_arg0 (s : State) : (completeOk s).arg0 = s.arg0 := rfl
@[simp] theorem completeOk_arg1 (s : State) : (completeOk s).arg1 = s.arg1 := rfl
@[simp] theorem completeOk_res (s : State) : (completeOk s).res = s.res := rfl
@[simp] theorem completeOk_cmd (s : State) : (completeOk s).cmd = s.cmd := rfl
@[simp] theorem completeOk_lastDraws (s : State) : (completeOk s).lastDraws = saturate s.draws := rfl
@[simp] theorem completeOk_err (s : State) : (completeOk s).err = false := rfl
@[simp] theorem completeOk_errCode (s : State) : (completeOk s).errCode = 0#4 := rfl
@[simp] theorem completeOk_ovr (s : State) : (completeOk s).ovr = s.ovr := rfl
@[simp] theorem completeOk_seq (s : State) : (completeOk s).seq = .idle := rfl
@[simp] theorem completeOk_operand0 (s : State) : (completeOk s).operand0 = s.operand0 := rfl
@[simp] theorem completeOk_operand1 (s : State) : (completeOk s).operand1 = s.operand1 := rfl
@[simp] theorem completeOk_draws (s : State) : (completeOk s).draws = s.draws := rfl
@[simp] theorem completeOk_port (s : State) : (completeOk s).port = .quiet := rfl
@[simp] theorem completeOk_inReset (s : State) : (completeOk s).inReset = s.inReset := rfl
@[simp] theorem completeOk_bus (s : State) : (completeOk s).bus = s.bus := rfl
@[simp] theorem completeOk_free (s : State) : (completeOk s).free = s.free := rfl
@[simp] theorem completeOk_math (s : State) : (completeOk s).math = s.math := rfl
@[simp] theorem completeOk_inputs (s : State) : (completeOk s).inputs = s.inputs := rfl

/-! ### completeValue -/

@[simp] theorem completeValue_words (v : Dword) (s : State) : (completeValue v s).words = s.words := rfl
@[simp] theorem completeValue_index (v : Dword) (s : State) : (completeValue v s).index = s.index := rfl
@[simp] theorem completeValue_cfgM (v : Dword) (s : State) : (completeValue v s).cfgM = s.cfgM := rfl
@[simp] theorem completeValue_cfgMatrixA (v : Dword) (s : State) : (completeValue v s).cfgMatrixA = s.cfgMatrixA := rfl
@[simp] theorem completeValue_arg0 (v : Dword) (s : State) : (completeValue v s).arg0 = s.arg0 := rfl
@[simp] theorem completeValue_arg1 (v : Dword) (s : State) : (completeValue v s).arg1 = s.arg1 := rfl
@[simp] theorem completeValue_res (v : Dword) (s : State) : (completeValue v s).res = v := rfl
@[simp] theorem completeValue_cmd (v : Dword) (s : State) : (completeValue v s).cmd = s.cmd := rfl
@[simp] theorem completeValue_lastDraws (v : Dword) (s : State) : (completeValue v s).lastDraws = saturate s.draws := rfl
@[simp] theorem completeValue_err (v : Dword) (s : State) : (completeValue v s).err = false := rfl
@[simp] theorem completeValue_errCode (v : Dword) (s : State) : (completeValue v s).errCode = 0#4 := rfl
@[simp] theorem completeValue_ovr (v : Dword) (s : State) : (completeValue v s).ovr = s.ovr := rfl
@[simp] theorem completeValue_seq (v : Dword) (s : State) : (completeValue v s).seq = .idle := rfl
@[simp] theorem completeValue_operand0 (v : Dword) (s : State) : (completeValue v s).operand0 = s.operand0 := rfl
@[simp] theorem completeValue_operand1 (v : Dword) (s : State) : (completeValue v s).operand1 = s.operand1 := rfl
@[simp] theorem completeValue_draws (v : Dword) (s : State) : (completeValue v s).draws = s.draws := rfl
@[simp] theorem completeValue_port (v : Dword) (s : State) : (completeValue v s).port = .quiet := rfl
@[simp] theorem completeValue_inReset (v : Dword) (s : State) : (completeValue v s).inReset = s.inReset := rfl
@[simp] theorem completeValue_bus (v : Dword) (s : State) : (completeValue v s).bus = s.bus := rfl
@[simp] theorem completeValue_free (v : Dword) (s : State) : (completeValue v s).free = s.free := rfl
@[simp] theorem completeValue_math (v : Dword) (s : State) : (completeValue v s).math = s.math := rfl
@[simp] theorem completeValue_inputs (v : Dword) (s : State) : (completeValue v s).inputs = s.inputs := rfl

/-! ### completeError -/

@[simp] theorem completeError_words (c : BitVec 4) (s : State) : (completeError c s).words = s.words := rfl
@[simp] theorem completeError_index (c : BitVec 4) (s : State) : (completeError c s).index = s.index := rfl
@[simp] theorem completeError_cfgM (c : BitVec 4) (s : State) : (completeError c s).cfgM = s.cfgM := rfl
@[simp] theorem completeError_cfgMatrixA (c : BitVec 4) (s : State) : (completeError c s).cfgMatrixA = s.cfgMatrixA := rfl
@[simp] theorem completeError_arg0 (c : BitVec 4) (s : State) : (completeError c s).arg0 = s.arg0 := rfl
@[simp] theorem completeError_arg1 (c : BitVec 4) (s : State) : (completeError c s).arg1 = s.arg1 := rfl
@[simp] theorem completeError_res (c : BitVec 4) (s : State) : (completeError c s).res = s.res := rfl
@[simp] theorem completeError_cmd (c : BitVec 4) (s : State) : (completeError c s).cmd = s.cmd := rfl
@[simp] theorem completeError_lastDraws (c : BitVec 4) (s : State) : (completeError c s).lastDraws = 0#32 := rfl
@[simp] theorem completeError_err (c : BitVec 4) (s : State) : (completeError c s).err = true := rfl
@[simp] theorem completeError_errCode (c : BitVec 4) (s : State) : (completeError c s).errCode = c := rfl
@[simp] theorem completeError_ovr (c : BitVec 4) (s : State) : (completeError c s).ovr = s.ovr := rfl
@[simp] theorem completeError_seq (c : BitVec 4) (s : State) : (completeError c s).seq = .idle := rfl
@[simp] theorem completeError_operand0 (c : BitVec 4) (s : State) : (completeError c s).operand0 = s.operand0 := rfl
@[simp] theorem completeError_operand1 (c : BitVec 4) (s : State) : (completeError c s).operand1 = s.operand1 := rfl
@[simp] theorem completeError_draws (c : BitVec 4) (s : State) : (completeError c s).draws = 0 := rfl
@[simp] theorem completeError_port (c : BitVec 4) (s : State) : (completeError c s).port = .quiet := rfl
@[simp] theorem completeError_inReset (c : BitVec 4) (s : State) : (completeError c s).inReset = s.inReset := rfl
@[simp] theorem completeError_bus (c : BitVec 4) (s : State) : (completeError c s).bus = s.bus := rfl
@[simp] theorem completeError_free (c : BitVec 4) (s : State) : (completeError c s).free = s.free := rfl
@[simp] theorem completeError_math (c : BitVec 4) (s : State) : (completeError c s).math = s.math := rfl
@[simp] theorem completeError_inputs (c : BitVec 4) (s : State) : (completeError c s).inputs = s.inputs := rfl

/-! ### accept -/

@[simp] theorem accept_words (c : Word) (s : State) : (accept c s).words = s.words := rfl
@[simp] theorem accept_index (c : Word) (s : State) : (accept c s).index = s.index := rfl
@[simp] theorem accept_cfgM (c : Word) (s : State) : (accept c s).cfgM = s.cfgM := rfl
@[simp] theorem accept_cfgMatrixA (c : Word) (s : State) : (accept c s).cfgMatrixA = s.cfgMatrixA := rfl
@[simp] theorem accept_arg0 (c : Word) (s : State) : (accept c s).arg0 = s.arg0 := rfl
@[simp] theorem accept_arg1 (c : Word) (s : State) : (accept c s).arg1 = s.arg1 := rfl
@[simp] theorem accept_res (c : Word) (s : State) : (accept c s).res = s.res := rfl
@[simp] theorem accept_cmd (c : Word) (s : State) : (accept c s).cmd = c := rfl
@[simp] theorem accept_lastDraws (c : Word) (s : State) : (accept c s).lastDraws = s.lastDraws := rfl
@[simp] theorem accept_err (c : Word) (s : State) : (accept c s).err = s.err := rfl
@[simp] theorem accept_errCode (c : Word) (s : State) : (accept c s).errCode = s.errCode := rfl
@[simp] theorem accept_ovr (c : Word) (s : State) : (accept c s).ovr = s.ovr := rfl
@[simp] theorem accept_seq (c : Word) (s : State) : (accept c s).seq = .busy c := rfl
@[simp] theorem accept_operand0 (c : Word) (s : State) : (accept c s).operand0 = s.arg0 := rfl
@[simp] theorem accept_operand1 (c : Word) (s : State) : (accept c s).operand1 = s.arg1 := rfl
@[simp] theorem accept_draws (c : Word) (s : State) : (accept c s).draws = s.draws := rfl
@[simp] theorem accept_port (c : Word) (s : State) : (accept c s).port = requestOf c := rfl
@[simp] theorem accept_inReset (c : Word) (s : State) : (accept c s).inReset = s.inReset := rfl
@[simp] theorem accept_bus (c : Word) (s : State) : (accept c s).bus = s.bus := rfl
@[simp] theorem accept_free (c : Word) (s : State) : (accept c s).free = s.free := rfl
@[simp] theorem accept_math (c : Word) (s : State) : (accept c s).math = s.math := rfl
@[simp] theorem accept_inputs (c : Word) (s : State) : (accept c s).inputs = s.inputs := rfl

/-! ### assertReset -/

@[simp] theorem assertReset_words (s : State) : (assertReset s).words = resetWords s.free := rfl
@[simp] theorem assertReset_index (s : State) : (assertReset s).index = Config.sentinel := rfl
@[simp] theorem assertReset_cfgM (s : State) : (assertReset s).cfgM = Config.canonicalM := rfl
@[simp] theorem assertReset_cfgMatrixA (s : State) : (assertReset s).cfgMatrixA = Config.canonicalMatrixA := rfl
@[simp] theorem assertReset_arg0 (s : State) : (assertReset s).arg0 = 0#64 := rfl
@[simp] theorem assertReset_arg1 (s : State) : (assertReset s).arg1 = 0#64 := rfl
@[simp] theorem assertReset_res (s : State) : (assertReset s).res = 0#64 := rfl
@[simp] theorem assertReset_cmd (s : State) : (assertReset s).cmd = 0#32 := rfl
@[simp] theorem assertReset_lastDraws (s : State) : (assertReset s).lastDraws = 0#32 := rfl
@[simp] theorem assertReset_err (s : State) : (assertReset s).err = false := rfl
@[simp] theorem assertReset_errCode (s : State) : (assertReset s).errCode = 0#4 := rfl
@[simp] theorem assertReset_ovr (s : State) : (assertReset s).ovr = false := rfl
@[simp] theorem assertReset_seq (s : State) : (assertReset s).seq = .idle := rfl
@[simp] theorem assertReset_operand0 (s : State) : (assertReset s).operand0 = 0#64 := rfl
@[simp] theorem assertReset_operand1 (s : State) : (assertReset s).operand1 = 0#64 := rfl
@[simp] theorem assertReset_draws (s : State) : (assertReset s).draws = 0 := rfl
@[simp] theorem assertReset_port (s : State) : (assertReset s).port = .quiet := rfl
@[simp] theorem assertReset_inReset (s : State) : (assertReset s).inReset = true := rfl
@[simp] theorem assertReset_bus (s : State) : (assertReset s).bus = .none := rfl
@[simp] theorem assertReset_free (s : State) : (assertReset s).free = s.free + 1 := rfl
@[simp] theorem assertReset_math (s : State) : (assertReset s).math = s.math := rfl
@[simp] theorem assertReset_inputs (s : State) : (assertReset s).inputs = s.inputs := rfl

/-! ### releaseReset -/

@[simp] theorem releaseReset_words (s : State) : (releaseReset s).words = s.words := rfl
@[simp] theorem releaseReset_index (s : State) : (releaseReset s).index = s.index := rfl
@[simp] theorem releaseReset_cfgM (s : State) : (releaseReset s).cfgM = s.cfgM := rfl
@[simp] theorem releaseReset_cfgMatrixA (s : State) : (releaseReset s).cfgMatrixA = s.cfgMatrixA := rfl
@[simp] theorem releaseReset_arg0 (s : State) : (releaseReset s).arg0 = s.arg0 := rfl
@[simp] theorem releaseReset_arg1 (s : State) : (releaseReset s).arg1 = s.arg1 := rfl
@[simp] theorem releaseReset_res (s : State) : (releaseReset s).res = s.res := rfl
@[simp] theorem releaseReset_cmd (s : State) : (releaseReset s).cmd = s.cmd := rfl
@[simp] theorem releaseReset_lastDraws (s : State) : (releaseReset s).lastDraws = s.lastDraws := rfl
@[simp] theorem releaseReset_err (s : State) : (releaseReset s).err = s.err := rfl
@[simp] theorem releaseReset_errCode (s : State) : (releaseReset s).errCode = s.errCode := rfl
@[simp] theorem releaseReset_ovr (s : State) : (releaseReset s).ovr = s.ovr := rfl
@[simp] theorem releaseReset_seq (s : State) : (releaseReset s).seq = s.seq := rfl
@[simp] theorem releaseReset_operand0 (s : State) : (releaseReset s).operand0 = s.operand0 := rfl
@[simp] theorem releaseReset_operand1 (s : State) : (releaseReset s).operand1 = s.operand1 := rfl
@[simp] theorem releaseReset_draws (s : State) : (releaseReset s).draws = s.draws := rfl
@[simp] theorem releaseReset_port (s : State) : (releaseReset s).port = s.port := rfl
@[simp] theorem releaseReset_inReset (s : State) : (releaseReset s).inReset = false := rfl
@[simp] theorem releaseReset_bus (s : State) : (releaseReset s).bus = s.bus := rfl
@[simp] theorem releaseReset_free (s : State) : (releaseReset s).free = s.free := rfl
@[simp] theorem releaseReset_math (s : State) : (releaseReset s).math = s.math := rfl
@[simp] theorem releaseReset_inputs (s : State) : (releaseReset s).inputs = s.inputs := rfl

end Sys2Proof.Machine
end

