-- ==== Sys2Proof/Laws/Draws.lean ====
section
/-! SUPPORT. Everything a raw draw can do: its value, its cursor, and the fields it leaves alone. -/

namespace Sys2Proof.Machine

/-- `t` is `s` with nothing changed but `words`, `index` and `draws`. -/
def DrewFrom (s t : State) : Prop := ∃ w n d, t = { s with words := w, index := n, draws := d }

theorem DrewFrom.refl (s : State) : DrewFrom s s := ⟨s.words, s.index, s.draws, rfl⟩

theorem DrewFrom.trans {s t u : State} (h : DrewFrom s t) (h' : DrewFrom t u) : DrewFrom s u := by
  obtain ⟨_, _, _, rfl⟩ := h
  obtain ⟨w, n, d, rfl⟩ := h'
  exact ⟨w, n, d, rfl⟩

/-- The frame with the fields named: every other field is that of `s`. -/
theorem DrewFrom.eq {s t : State} (h : DrewFrom s t) :
    t = { s with words := t.words, index := t.index, draws := t.draws } := by
  obtain ⟨_, _, _, rfl⟩ := h
  rfl

theorem drewFrom_beginCommand (s : State) : DrewFrom s (beginCommand s) := ⟨s.words, s.index, 0, rfl⟩

theorem drewFrom_seed (v : Word) (s : State) : DrewFrom s (seed v s) := ⟨seedWords v, 624#10, s.draws, rfl⟩

theorem drewFrom_twist (s : State) : DrewFrom s (twist s) := ⟨(twist s).words, 0#10, s.draws, rfl⟩

theorem drewFrom_ensureSeeded (s : State) : DrewFrom s (ensureSeeded s) := by
  unfold ensureSeeded
  split
  · exact drewFrom_seed _ s
  · exact .refl s

theorem drewFrom_refill (s : State) : DrewFrom s (refill s) := by
  unfold refill
  split
  · exact (drewFrom_ensureSeeded s).trans (drewFrom_twist _)
  · exact .refl s

theorem ensureSeeded_sentinel {s : State} (h : s.index = Config.sentinel) : ensureSeeded s = seed Config.defaultSeed s := by
  simp [ensureSeeded, h]

theorem ensureSeeded_seeded {s : State} (h : s.index ≠ Config.sentinel) : ensureSeeded s = s := by
  simp [ensureSeeded, h]

theorem ensureSeeded_draws (s : State) : (ensureSeeded s).draws = s.draws := by
  unfold ensureSeeded
  split <;> rfl

theorem refill_draws (s : State) : (refill s).draws = s.draws := by
  unfold refill
  split
  · rw [twist_draws, ensureSeeded_draws]
  · rfl

/-- Below 624 nothing is refilled. -/
theorem refill_below {s : State} (h : s.index.toNat < 624) : refill s = s := by
  simp [refill, Nat.not_le.mpr h]

/-- At 624 one twist precedes the read. -/
theorem refill_at {s : State} (h : s.index = 624#10) : refill s = twist s := by
  simp [refill, ensureSeeded, h, Config.sentinel]

/-- At the sentinel the default seed and one twist precede the read. -/
theorem refill_sentinel {s : State} (h : s.index = Config.sentinel) :
    refill s = twist (seed Config.defaultSeed s) := by
  simp [refill, ensureSeeded, h, Config.sentinel]

/-- After a refill the cursor names a word. -/
theorem refill_index_lt (s : State) : (refill s).index.toNat < 624 := by
  unfold refill
  split
  · simp
  · omega

/-- A raw draw writes `words`, `index` and `draws` only. -/
theorem drewFrom_nextRaw (s : State) : DrewFrom s (nextRaw s).2 := by
  refine (drewFrom_refill s).trans ⟨(refill s).words, (refill s).index + 1#10, (refill s).draws + 1, rfl⟩

theorem nextRaw_words (s : State) : (nextRaw s).2.words = (refill s).words := rfl

theorem nextRaw_value (s : State) : (nextRaw s).1 = temper (wordAt (refill s).words (refill s).index.toNat) := rfl

/-- "draws <- draws + 1" (R110). -/
theorem nextRaw_draws (s : State) : (nextRaw s).2.draws = s.draws + 1 := by
  rw [← refill_draws s]; rfl

/-- The cursor a raw draw leaves. -/
theorem nextRaw_index (s : State) : (nextRaw s).2.index.toNat = (refill s).index.toNat + 1 := by
  have h := refill_index_lt s
  simp only [nextRaw, BitVec.toNat_add, BitVec.toNat_ofNat]
  omega

/-- "After the call, `index` is in 1..624" (R110). -/
theorem nextRaw_index_range (s : State) :
    1 ≤ (nextRaw s).2.index.toNat ∧ (nextRaw s).2.index.toNat ≤ 624 := by
  have h := refill_index_lt s
  rw [nextRaw_index]
  omega

/-- Consecutive draws write `words`, `index` and `draws` only. -/
theorem drewFrom_xorDraws (n : Nat) (acc : Word) (s : State) : DrewFrom s (xorDraws n acc s).2 := by
  induction n generalizing acc s with
  | zero => exact .refl s
  | succ n ih => exact (drewFrom_nextRaw s).trans (ih _ _)

theorem xorDraws_draws (n : Nat) (acc : Word) (s : State) : (xorDraws n acc s).2.draws = s.draws + n := by
  induction n generalizing acc s with
  | zero => rfl
  | succ n ih => rw [xorDraws, ih, nextRaw_draws]; omega

theorem xorDraws_index_le (n : Nat) (acc : Word) (s : State) : (xorDraws (n + 1) acc s).2.index.toNat ≤ 624 := by
  induction n generalizing acc s with
  | zero => exact (nextRaw_index_range s).2
  | succ n ih => rw [xorDraws]; exact ih _ _

/-- What the resampling loop of R155 can answer: a non-zero value, with only `words`, `index` and `draws` changed and a
cursor in 1..624. -/
theorem drawNonzero_some {n : Nat} {s : State} {d : Word × State} (h : drawNonzero n s = some d) :
    d.1 ≠ 0#32 ∧ DrewFrom s d.2 ∧ 1 ≤ d.2.index.toNat ∧ d.2.index.toNat ≤ 624 := by
  induction n generalizing s with
  | zero => simp [drawNonzero] at h
  | succ n ih =>
    rw [drawNonzero] at h
    split at h
    · obtain ⟨h1, h2, h3⟩ := ih h
      exact ⟨h1, (drewFrom_nextRaw s).trans h2, h3⟩
    · obtain rfl := Option.some.inj h
      exact ⟨‹_›, drewFrom_nextRaw s, nextRaw_index_range s⟩

/-- A completion that answers a value, written out field by field. -/
theorem completeValue_eq (v : Dword) (s : State) :
    completeValue v s =
      { s with res := v, lastDraws := saturate s.draws, err := false, errCode := 0#4, seq := .idle, port := .quiet } := rfl

/-- A completion without a value, written out field by field. -/
theorem completeOk_eq (s : State) :
    completeOk s =
      { s with lastDraws := saturate s.draws, err := false, errCode := 0#4, seq := .idle, port := .quiet } := rfl

/-- A failed completion, written out field by field. -/
theorem completeError_eq (c : BitVec 4) (s : State) :
    completeError c s =
      { s with lastDraws := 0#32, draws := 0, err := true, errCode := c, seq := .idle, port := .quiet } := rfl

theorem saturate_toNat (n : Nat) : (saturate n).toNat = min n 0xFFFFFFFF := by
  simp [saturate]

end Sys2Proof.Machine
end

