-- ==== Sys2Proof/Laws/Exec.lean ====
section
/-! SUPPORT. Everything a command, a bus access and a step can do, said once: provers cite these instead of unfolding. -/

namespace Sys2Proof.Machine

/-- `s` after a successful completion that left these generator fields, this count and this result. -/
def doneWith (s : State) (w : Ram) (n : Cursor) (d : Nat) (r : Dword) : State :=
  completeOk { s with words := w, index := n, draws := d, res := r }

theorem completeValue_of_drewFrom {s g : State} (v : Dword) (h : DrewFrom s g) :
    completeValue v g = doneWith s g.words g.index g.draws v := by
  obtain ⟨_, _, _, rfl⟩ := h
  rfl

theorem completeOk_of_drewFrom {s g : State} (h : DrewFrom s g) :
    completeOk g = doneWith s g.words g.index g.draws s.res := by
  obtain ⟨_, _, _, rfl⟩ := h
  rfl

/-- The loop of R173 changes only what raw draws change, and ends with a cursor in 1..624. -/
theorem poissonLoop_some {limit : F64} {n : Nat} {k : Dword} {p : F64} {s : State} {r : Dword × State}
    (h : poissonLoop limit n k p s = some r) : DrewFrom s r.2 ∧ r.2.index.toNat ≤ 624 := by
  induction n generalizing k p s with
  | zero => simp [poissonLoop] at h
  | succ n ih =>
    rw [poissonLoop] at h
    split at h
    · obtain ⟨h1, h2⟩ := ih h
      exact ⟨(drewFrom_nextRaw s).trans h1, h2⟩
    · obtain rfl := Option.some.inj h
      exact ⟨drewFrom_nextRaw s, (nextRaw_index_range s).2⟩

/-- A command that answers a next state waits, fails with ArgumentError, or completes: nothing but the generator, the
count, the result, the flags and the sequencer changes, and the cursor stays legal. -/
theorem exec_next {i : Instr} {s t : State} (h : exec i s = .next t) :
    (i = .seedent ∧ t = s) ∨ t = completeError argumentError s ∨
      ∃ w n d r, n.toNat ≤ 624 ∧ t = doneWith s w n d r := by
  have begun := drewFrom_beginCommand s
  have drew : ∀ (v : Dword) (g : State), DrewFrom (beginCommand s) g → g.index.toNat ≤ 624 →
      ∃ w n d r, n.toNat ≤ 624 ∧ completeValue v g = doneWith s w n d r :=
    fun v g hg hi => ⟨_, _, _, _, hi, completeValue_of_drewFrom v (begun.trans hg)⟩
  have one : ∀ v, (∃ w n d r, n.toNat ≤ 624 ∧ completeValue v (nextRaw (beginCommand s)).2 = doneWith s w n d r) :=
    fun v => drew v _ (drewFrom_nextRaw _) (nextRaw_index_range _).2
  have tw : ∃ w n d r, n.toNat ≤ 624 ∧ completeOk (twist (ensureSeeded (beginCommand s))) = doneWith s w n d r :=
    ⟨_, _, _, _, by simp, completeOk_of_drewFrom ((begun.trans (drewFrom_ensureSeeded _)).trans (drewFrom_twist _))⟩
  cases i <;> simp only [exec] at h
  case seed =>
    simp only [execSeed, Host.Outcome.next.injEq] at h
    exact .inr (.inr ⟨_, 624#10, 0, s.res, by decide, h.symm⟩)
  case seedent =>
    simp only [execSeedent] at h
    split at h <;> simp only [Host.Outcome.next.injEq] at h
    · exact .inr (.inr ⟨_, 624#10, 0, s.res, by decide, h.symm⟩)
    · exact .inl ⟨rfl, h.symm⟩
    · exact .inl ⟨rfl, h.symm⟩
  case twist =>
    simp only [execTwist, Host.Outcome.next.injEq] at h
    exact .inr (.inr (h ▸ tw))
  case next =>
    simp only [execNext, Host.Outcome.next.injEq] at h
    exact .inr (.inr (h ▸ one _))
  case bool =>
    simp only [execBool] at h
    split at h <;> simp only [Host.Outcome.next.injEq] at h
    · exact .inr (.inr (h ▸ one _))
    · exact .inr (.inl h.symm)
  case int =>
    simp only [execInt, mapRange] at h
    split at h <;> simp only [Host.Outcome.next.injEq] at h
    · exact .inr (.inl h.symm)
    · exact .inr (.inr (h ▸ one _))
  case uint =>
    simp only [execUint, mapRange] at h
    split at h <;> simp only [Host.Outcome.next.injEq] at h
    · exact .inr (.inl h.symm)
    · exact .inr (.inr (h ▸ one _))
  case ruint =>
    simp only [execRuint, mapRange] at h
    split at h <;> simp only [Host.Outcome.next.injEq] at h
    · exact .inr (.inl h.symm)
    · exact .inr (.inr (h ▸ one _))
  case float =>
    simp only [execFloat, Host.Outcome.next.injEq] at h
    exact .inr (.inr (h ▸ one _))
  case double =>
    simp only [execDouble, Host.Outcome.next.injEq] at h
    exact .inr (.inr (h ▸ one _))
  case byte =>
    simp only [execByte, Host.Outcome.next.injEq] at h
    exact .inr (.inr (h ▸ one _))
  case char =>
    simp only [execChar, mapRange, Host.Outcome.next.injEq] at h
    exact .inr (.inr (h ▸ one _))
  case alnum =>
    simp only [execAlnum, mapRange, Host.Outcome.next.injEq] at h
    exact .inr (.inr (h ▸ one _))
  case normal =>
    simp only [execNormal] at h
    split at h
    · simp at h
    · rename_i d1 h1
      split at h
      · simp at h
      · rename_i d2 h2
        simp only [Host.Outcome.next.injEq] at h
        obtain ⟨-, f1, -⟩ := drawNonzero_some h1
        obtain ⟨-, f2, -, g2⟩ := drawNonzero_some h2
        exact .inr (.inr (h ▸ drew _ _ (f1.trans f2) g2))
  case expon =>
    simp only [execExpon] at h
    split at h <;> simp only [Host.Outcome.next.injEq] at h
    · exact .inr (.inr (h ▸ one _))
    · exact .inr (.inl h.symm)
  case poisson =>
    simp only [execPoisson] at h
    split at h
    · split at h
      · simp at h
      · rename_i r hr
        simp only [Host.Outcome.next.injEq] at h
        obtain ⟨f, g⟩ := poissonLoop_some hr
        exact .inr (.inr (h ▸ drew _ _ f g))
    · simp only [Host.Outcome.next.injEq] at h
      exact .inr (.inl h.symm)
  case pseudo =>
    simp only [execPseudo, Host.Outcome.next.injEq] at h
    exact .inr (.inr (h ▸ drew _ _ (drewFrom_xorDraws _ _ _) (xorDraws_index_le 31 _ _)))

/-- What the engine's move can do. -/
theorem engineStep_next {s t : State} (h : engineStep s = .next t) :
    t = s ∨ (s.inReset = false ∧ ∃ c, s.seq = .busy c ∧
      (t = completeError illegalCommand s ∨ t = completeError argumentError s ∨
        ∃ w n d r, n.toNat ≤ 624 ∧ t = doneWith s w n d r)) := by
  unfold engineStep at h
  split at h
  · exact .inl (by simpa using h.symm)
  · rename_i hr
    split at h
    · exact .inl (by simpa using h.symm)
    · rename_i c hc
      unfold completeCommand at h
      split at h
      · exact .inr ⟨by simpa using hr, c, hc, .inl (by simpa using h.symm)⟩
      · rcases exec_next h with ⟨-, h⟩ | h | h
        · exact .inl h
        · exact .inr ⟨by simpa using hr, c, hc, .inr (.inl h)⟩
        · exact .inr ⟨by simpa using hr, c, hc, .inr (.inr h)⟩

/-- A served read changes the bus record and the free counter only. -/
theorem busRead_frame (r : Reg) (s : State) : ∃ b n, busRead r s = { s with bus := b, free := n } := by
  unfold busRead
  split
  · exact ⟨_, _, rfl⟩
  · exact ⟨_, s.free, rfl⟩

/-- A served write while busy, to anything but `STATUS`. -/
theorem busWrite_busy {r : Reg} {s : State} (v : Word) (hb : s.busy = true) (hr : r ≠ .status) :
    busWrite r v s = { s with ovr := true, bus := .ack } := by
  simp [busWrite, hb, hr, setOvr]

/-- A served write while idle, or to `STATUS`. -/
theorem busWrite_taken {r : Reg} {s : State} (v : Word) (h : s.busy = false ∨ r = .status) :
    busWrite r v s = { writeReg r v s with bus := .ack } := by
  rcases h with h | h <;> simp [busWrite, h]

/-- What a host access that is answered can do. -/
theorem hostAccess_next {a : Access} {s t : State} (h : hostAccess a s = .next t) :
    ∃ r, a.target = some r ∧
      ((∃ w o, a = .read w o ∧ t = busRead r s) ∨ (∃ w o v, a = .write w o v ∧ t = busWrite r v s)) := by
  unfold hostAccess at h
  split at h
  · simp at h
  · rename_i r hr
    refine ⟨r, hr, ?_⟩
    split at h
    · exact .inl ⟨_, _, rfl, by simpa using h.symm⟩
    · exact .inr ⟨_, _, _, rfl, by simpa using h.symm⟩

/-- What an event that is answered can do. -/
theorem perform_next {ev : Event} {s t : State} (h : perform ev s = .next t) :
    (∃ a, ev = .host a ∧ ((s.inReset = true ∧ t = { s with bus := .none }) ∨ (s.inReset = false ∧ hostAccess a s = .next t))) ∨
    (ev = .engine ∧ engineStep s = .next t) ∨ (∃ e, ev = .entropy e ∧ t = answerEntropy e s) ∨
    (ev = .resetAssert ∧ t = assertReset s) ∨ (ev = .resetRelease ∧ t = releaseReset s) := by
  unfold perform at h
  split at h
  · rename_i a
    refine .inl ⟨a, rfl, ?_⟩
    split at h
    · exact .inl ⟨‹_›, by simpa using h.symm⟩
    · rename_i hr
      exact .inr ⟨by simpa using hr, h⟩
  · simp at h
  · exact .inr (.inl ⟨rfl, h⟩)
  · exact .inr (.inr (.inl ⟨_, rfl, by simpa using h.symm⟩))
  · exact .inr (.inr (.inr (.inl ⟨rfl, by simpa using h.symm⟩)))
  · exact .inr (.inr (.inr (.inr ⟨rfl, by simpa using h.symm⟩)))

/-- A step is the first input's event, or the engine's move. -/
theorem step_cases (s : State) :
    (s.inputs = [] ∧ step s = engineStep s) ∨
      ∃ ev rest, s.inputs = ev :: rest ∧ step s = perform ev { s with inputs := rest } := by
  unfold step agentStep
  split
  · exact .inl ⟨‹_›, rfl⟩
  · exact .inr ⟨_, _, ‹_›, rfl⟩

end Sys2Proof.Machine
end

