-- ==== Sys2Proof/Laws/Bus.lean ====
section
/-! SUPPORT. The register map read in both directions, and the four forms a served access takes. -/

namespace Sys2Proof.Machine

theorem mem_of_lookup {α β : Type} [BEq α] [LawfulBEq α] {o : α} {r : β} {l : List (α × β)} (h : l.lookup o = some r) :
    (o, r) ∈ l := by
  induction l with
  | nil => simp at h
  | cons p l ih =>
    obtain ⟨k, v⟩ := p
    rw [List.lookup_cons] at h
    split at h
    · rename_i hk
      obtain rfl := Option.some.inj h
      rw [eq_of_beq hk]
      exact List.mem_cons_self
    · exact List.mem_cons_of_mem _ (ih h)

/-- `RD REG` outside reset is the served read. -/
theorem perform_rd {r : Reg} {s : State} (hr : regAt r.offset = some r) (h : s.inReset = false) :
    perform (.host (rd r)) s = .next (busRead r s) := by
  simp [perform, h, hostAccess, rd, Access.target, hr]

/-- `WR REG, v` outside reset is the served write. -/
theorem perform_wr {r : Reg} {v : Word} {s : State} (hr : regAt r.offset = some r) (h : s.inReset = false) :
    perform (.host (wr r v)) s = .next (busWrite r v s) := by
  simp [perform, h, hostAccess, wr, Access.target, hr]

/-- A validated write to a hardwired register, in both cases (R28, R31, R32). -/
theorem writeHardwired_eq (canonical v : Word) (s : State) :
    writeHardwired canonical v s =
      if v = canonical then { s with err := false, errCode := 0#4 } else { s with err := true, errCode := 2#4 } := rfl

/-- An idle sequencer is what `BUSY = 0` says (R25). -/
theorem seq_of_not_busy {s : State} (h : s.busy = false) : s.seq = .idle := by
  unfold State.busy at h
  split at h
  · assumption
  · simp at h

end Sys2Proof.Machine
end

