-- ==== Sys2Proof/Laws/Float.lean ====
section
/-! SUPPORT. What the pieces of the binary64 arithmetic are: the fields of a pattern, the value an encoding stands for,
the exact and the nearest quotient, and the integer root. -/

namespace Sys2Proof.Machine

theorem f64Fraction_lt (x : F64) : f64Fraction x < 2 ^ 52 := (x.extractLsb' 0 52).isLt

theorem f64Exponent_lt (x : F64) : f64Exponent x < 2 ^ 11 := (x.extractLsb' 52 11).isLt

theorem f64IsNan_of_finite {x : F64} (h : f64Exponent x < 2047) : f64IsNan x = false := by
  simp only [f64IsNan, Bool.and_eq_false_iff, decide_eq_false_iff_not]
  exact .inl (by omega)

theorem f64IsInf_of_finite {x : F64} (h : f64Exponent x < 2047) : f64IsInf x = false := by
  simp only [f64IsInf, Bool.and_eq_false_iff, decide_eq_false_iff_not]
  exact .inl (by omega)

/-- The fields of a pattern without a sign. -/
theorem f64Exponent_ofNat {B : Nat} (h : B < 2 ^ 63) : f64Exponent (BitVec.ofNat 64 B) = B / 2 ^ 52 := by
  simp only [f64Exponent, BitVec.extractLsb'_toNat, BitVec.toNat_ofNat, Nat.shiftRight_eq_div_pow]
  omega

theorem f64Fraction_ofNat (B : Nat) : f64Fraction (BitVec.ofNat 64 B) = B % 2 ^ 52 := by
  simp only [f64Fraction, BitVec.extractLsb'_toNat, BitVec.toNat_ofNat, Nat.shiftRight_eq_div_pow]
  omega

theorem f64Sign_ofNat {B : Nat} (h : B < 2 ^ 63) : f64Sign (BitVec.ofNat 64 B) = false := by
  simp only [f64Sign, BitVec.getLsbD_ofNat, Nat.testBit_eq_decide_div_mod_eq, Bool.and_eq_false_iff,
    decide_eq_false_iff_not]
  exact .inr (by omega)

/-- A finite magnitude is a significand below 2^53 times a power of two, normal unless the power is 1. -/
theorem f64Magnitude_form (y : F64) :
    ∃ z j, f64Magnitude y = z * 2 ^ j ∧ z < 2 ^ 53 ∧ j = f64Exponent y - 1 ∧ (j = 0 ∨ 2 ^ 52 ≤ z) := by
  have := f64Fraction_lt y
  unfold f64Magnitude
  split
  · exact ⟨f64Fraction y, 0, by rw [pow_zero, Nat.mul_one], by omega, by omega, .inl rfl⟩
  · exact ⟨2 ^ 52 + f64Fraction y, f64Exponent y - 1, rfl, by omega, rfl, .inr (by omega)⟩

/-- The magnitude that the exponent of the last place `k` and the significand `q` encode (`q` may be the next power of
two). -/
theorem f64Magnitude_encoded {k q : Nat} (hk : k < 2046) (hq : q ≤ 2 ^ 53) (h : k = 0 ∨ 2 ^ 52 ≤ q) :
    f64Magnitude (BitVec.ofNat 64 (k * 2 ^ 52 + q)) = q * 2 ^ k := by
  have hB : k * 2 ^ 52 + q < 2 ^ 63 := by omega
  unfold f64Magnitude
  rw [f64Exponent_ofNat hB, f64Fraction_ofNat]
  rcases Nat.lt_or_ge q (2 ^ 52) with h1 | h1
  · obtain rfl : k = 0 := by omega
    rw [if_pos (by omega)]
    omega
  · rcases Nat.lt_or_ge q (2 ^ 53) with h2 | h2
    · have e1 : (k * 2 ^ 52 + q) / 2 ^ 52 = k + 1 := by omega
      have e2 : (k * 2 ^ 52 + q) % 2 ^ 52 = q - 2 ^ 52 := by omega
      have e3 : 2 ^ 52 + (q - 2 ^ 52) = q := by omega
      rw [e1, e2, if_neg (by omega), e3, Nat.add_sub_cancel]
    · obtain rfl : q = 2 ^ 53 := by omega
      have e1 : (k * 2 ^ 52 + 2 ^ 53) / 2 ^ 52 = k + 2 := by omega
      have e2 : (k * 2 ^ 52 + 2 ^ 53) % 2 ^ 52 = 0 := by omega
      rw [e1, e2, if_neg (by omega), show k + 2 - 1 = k + 1 by omega, pow_succ]
      ring

/-- `fneg` flips the sign and nothing else (R14). -/
theorem f64Exponent_fneg (x : F64) : f64Exponent (fneg x) = f64Exponent x := by
  unfold f64Exponent fneg
  rw [BitVec.extractLsb'_xor, show f64SignBit.extractLsb' 52 11 = 0#11 by decide, BitVec.xor_zero]

theorem f64Fraction_fneg (x : F64) : f64Fraction (fneg x) = f64Fraction x := by
  unfold f64Fraction fneg
  rw [BitVec.extractLsb'_xor, show f64SignBit.extractLsb' 0 52 = 0#52 by decide, BitVec.xor_zero]

theorem f64Sign_fneg (x : F64) : f64Sign (fneg x) = !f64Sign x := by
  unfold f64Sign fneg
  rw [BitVec.getLsbD_xor, show f64SignBit.getLsbD 63 = true by decide, Bool.xor_true]

theorem f64Scaled_fneg (x : F64) : f64Scaled (fneg x) = -f64Scaled x := by
  unfold f64Scaled f64Magnitude
  rw [f64Exponent_fneg, f64Fraction_fneg, f64Sign_fneg]
  cases f64Sign x <;> simp

theorem f64Scaled_one : f64Scaled f64One = 2 ^ 1074 := by decide +kernel

theorem f64Scaled_zero : f64Scaled f64Zero = 0 := by decide +kernel

/-- A quotient that is whole is not rounded. -/
theorem roundQuotient_exact (q : Nat) {D : Nat} (h : 0 < D) : roundQuotient (q * D) D = q := by
  unfold roundQuotient
  rw [Nat.mul_mod_left, Nat.mul_div_cancel _ h, if_neg (by omega)]

theorem le_roundQuotient {n D z : Nat} (hD : 0 < D) (h : z * D ≤ n) : z ≤ roundQuotient n D := by
  have : z ≤ n / D := (Nat.le_div_iff_mul_le hD).2 h
  unfold roundQuotient
  split <;> omega

theorem roundQuotient_le {n D z : Nat} (hD : 0 < D) (h : n < z * D) : roundQuotient n D ≤ z := by
  have : n / D < z := (Nat.div_lt_iff_lt_mul hD).2 h
  unfold roundQuotient
  split <;> omega

/-- No integer is nearer to `n / D` than the rounded quotient, and one that is as near leaves it even. -/
theorem roundQuotient_nearest (n D z : Nat) (hD : 0 < D) :
    ((n : Int) - D * roundQuotient n D).natAbs ≤ ((n : Int) - D * z).natAbs ∧
    (((n : Int) - D * roundQuotient n D).natAbs = ((n : Int) - D * z).natAbs → z ≠ roundQuotient n D →
      roundQuotient n D % 2 = 0) := by
  have h1 := Nat.div_add_mod n D
  have h2 := Nat.mod_lt n hD
  unfold roundQuotient
  generalize n / D = q at *
  generalize n % D = r at *
  have hn : (n : Int) = D * q + r := by exact_mod_cast h1.symm
  have low : z ≤ q → z = q ∨ (n : Int) - D * z ≥ D + r := by
    intro h
    by_cases hz : z = q
    · exact .inl hz
    · have : (D : Int) * (z + 1) ≤ D * q := Int.mul_le_mul_of_nonneg_left (by omega) (by omega)
      exact .inr (by rw [hn]; linarith)
  have high : q + 1 ≤ z → (D : Int) * z - n ≥ D - r ∧ (z ≠ q + 1 → (D : Int) * z - n ≥ 2 * D - r) := by
    intro h
    have : (D : Int) * (q + 1) ≤ D * z := Int.mul_le_mul_of_nonneg_left (by omega) (by omega)
    refine ⟨by rw [hn]; linarith, fun hz => ?_⟩
    have : (D : Int) * (q + 2) ≤ D * z := Int.mul_le_mul_of_nonneg_left (by omega) (by omega)
    rw [hn]
    linarith
  have here : (n : Int) - D * (q : Nat) = r := by rw [hn]; ring
  have above : (n : Int) - D * ((q + 1 : Nat) : Int) = r - D := by rw [hn]; push_cast; ring
  have flip : (D : Int) * z - n = -((n : Int) - D * z) := by ring
  rw [flip] at high
  split
  · rw [above]
    rcases Nat.lt_or_ge q z with h | h
    · obtain ⟨a, b⟩ := high h
      exact ⟨by omega, fun e hne => by have := b hne; omega⟩
    · rcases low h with rfl | a
      · exact ⟨by omega, fun e hne => by omega⟩
      · exact ⟨by omega, fun e hne => by omega⟩
  · rw [here]
    rcases Nat.lt_or_ge q z with h | h
    · obtain ⟨a, b⟩ := high h
      refine ⟨by omega, fun e hne => ?_⟩
      by_cases hz : z = q + 1
      · subst hz; omega
      · have := b hz; omega
    · rcases low h with rfl | a
      · exact ⟨by rw [here], fun e hne => absurd rfl hne⟩
      · exact ⟨by omega, fun e hne => by omega⟩

/-- The exponent of the last place keeps the quotient below 2^53, and at or above 2^52 unless it is 0. -/
theorem lastPlace_bounds (v : Nat) :
    v < 2 ^ 53 * 2 ^ (Nat.log2 v - 52) ∧ (Nat.log2 v - 52 = 0 ∨ 2 ^ 52 * 2 ^ (Nat.log2 v - 52) ≤ v) := by
  by_cases hv : v = 0
  · subst hv
    exact ⟨by simp, .inl (by simp)⟩
  have h1 := Nat.lt_log2_self (n := v)
  have h2 := Nat.log2_self_le hv
  constructor
  · refine lt_of_lt_of_le h1 ?_
    rw [← pow_add]
    exact Nat.pow_le_pow_right (by omega) (by omega)
  · by_cases hk : Nat.log2 v - 52 = 0
    · exact .inl hk
    · refine .inr (le_trans ?_ h2)
      rw [← pow_add]
      exact Nat.pow_le_pow_right (by omega) (by omega)

/-- An exact value of at most 53 significant bits is encoded as it is. -/
theorem roundMagnitude_exact {a b d m : Nat} (hd : 0 < d) (ha : a < 2 ^ 53) (hm : m = a * 2 ^ b) (hlt : m < 2 ^ 2098) :
    ∃ k q, k < 2046 ∧ q < 2 ^ 53 ∧ (k = 0 ∨ 2 ^ 52 ≤ q) ∧ m = q * 2 ^ k ∧
      roundMagnitude 52 f64Inf.toNat (m * d) d = k * 2 ^ 52 + q := by
  have kb := lastPlace_bounds m
  have hk : Nat.log2 m - 52 < 2046 := by
    by_cases h0 : m = 0
    · subst h0; simp
    have := (Nat.log2_lt h0).2 hlt
    omega
  have hq : m / 2 ^ (Nat.log2 m - 52) < 2 ^ 53 := (Nat.div_lt_iff_lt_mul (Nat.two_pow_pos _)).2 kb.1
  have hdvd : 2 ^ (Nat.log2 m - 52) ∣ m := by
    by_cases hkb : Nat.log2 m - 52 ≤ b
    · rw [hm]
      exact Dvd.dvd.mul_left (pow_dvd_pow 2 (by rw [← hm]; exact hkb)) a
    · exfalso
      have h2 : 2 ^ 52 * 2 ^ (Nat.log2 m - 52) ≤ m := kb.2.resolve_left (by omega)
      have h3 : m < 2 ^ 53 * 2 ^ b := by rw [hm]; exact Nat.mul_lt_mul_of_pos_right ha (Nat.two_pow_pos _)
      have h4 : 2 ^ (b + 1) ≤ 2 ^ (Nat.log2 m - 52) := Nat.pow_le_pow_right (by omega) (by omega)
      rw [pow_succ] at h4
      omega
  refine ⟨Nat.log2 m - 52, m / 2 ^ (Nat.log2 m - 52), hk, hq, ?_, (Nat.div_mul_cancel hdvd).symm, ?_⟩
  · exact kb.2.imp_right fun h => (Nat.le_div_iff_mul_le (Nat.two_pow_pos _)).2 h
  · have split : m * d = m / 2 ^ (Nat.log2 m - 52) * (d * 2 ^ (Nat.log2 m - 52)) := by
      conv_lhs => rw [← Nat.div_mul_cancel hdvd]
      ring
    unfold roundMagnitude
    rw [Nat.mul_div_cancel _ hd]
    simp only []
    rw [split, roundQuotient_exact _ (Nat.mul_pos hd (Nat.two_pow_pos _))]
    apply min_eq_right
    show _ ≤ 0x7FF0000000000000
    generalize m / 2 ^ (Nat.log2 m - 52) = q at *
    omega

/-- The pattern of an exact value of at most 53 significant bits has that value. -/
theorem f64Round_exact {a b d m : Nat} (hd : 0 < d) (ha : a < 2 ^ 53) (hm : m = a * 2 ^ b) (hlt : m < 2 ^ 2098) :
    f64Magnitude (f64Round false (m * d) d) = m ∧ f64Sign (f64Round false (m * d) d) = false ∧
      f64Exponent (f64Round false (m * d) d) < 2047 := by
  obtain ⟨k, q, hk, hq, h1, h2, h3⟩ := roundMagnitude_exact hd ha hm hlt
  have h : f64Round false (m * d) d = BitVec.ofNat 64 (k * 2 ^ 52 + q) := by
    rw [f64Round, f64Make, h3, if_neg Bool.false_ne_true]
  rw [h]
  refine ⟨by rw [f64Magnitude_encoded hk (by omega) h1, h2], f64Sign_ofNat (by omega), ?_⟩
  rw [f64Exponent_ofNat (by omega)]
  omega

/-- The loop of the integer root keeps the root between its part and the part plus the bits to come. -/
theorem sqrtBits_spec (n : Nat) {b r : Nat} (h1 : r * r ≤ n) (h2 : n < (r + 2 ^ b) * (r + 2 ^ b)) :
    sqrtBits n b r * sqrtBits n b r ≤ n ∧ n < (sqrtBits n b r + 1) * (sqrtBits n b r + 1) := by
  induction b generalizing r with
  | zero => exact ⟨h1, by simpa [sqrtBits] using h2⟩
  | succ b ih =>
    rw [sqrtBits]
    apply ih
    · split
      · assumption
      · exact h1
    · split
      · rw [pow_succ] at h2
        rw [show r + 2 ^ b + 2 ^ b = r + 2 ^ b * 2 by ring]
        exact h2
      · omega

end Sys2Proof.Machine
end

