-- ==== Sys2Proof/Laws/PerInstr.lean ====
section
/-! SUPPORT. Facts about every command as syntax, one lemma per constructor. -/

namespace Sys2Proof.Laws.CommandWord

/-- The command word has `RSVD = 0` and an assigned `OPC` (R70, R74). -/
def Statement (i : Instr) : Prop :=
  i.wellFormed = true ∧ rsvdField (encode i) = 0#24 ∧ opcField (encode i) = i.opc ∧ 1 ≤ i.opc.toNat ∧ i.opc.toNat ≤ 0x11

theorem seed : Statement .seed := by unfold Statement; decide
theorem seedent : Statement .seedent := by unfold Statement; decide
theorem twist : Statement .twist := by unfold Statement; decide
theorem next : Statement .next := by unfold Statement; decide
theorem bool : Statement .bool := by unfold Statement; decide
theorem int : Statement .int := by unfold Statement; decide
theorem uint : Statement .uint := by unfold Statement; decide
theorem ruint : Statement .ruint := by unfold Statement; decide
theorem float : Statement .float := by unfold Statement; decide
theorem double : Statement .double := by unfold Statement; decide
theorem byte : Statement .byte := by unfold Statement; decide
theorem char : Statement .char := by unfold Statement; decide
theorem alnum : Statement .alnum := by unfold Statement; decide
theorem normal : Statement .normal := by unfold Statement; decide
theorem expon : Statement .expon := by unfold Statement; decide
theorem poisson : Statement .poisson := by unfold Statement; decide
theorem pseudo : Statement .pseudo := by unfold Statement; decide

end Sys2Proof.Laws.CommandWord
end

