-- ==== Sys2Proof/Laws/Platform.lean ====
section
/-! SUPPORT. What an event of the platform can do to the blocks placed on it: at most one of them moves, by one event of
its own, and no window is moved. -/

namespace Sys2Proof.Machine

theorem replaceBlock_next {p : PlacedBlock} {rest qs : List PlacedBlock} {o : Host.Outcome State Fault Refusal}
    (h : replaceBlock p rest o = .next qs) : ∃ t, o = .next t ∧ qs = { p with block := t } :: rest := by
  unfold replaceBlock at h
  split at h
  · exact ⟨_, rfl, (Host.Outcome.next.inj h).symm⟩
  · exact absurd h (by simp)
  · exact absurd h (by simp)

theorem keepBlock_next {p : PlacedBlock} {qs : List PlacedBlock} {o : Host.Outcome (List PlacedBlock) Fault Refusal}
    (h : keepBlock p o = .next qs) : ∃ ps, o = .next ps ∧ qs = p :: ps := by
  unfold keepBlock at h
  split at h
  · exact ⟨_, rfl, (Host.Outcome.next.inj h).symm⟩
  · exact absurd h (by simp)
  · exact absurd h (by simp)

/-- A host access answered on the platform reached one block, at the offset of its address in that block's window. -/
theorem accessPlatform_next {a : Access} {ps qs : List PlacedBlock} (h : accessPlatform a ps = .next qs) :
    ∃ before p after b t, ps = before ++ p :: after ∧ a.relative p.base = some b ∧
      perform (.host b) p.block = .next t ∧ qs = before ++ { p with block := t } :: after := by
  induction ps generalizing qs with
  | nil => exact absurd h (by simp [accessPlatform])
  | cons p rest ih =>
    unfold accessPlatform at h
    split at h
    · obtain ⟨t, ht, rfl⟩ := replaceBlock_next h
      exact ⟨[], p, rest, _, t, rfl, ‹_›, ht, rfl⟩
    · obtain ⟨rs, hrs, rfl⟩ := keepBlock_next h
      obtain ⟨before, q, after, b, t, rfl, hb, ht, rfl⟩ := ih hrs
      exact ⟨p :: before, q, after, b, t, rfl, hb, ht, rfl⟩

/-- A move of an agent of one block moves that block, or no block where the platform lacks it. -/
theorem moveBlock_next {ev : Event} {k : Nat} {ps qs : List PlacedBlock} (h : moveBlock ev k ps = .next qs) :
    (ps.length ≤ k ∧ qs = ps) ∨
    ∃ before p after t, ps = before ++ p :: after ∧ before.length = k ∧ perform ev p.block = .next t ∧
      qs = before ++ { p with block := t } :: after := by
  induction ps generalizing k qs with
  | nil => exact .inl ⟨Nat.zero_le _, by simpa [moveBlock] using h.symm⟩
  | cons p rest ih =>
    cases k with
    | zero =>
      obtain ⟨t, ht, rfl⟩ := replaceBlock_next h
      exact .inr ⟨[], p, rest, t, rfl, rfl, ht, rfl⟩
    | succ k =>
      obtain ⟨rs, hrs, rfl⟩ := keepBlock_next h
      obtain ⟨hk, rfl⟩ | ⟨before, q, after, t, rfl, rfl, ht, rfl⟩ := ih hrs
      · exact .inl ⟨Nat.succ_le_succ hk, rfl⟩
      · exact .inr ⟨p :: before, q, after, t, rfl, rfl, ht, rfl⟩

/-- "Several instances ... share no state" (R59): an event of the platform changes at most one block, by one event of
that block, and leaves every other block and every window as they were. -/
theorem performPlatform_next {ev : PlatformEvent} {ps qs : List PlacedBlock} (h : performPlatform ev ps = .next qs) :
    qs = ps ∨ ∃ before p after e t, ps = before ++ p :: after ∧ perform e p.block = .next t ∧
      qs = before ++ { p with block := t } :: after := by
  unfold performPlatform at h
  split at h
  · split at h
    · obtain ⟨before, p, after, b, t, hp, -, ht, hq⟩ := accessPlatform_next h
      exact .inr ⟨before, p, after, _, t, hp, ht, hq⟩
    · obtain ⟨-, hq⟩ | ⟨before, p, after, t, hp, -, ht, hq⟩ := moveBlock_next h
      · exact .inl hq
      · exact .inr ⟨before, p, after, _, t, hp, ht, hq⟩
  · exact absurd h (by simp)

end Sys2Proof.Machine
end

