-- ==== Sys2Proof/Laws/Stream.lean ====
section
/-! SUPPORT. The raw stream: consecutive draws, what the loops of the commands make of them, and that they depend on the
generator alone. -/

namespace Sys2Proof.Safety

open Sys2Proof.Machine

theorem drawMany_add (n m : Nat) (s : State) : drawMany (n + m) s = drawMany m (drawMany n s) := by
  induction n generalizing s with
  | zero => rw [Nat.zero_add, drawMany]
  | succ n ih => rw [Nat.add_right_comm]; exact ih _

theorem drawMany_succ (n : Nat) (s : State) : drawMany (n + 1) s = (nextRaw (drawMany n s)).2 := by
  rw [drawMany_add]; rfl

/-- "draws <- draws + 1", `n` times (R110). -/
theorem drawMany_draws (n : Nat) (s : State) : (drawMany n s).draws = s.draws + n := by
  induction n generalizing s with
  | zero => rfl
  | succ n ih => rw [drawMany, ih, nextRaw_draws]; omega

theorem drewFrom_drawMany (n : Nat) (s : State) : DrewFrom s (drawMany n s) := by
  induction n generalizing s with
  | zero => exact .refl s
  | succ n ih => exact (drewFrom_nextRaw s).trans (ih _)

theorem rawDraw_drawMany (s : State) (n m : Nat) : rawDraw (drawMany n s) m = rawDraw s (n + m) := by
  unfold rawDraw
  rw [drawMany_add]

/-- Below a whole pass the words stay and the draws read them in order (R110). -/
theorem drawMany_within_pass (s : State) {n : Nat} (h : s.index.toNat + n ≤ 624) :
    (drawMany n s).words = s.words ∧ (drawMany n s).index.toNat = s.index.toNat + n ∧
      ∀ k, k < n → rawDraw s k = temper (wordAt s.words (s.index.toNat + k)) := by
  induction n with
  | zero => exact ⟨rfl, rfl, fun k hk => absurd hk (by omega)⟩
  | succ n ih =>
    obtain ⟨a, b, c⟩ := ih (by omega)
    have below : refill (drawMany n s) = drawMany n s := refill_below (by omega)
    rw [drawMany_succ]
    refine ⟨by rw [nextRaw_words, below, a], by rw [nextRaw_index, below, b]; omega, fun k hk => ?_⟩
    by_cases h' : k < n
    · exact c k h'
    · obtain rfl : k = n := by omega
      rw [rawDraw, nextRaw_value, below, a, b]

/-- The resampling loop of R155 fails exactly when its fuel's worth of draws are all zero. -/
theorem drawNonzero_none_iff {n : Nat} {s : State} : drawNonzero n s = none ↔ ∀ k, k < n → rawDraw s k = 0#32 := by
  induction n generalizing s with
  | zero => exact ⟨fun _ k hk => absurd hk (by omega), fun _ => rfl⟩
  | succ n ih =>
    rw [drawNonzero]
    split
    · rename_i h
      rw [ih]
      constructor
      · intro h2 k hk
        cases k with
        | zero => exact h
        | succ k => rw [← h2 k (by omega)]; rfl
      · intro h2 k hk
        rw [← h2 (k + 1) (by omega)]; rfl
    · rename_i h
      simp only [reduceCtorEq, false_iff]
      exact fun h2 => h (h2 0 (by omega))

/-- The resampling loop of R155 answers the first non-zero draw. -/
theorem drawNonzero_first {i n : Nat} {s : State} (hn : i < n) (h : rawDraw s i ≠ 0#32)
    (hz : ∀ k, k < i → rawDraw s k = 0#32) : drawNonzero n s = some (rawDraw s i, drawMany (i + 1) s) := by
  induction i generalizing n s with
  | zero =>
    obtain ⟨n, rfl⟩ : ∃ m, n = m + 1 := ⟨n - 1, by omega⟩
    rw [drawNonzero, if_neg (show ¬(nextRaw s).1 = 0#32 from h)]; rfl
  | succ i ih =>
    obtain ⟨n, rfl⟩ : ∃ m, n = m + 1 := ⟨n - 1, by omega⟩
    rw [drawNonzero, if_pos (show (nextRaw s).1 = 0#32 from hz 0 (by omega)),
      ih (s := (nextRaw s).2) (by omega) h (fun k hk => hz (k + 1) (by omega))]
    rfl

/-- The fold of R190 over the raw stream. -/
theorem xorDraws_eq (n : Nat) (acc : Word) (s : State) :
    xorDraws n acc s = ((List.range n).foldl (fun acc k => acc ^^^ rawDraw s k) acc, drawMany n s) := by
  induction n generalizing acc s with
  | zero => rfl
  | succ n ih => rw [xorDraws, ih, List.range_succ_eq_map, List.foldl_cons, List.foldl_map]; rfl

/-- The loop of R173 stops at the first product that is not above the limit. -/
theorem poissonLoop_first {limit : F64} {s : State} {n fuel k : Nat} (hf : n ≤ fuel) (hn : 1 ≤ n)
    (above : ∀ j, 1 ≤ j → j < n → flt limit (product s (k + j)) = true) (stop : flt limit (product s (k + n)) = false) :
    poissonLoop limit fuel (BitVec.ofNat 64 k) (product s k) (drawMany k s) =
      some (BitVec.ofNat 64 (k + n), drawMany (k + n) s) := by
  induction n generalizing fuel k with
  | zero => omega
  | succ n ih =>
    obtain ⟨fuel, rfl⟩ : ∃ m, fuel = m + 1 := ⟨fuel - 1, by omega⟩
    have hp : fmul (product s k) (unitF64 (nextRaw (drawMany k s)).1) = product s (k + 1) := rfl
    have hd : (nextRaw (drawMany k s)).2 = drawMany (k + 1) s := (drawMany_succ k s).symm
    have hk : BitVec.ofNat 64 k + 1#64 = BitVec.ofNat 64 (k + 1) := by apply BitVec.eq_of_toNat_eq; simp
    rw [poissonLoop]
    simp only [hp, hd, hk]
    by_cases h0 : n = 0
    · subst h0
      rw [if_neg (by rw [stop]; decide)]
    · rw [if_pos (above 1 (by omega) (by omega)), show k + (n + 1) = k + 1 + n by omega]
      refine ih (by omega) (by omega) (fun j h1 h2 => ?_) ?_
      · rw [show k + 1 + j = k + (j + 1) by omega]
        exact above _ (by omega) (by omega)
      · rw [show k + 1 + n = k + (n + 1) by omega]
        exact stop

/-- A raw draw depends on the generator alone and leaves equal generators equal (R17, R42). -/
theorem nextRaw_sameGenerator {a b : State} (h : sameGenerator a b) :
    (nextRaw a).1 = (nextRaw b).1 ∧ sameGenerator (nextRaw a).2 (nextRaw b).2 := by
  obtain ⟨h1, h2, h3, h4⟩ := h
  have r : (refill a).words = (refill b).words ∧ (refill a).index = (refill b).index := by
    unfold refill ensureSeeded
    rw [h2]
    split
    · split
      · exact ⟨by rw [twist_words, twist_words, seed_words, seed_words, seed_cfgM, seed_cfgM, seed_cfgMatrixA,
          seed_cfgMatrixA, h3, h4], rfl⟩
      · exact ⟨by rw [twist_words, twist_words, h1, h3, h4], rfl⟩
    · exact ⟨h1, h2⟩
  have fa := (drewFrom_nextRaw a).eq
  have fb := (drewFrom_nextRaw b).eq
  refine ⟨by rw [nextRaw_value, nextRaw_value, r.1, r.2], r.1, ?_, ?_, ?_⟩
  · show (refill a).index + 1#10 = (refill b).index + 1#10
    rw [r.2]
  · rw [fa, fb]; exact h3
  · rw [fa, fb]; exact h4

/-- The end of a completion that drew its way from `started s` to `g`. -/
theorem completeValue_eq_completed {s g : State} (h : DrewFrom (started s) g) (v : Dword) :
    completeValue v g = completed s g v (saturate g.draws) := by
  obtain ⟨_, _, _, rfl⟩ := h
  rfl

theorem completeOk_eq_completed {s g : State} (h : DrewFrom (started s) g) :
    completeOk g = completed s g s.res (saturate g.draws) := by
  obtain ⟨_, _, _, rfl⟩ := h
  rfl

/-- The end of a completion with one draw. -/
theorem completeValue_one (s : State) (v : Dword) :
    completeValue v (nextRaw (beginCommand s)).2 = completed s (nextRaw (started s)).2 v 1#32 := by
  rw [show beginCommand s = started s from rfl, completeValue_eq_completed (drewFrom_nextRaw _), nextRaw_draws]
  rfl

end Sys2Proof.Safety
end

