-- ==== Sys2Proof/Machine/HostProgram.lean ====
section
/-! DEFINITION. Host programs in the notation of `spec/00_scope.md` R15: labels, branches, named values, bus accesses and
the pseudo-instructions of `spec/30_encoding.md` R80.
Their program counter and names are the host's, outside the block (`spec/10_state.md` R24); a schedule says which agent
moves next (`spec/20_memory.md` R61; log entry 15). -/

namespace Sys2Proof.Machine

/-- A value in a host program: a number, or a name read before. -/
inductive HostVal where
  | lit (v : Word)
  | name (x : String)
  deriving DecidableEq, Repr

/-- The forms of R15, and the assignment of a number to a name that the programs of `spec/95_test_vectors.md` use. -/
inductive HostStmt where
  | wr (r : Reg) (v : HostVal)
  | rd (r : Reg) (x : String)
  | poll
  | label (l : String)
  | bnz (x : String) (l : String)
  | beq (a b : HostVal) (l : String)
  | dec (x : String)
  | set (x : String) (v : Word)
  deriving DecidableEq, Repr

/-- A line of a host program as it is written: a form of R15, or a pseudo-instruction of R80. -/
inductive HostLine where
  | stmt (st : HostStmt)
  | pseudo (p : Pseudo)
  deriving DecidableEq, Repr

/-- A bus form as a statement. -/
def HostOp.toStmt : HostOp → HostStmt
  | .wr r v => .wr r (.lit v)
  | .rd r name => .rd r name
  | .poll => .poll

/-- The statements a line stands for: a pseudo-instruction expands (R80). -/
def HostLine.stmts : HostLine → List HostStmt
  | .stmt st => [st]
  | .pseudo p => p.expand.map HostOp.toStmt

/-- A program with its pseudo-instructions expanded. -/
def assemble (lines : List HostLine) : List HostStmt := lines.flatMap HostLine.stmts

/-- A host program in progress, and the block it drives. -/
structure HostRun where
  pc : Nat
  env : List (String × Word)
  block : State
  deriving DecidableEq, Repr

/-- The value of a name: the last one given to it; 0 before the first. -/
def lookupName (env : List (String × Word)) (x : String) : Word := (env.lookup x).getD 0#32

/-- The value a host value stands for. -/
def HostVal.eval (env : List (String × Word)) : HostVal → Word
  | .lit v => v
  | .name x => lookupName env x

/-- Where a label stands. R15 does not say which place a label means that stands twice, or not at all: the first, and past
the end of the program (DESIGN CHOICE, log entry 15). -/
def labelAt (prog : List HostStmt) (l : String) : Nat := prog.findIdx fun st => st = .label l

/-- The host's next state after a bus access that the block answered with `t`. -/
def afterAccess (o : Host.Outcome State Fault Refusal) (f : State → HostRun) : Host.Outcome HostRun Fault Refusal :=
  match o with
  | .next t => .next (f t)
  | .fault r => .fault r
  | .refused r => .refused r

/-- The host after a bus access that left the block in `t`: it goes on with `next` when the block answered. An access
that is not answered, because reset is asserted (R260), leaves the host waiting at its statement, which it issues again
(the model's choice, log entry 22: the spec is silent). -/
def whenAnswered (h : HostRun) (t : State) (next : Option Word → HostRun) : HostRun :=
  match t.bus with
  | .none => { h with block := t }
  | .ack => next (busDatum t)
  | .data _ => next (busDatum t)

/-- A name given the datum of a read (R15). -/
def bindName (env : List (String × Word)) (x : String) (d : Option Word) : List (String × Word) :=
  match d with
  | some v => (x, v) :: env
  | none => env

/-- One move of the host: one statement of its program. A `POLL` is one read of `STATUS` at a time, each given to the
name `s`, and ends at a read with `BUSY` clear (R15; log entry 15). A host at the end of its program does nothing. -/
def hostMove (prog : List HostStmt) (h : HostRun) : Host.Outcome HostRun Fault Refusal :=
  match prog[h.pc]? with
  | none => .next h
  | some st =>
    match st with
    | .wr r v =>
      afterAccess (perform (.host (Machine.wr r (v.eval h.env))) h.block) fun t =>
        whenAnswered h t fun _ => { h with pc := h.pc + 1, block := t }
    | .rd r x =>
      afterAccess (perform (.host (Machine.rd r)) h.block) fun t =>
        whenAnswered h t fun d => ⟨h.pc + 1, bindName h.env x d, t⟩
    | .poll =>
      afterAccess (perform (.host (Machine.rd .status)) h.block) fun t =>
        whenAnswered h t fun d =>
          ⟨if d.any (·.getLsbD 0) then h.pc else h.pc + 1, bindName h.env "s" d, t⟩
    | .label _ => .next { h with pc := h.pc + 1 }
    | .bnz x l => .next { h with pc := if lookupName h.env x = 0#32 then h.pc + 1 else labelAt prog l }
    | .beq a b l => .next { h with pc := if a.eval h.env = b.eval h.env then labelAt prog l else h.pc + 1 }
    | .dec x => .next { h with pc := h.pc + 1, env := (x, lookupName h.env x - 1#32) :: h.env }
    | .set x v => .next { h with pc := h.pc + 1, env := (x, v) :: h.env }

/-- Who moves next: the host, or another agent of the block's total order. -/
inductive Mover where
  | host
  | other (ev : Event)
  deriving DecidableEq, Repr

/-- One move of a scheduled agent. -/
def moveOnce (prog : List HostStmt) (m : Mover) (h : HostRun) : Host.Outcome HostRun Fault Refusal :=
  match m with
  | .host => hostMove prog h
  | .other ev => afterAccess (perform ev h.block) fun t => { h with block := t }

/-- A host program under a schedule, stopping at the first fault or refusal. -/
def runProgram (prog : List HostStmt) : List Mover → HostRun → Host.Outcome HostRun Fault Refusal
  | [], h => .next h
  | m :: rest, h =>
    match moveOnce prog m h with
    | .next t => runProgram prog rest t
    | .fault r => .fault r
    | .refused r => .refused r

end Sys2Proof.Machine
end

