-- ==== Sys2Proof/Tests/Slice0.lean ====
section
/-! SUPPORT. Smoke tests of well-formedness and decoding, small tests of one step against the numbers of
spec/95_test_vectors.md, and a witness for the hypotheses of every statement. Words are written out from
spec/30_encoding.md; no expected value comes from the model. -/

namespace Sys2Proof.Tests

open Sys2Proof Sys2Proof.Machine Sys2Proof.Safety

/-! ### States for tests -/

/-- The array whose first words are `ws` and whose other words are 0. -/
def ramOf (ws : List Word) : Ram := tabulate fun i => ws.getD i 0#32

/-- A crafted state of spec/95_test_vectors.md: the words as given, the cursor at 0, idle. -/
def crafted (ws : List Word) : State := { State.reset with words := ramOf ws, index := 0#10 }

/-- `WORD[0..3]` after `SEED 42` and a twist (V2); the first raw draw is 0x5FE1DC66 (V3). -/
def after42 : State := crafted [723970371#32, 1229153189#32, 4170412009#32]

/-- A state in which the command word `c` is pending on these operands. -/
def pendingOn (c : Word) (a0 a1 : Dword) (s : State) : State := accept c { s with arg0 := a0, arg1 := a1 }

/-- What the host sees after a step: `RES`, `LAST_DRAWS`, `INDEX` and `STATUS`. -/
def seen (o : Host.Outcome State Fault Refusal) : Option (Dword × Nat × Nat × Word) :=
  match o with
  | .next t => some (t.res, t.lastDraws.toNat, t.index.toNat, statusWord t)
  | .fault _ => none
  | .refused _ => none

/-- One command on these operands in this state. -/
def run (i : Instr) (a0 a1 : Dword) (s : State) : Option (Dword × Nat × Nat × Word) :=
  seen (step (pendingOn (encode i) a0 a1 s))

/-- One word after a step. -/
def wordAfter (o : Host.Outcome State Fault Refusal) (k : Nat) : Option Word :=
  match o with
  | .next t => some (wordAt t.words k)
  | .fault _ => none
  | .refused _ => none

/-- The value a host procedure ends with. -/
def valueOf {α : Type} : ProcResult α → Option α
  | .done v _ => some v
  | .argumentError _ => none
  | .commandError _ _ => none
  | .unanswered _ => none
  | .fault _ => none
  | .refused _ => none

/-- What a host access answers. -/
def busAfter (o : Host.Outcome State Fault Refusal) : Option BusResponse :=
  match o with
  | .next t => some t.bus
  | .fault _ => none
  | .refused _ => none

/-! ### Well-formedness: one ill-formed term for each check -/

theorem test_width_refused : (Access.read .w16 0x004).wellFormed = false := by decide
theorem test_misaligned_refused : (Access.read .w32 0x002).wellFormed = false := by decide
theorem test_reserved_refused :
    (Access.read .w32 0x044).wellFormed = false ∧ (Access.write .w32 0x19C0 0#32).wellFormed = false ∧
    (Access.read .w32 0x2000).wellFormed = false := by decide
theorem test_wellFormed_accepted :
    (Access.read .w32 0x040).wellFormed = true ∧ (Access.write .w32 0x19BC 0#32).wellFormed = true := by decide
theorem test_every_command_wellFormed : ∀ i : Instr, i.wellFormed = true := by intro i; cases i <;> rfl

/-! ### Decoding: every command's word, bit by bit from R70 and R74 -/

theorem test_decode_seed : decode 0b00000000000000000000000000000001#32 = .ok .seed := by decide
theorem test_decode_seedent : decode 0b00000000000000000000000000000010#32 = .ok .seedent := by decide
theorem test_decode_twist : decode 0b00000000000000000000000000000011#32 = .ok .twist := by decide
theorem test_decode_next : decode 0b00000000000000000000000000000100#32 = .ok .next := by decide
theorem test_decode_bool : decode 0b00000000000000000000000000000101#32 = .ok .bool := by decide
theorem test_decode_int : decode 0b00000000000000000000000000000110#32 = .ok .int := by decide
theorem test_decode_uint : decode 0b00000000000000000000000000000111#32 = .ok .uint := by decide
theorem test_decode_ruint : decode 0b00000000000000000000000000001000#32 = .ok .ruint := by decide
theorem test_decode_float : decode 0b00000000000000000000000000001001#32 = .ok .float := by decide
theorem test_decode_double : decode 0b00000000000000000000000000001010#32 = .ok .double := by decide
theorem test_decode_byte : decode 0b00000000000000000000000000001011#32 = .ok .byte := by decide
theorem test_decode_char : decode 0b00000000000000000000000000001100#32 = .ok .char := by decide
theorem test_decode_alnum : decode 0b00000000000000000000000000001101#32 = .ok .alnum := by decide
theorem test_decode_normal : decode 0b00000000000000000000000000001110#32 = .ok .normal := by decide
theorem test_decode_expon : decode 0b00000000000000000000000000001111#32 = .ok .expon := by decide
theorem test_decode_poisson : decode 0b00000000000000000000000000010000#32 = .ok .poisson := by decide
theorem test_decode_pseudo : decode 0b00000000000000000000000000010001#32 = .ok .pseudo := by decide
theorem test_decode_illegal :
    decode 0x00000000#32 = .error .unassignedOpcode ∧ decode 0x00000012#32 = .error .unassignedOpcode ∧
    decode 0x000000FF#32 = .error .unassignedOpcode ∧ decode 0x00000104#32 = .error .reservedBits ∧
    decode 0x80000004#32 = .error .reservedBits := by decide
theorem test_decode_bytes :
    decodeBytes [0x11#8, 0#8, 0#8, 0#8, 0xAA#8] = .ok (.pseudo, [0xAA#8]) ∧
    decodeBytes [0x11#8, 0#8, 0#8] = .error .tooShort ∧
    decodeTableWord 32 0x0E = some .normal ∧ decodeTableWord 32 0x010E = none ∧ decodeTableWord 8 0x0E = some .normal := by
  decide

/-! ### One step of each command -/

/-- V1: the first words of `SEED 42`, and the registers. -/
theorem test_seed_words :
    wordAfter (step (pendingOn 1#32 0xFFFFFFFF0000002A#64 0#64 .reset)) 0 = some 42#32 ∧
    wordAfter (step (pendingOn 1#32 42#64 0#64 .reset)) 1 = some 3107752595#32 ∧
    wordAfter (step (pendingOn 1#32 42#64 0#64 .reset)) 3 = some 3900362577#32 := by decide +kernel
theorem test_seed_registers : run .seed 42#64 0#64 .reset = some (0#64, 0, 624, 0#32) := by decide +kernel

/-- V15: an entropy answer of 42 leaves what `SEED 42` leaves; without an answer the engine waits, BUSY. -/
theorem test_seedent_answered :
    wordAfter (step (answerEntropy 42#32 (pendingOn 2#32 0#64 0#64 .reset))) 2 = some 1895908407#32 ∧
    seen (step (answerEntropy 42#32 (pendingOn 2#32 0#64 0#64 .reset))) = some (0#64, 0, 624, 0#32) := by decide +kernel
theorem test_seedent_waits : run .seedent 0#64 0#64 .reset = some (0#64, 0, 625, 0x201#32) := by decide +kernel

/-- V2: the first word of the twist after `SEED 42`. -/
theorem test_twist_word :
    wordAfter (step (pendingOn 3#32 0#64 0#64 (seed 42#32 .reset))) 0 = some 723970371#32 := by decide +kernel
/-- V6: lazy seeding before the twist. -/
theorem test_twist_lazy :
    wordAfter (step (pendingOn 3#32 0#64 0#64 .reset)) 0 = some 2601187879#32 ∧
    run .twist 0#64 0#64 .reset = some (0#64, 0, 0, 0#32) := by decide +kernel

/-- V4 and V5. -/
theorem test_next_after_42 : run .next 0#64 0#64 (seed 42#32 .reset) = some (0x5FE1DC66#64, 1, 1, 0#32) := by decide +kernel
theorem test_next_lazy : run .next 0#64 0#64 .reset = some (3499211612#64, 1, 1, 0#32) := by decide +kernel

/-- V56, V57, V60, V64: thresholds; V65: an operand above 1.0. -/
theorem test_bool_thresholds :
    run .bool 0x3FE0000000000000#64 0#64 after42 = some (1#64, 1, 1, 0#32) ∧
    run .bool 0x3FD7F7CED916872B#64 0#64 after42 = some (0#64, 1, 1, 0#32) ∧
    run .bool 0x8000000000000000#64 0#64 after42 = some (0#64, 1, 1, 0#32) ∧
    run .bool 0x0000000000000001#64 0#64 (crafted []) = some (1#64, 1, 1, 0#32) := by decide +kernel
theorem test_bool_refused : run .bool 0x3FF8000000000000#64 0#64 after42 = some (0#64, 0, 0, 0x12#32) := by decide +kernel

/-- V20, V21, V37; V24. -/
theorem test_int_ranges :
    run .int 0xFFFFFFFB#64 5#64 after42 = some (1#64, 1, 1, 0#32) ∧
    run .int 0x80000000#64 0x7FFFFFFF#64 after42 = some (0xFFFFFFFFDFE1DC66#64, 1, 1, 0#32) ∧
    run .int 0xFFFFFFFB#64 5#64 (crafted [0x12DD9BB3#32]) = some (0xFFFFFFFFFFFFFFFE#64, 1, 1, 0#32) := by decide +kernel
theorem test_int_error : run .int 10#64 5#64 after42 = some (0#64, 0, 0, 0x12#32) := by decide +kernel

/-- V25, V26, V27 (with upper operand halves ignored, R72); V28. -/
theorem test_uint_ranges :
    run .uint 100#64 200#64 after42 = some (138#64, 1, 1, 0#32) ∧
    run .uint 0#64 0xFFFFFFFF#64 after42 = some (1608637542#64, 1, 1, 0#32) ∧
    run .uint 0xDEAD00000005#64 0xBEEF00000005#64 after42 = some (5#64, 1, 1, 0#32) := by decide +kernel
theorem test_uint_error : run .uint 6#64 5#64 after42 = some (0#64, 0, 0, 0x12#32) := by decide +kernel

/-- V29, V31, V38; V32. -/
theorem test_ruint_ranges :
    run .ruint 0#64 10#64 after42 = some (2#64, 1, 1, 0#32) ∧
    run .ruint 0#64 0xFFFFFFFF#64 after42 = some (1608637542#64, 1, 1, 0#32) ∧
    run .ruint 0#64 10#64 (crafted [0x12DD9BB3#32]) = some (5#64, 1, 1, 0#32) := by decide +kernel
theorem test_ruint_error : run .ruint 5#64 5#64 after42 = some (0#64, 0, 0, 0x12#32) := by decide +kernel

/-- V50 and V51. -/
theorem test_float :
    run .float 0#64 0#64 after42 = some (0x3EBFC3B8#64, 1, 1, 0#32) ∧
    run .float 0#64 0#64 (crafted [0x12DD9BB3#32]) = some (0x3F7FFFFF#64, 1, 1, 0#32) := by decide +kernel

/-- V53, V54 and V55. -/
theorem test_double :
    run .double 0#64 0#64 after42 = some (0x3FD7F87719800000#64, 1, 1, 0#32) ∧
    run .double 0#64 0#64 (crafted [0x12DD9BB3#32]) = some (0x3FEFFFFFFFE00000#64, 1, 1, 0#32) ∧
    run .double 0#64 0#64 (crafted []) = some (0#64, 1, 1, 0#32) := by decide +kernel

/-- V34, V35 and V39, V36 and V40. -/
theorem test_byte : run .byte 0#64 0#64 after42 = some (0x66#64, 1, 1, 0#32) := by decide +kernel
theorem test_char :
    run .char 0#64 0#64 after42 = some (0x73#64, 1, 1, 0#32) ∧
    run .char 0#64 0#64 (crafted [0x12DD9BB3#32]) = some (0x76#64, 1, 1, 0#32) := by decide +kernel
theorem test_alnum :
    run .alnum 0#64 0#64 after42 = some (0x79#64, 1, 1, 0#32) ∧
    run .alnum 0#64 0#64 (crafted [0x12DD9BB3#32]) = some (0x44#64, 1, 1, 0#32) := by decide +kernel

/-- P4's words: raw values 0, 2^31, 0, 2^31, with `LN64` and `COS64` pinned where P4 needs them (`ln 0.5`, and `cos` of
`TWO_PI * 0.5`). -/
def p4 : State :=
  { crafted [0#32, 0x80102204#32, 0#32, 0x80102204#32] with
    math := ⟨[(0x3FE0000000000000#64, 0xBFE62E42FEFA39EF#64)], [(0x400921FB54442D18#64, 0xBFF0000000000000#64)], []⟩ }

/-- V74, P4: two resampled uniforms, four draws. -/
theorem test_normal_resamples :
    run .normal 0#64 0x3FF0000000000000#64 p4 = some (0xBFF2D6ABE44AFC43#64, 4, 4, 0#32) := by decide +kernel

/-- V80: the largest raw value, with `LN64(2^-32)` pinned at `-32 ln 2`; V81: rate +0.0. -/
theorem test_expon :
    run .expon 0x3FF0000000000000#64 0#64
      { crafted [0x12DD9BB3#32] with math := ⟨[(0x3DF0000000000000#64, 0xC0362E42FEFA39EF#64)], [], []⟩ } =
      some (0x40362E42FEFA39EF#64, 1, 1, 0#32) := by decide +kernel
theorem test_expon_error : run .expon 0#64 0#64 after42 = some (0#64, 0, 0, 0x12#32) := by decide +kernel

/-- V83's first products with `EXP64(-1.0)` pinned; V89: an infinite mean. -/
theorem test_poisson :
    run .poisson 0x3FF0000000000000#64 0#64
      { after42 with math := ⟨[], [], [(0xBFF0000000000000#64, 0x3FD78B56362CEF38#64)]⟩ } =
      some (1#64, 2, 2, 0#32) := by decide +kernel
theorem test_poisson_error : run .poisson 0x7FF0000000000000#64 0#64 after42 = some (0#64, 0, 0, 0x12#32) := by
  decide +kernel

/-- V90's fold, in miniature: 32 draws of which only the first is not zero. -/
theorem test_pseudo :
    run .pseudo 0#64 0#64 (crafted [723970371#32]) = some (0x5FE1DC66#64, 32, 32, 0#32) := by decide +kernel

/-- V131 and V132: illegal words. -/
theorem test_illegal_words :
    seen (step (pendingOn 0x12#32 0#64 0#64 after42)) = some (0#64, 0, 0, 0x32#32) ∧
    seen (step (pendingOn 0x104#32 0#64 0#64 after42)) = some (0#64, 0, 0, 0x32#32) := by decide +kernel

/-! ### Primitives and the host interface -/

/-- The rows of R109, and the untemper values of spec/95_test_vectors.md. -/
theorem test_temper :
    temper 1#32 = 0x00400091#32 ∧ temper 0x80000000#32 = 0x88102204#32 ∧ temper 0xFFFFFFFF#32 = 0x6FE01BF8#32 ∧
    temper 0x2B26E943#32 = 0x5FE1DC66#32 ∧ temper 0x12DD9BB3#32 = 0xFFFFFFFF#32 := by decide

/-- IEEE sums, products, quotients and roots: 0.1 + 0.2, a tie that goes to even, 1/3, -0.0 + 0.0, inf - inf, 1 over -0.0,
sqrt(2), the smallest subnormal halved. -/
theorem test_ieee :
    fadd 0x3FB999999999999A#64 0x3FC999999999999A#64 = 0x3FD3333333333334#64 ∧
    fadd 0x3FF0000000000000#64 0x3CA0000000000000#64 = 0x3FF0000000000000#64 ∧
    fdiv 0x3FF0000000000000#64 0x4008000000000000#64 = 0x3FD5555555555555#64 ∧
    fadd 0x8000000000000000#64 0#64 = 0#64 ∧ f64IsNan (fsub f64Inf f64Inf) = true ∧
    fdiv 0x3FF0000000000000#64 0x8000000000000000#64 = 0xFFF0000000000000#64 ∧
    fsqrt 0x4000000000000000#64 = 0x3FF6A09E667F3BCD#64 ∧ fmul 1#64 0x3FE0000000000000#64 = 0#64 := by decide +kernel

/-- V120, V122, V125, V126, V128 and V133 on the bus. -/
theorem test_bus_reads :
    busAfter (perform (.host (rd .status)) .reset) = some (.data 0x200#32) ∧
    busAfter (perform (.host (.read .w32 0x02C)) .reset) = some (.data 397#32) ∧
    busAfter (perform (.host (.read .w32 0x044)) .reset) = none ∧
    busAfter (perform (.host (.read .w16 0x004)) .reset) = none := by decide +kernel
theorem test_bus_writes :
    seen (perform (.host (wr .cfgM 0#32)) .reset) = some (0#64, 0, 625, 0x222#32) ∧
    seen (perform (.host (wr .cfgN 624#32)) .reset) = some (0#64, 0, 625, 0x200#32) ∧
    seen (perform (.host (wr .cfgN 312#32)) .reset) = some (0#64, 0, 625, 0x222#32) := by decide +kernel
theorem test_index_writes :
    seen (perform (.host (wr .index 626#32)) after42) = some (0#64, 0, 0, 0x12#32) ∧
    seen (perform (.host (wr .index 625#32)) after42) = some (0#64, 0, 625, 0x200#32) := by decide +kernel

/-- P7: the stray write is taken after the completion and dropped before it; the result is 138 both ways. -/
def p7 (evs : List Event) : Option (Dword × Nat × Nat × Word) :=
  seen (performAll ([.host (wr .arg0Lo 100#32), .host (wr .arg1Lo 200#32), .host (wr .cmd 7#32)] ++ evs) after42)
theorem test_busy_hazard :
    p7 [.host (wr .arg1Lo 300#32), .engine] = some (138#64, 1, 1, 0x100#32) ∧
    p7 [.engine, .host (wr .arg1Lo 300#32)] = some (138#64, 1, 1, 0#32) := by decide +kernel

/-- P6's branch on the error code, as a host program: the NEXT between the branch and its label is skipped. -/
def p6 : Option (Nat × Bool) :=
  match runProgram [.rd .status "s", .beq (.name "s") (.lit 0x12#32) "bad", .wr .cmd (.lit 4#32), .label "bad"]
      (List.replicate 3 .host) ⟨0, [], completeError argumentError after42⟩ with
  | .next h => some (h.pc, h.block.busy)
  | .fault _ => none
  | .refused _ => none
theorem test_host_program : p6 = some (4, false) := by decide +kernel

/-- A program under a schedule: where the host stands, and the values it gave to names, the last one first. -/
def names (lines : List HostLine) (moves : List Mover) (b : State) : Nat × List (String × Word) :=
  match runProgram (assemble lines) moves ⟨0, [], b⟩ with
  | .next h => (h.pc, h.env)
  | .fault _ => (0, [])
  | .refused _ => (0, [])

/-- R80: `GETRES -> r` gives `s`, `r_lo` and `r_hi` their values. -/
theorem test_getres_names :
    names [.pseudo (.getres "r")] (List.replicate 3 .host) { after42 with res := 0x3FD7F87719800000#64, ovr := true } =
      (3, [("r_hi", 0x3FD7F877#32), ("r_lo", 0x19800000#32), ("s", 0x100#32)]) := by decide +kernel

/-- R15: `POLL` is `RD STATUS -> s` until `BUSY` is clear. -/
theorem test_poll_names :
    names [.pseudo .next] [.host, .host, .other .engine, .host] after42 = (2, [("s", 0#32), ("s", 1#32)]) ∧
    names [.pseudo .next] [.host, .host] after42 = (1, [("s", 1#32)]) := by decide +kernel

/-- A procedure ended at an access that was not answered. -/
def endsUnanswered {α : Type} : ProcResult α → Bool
  | .unanswered _ => true
  | .done _ _ => false
  | .argumentError _ => false
  | .commandError _ _ => false
  | .fault _ => false
  | .refused _ => false

/-- R260: while reset is asserted no access is answered; a program waits and gives no value, a procedure ends. -/
theorem test_unanswered :
    names [.stmt (.rd .status "s")] [.host, .host] (assertReset after42) = (0, []) ∧
    endsUnanswered (bytes ⟨0, 0#32⟩ 1 (assertReset after42)) = true := by decide +kernel

/-- R80: a decimal literal is the nearest binary64 value; 0.3745 as V57 gives it, 0.1, and -1.0. -/
theorem test_decimal :
    decimalF64 false 3745 (-4) = 0x3FD7F7CED916872B#64 ∧ decimalF64 false 1 (-1) = 0x3FB999999999999A#64 ∧
    decimalF64 true 1 0 = 0xBFF0000000000000#64 := by decide +kernel

/-- What each placed block last answered on its bus, and its RES; or which refusal. -/
def placedSeen (ev : PlatformEvent) (ps : List PlacedBlock) : List (BusResponse × Dword) × Option Refusal :=
  match performPlatform ev ps with
  | .next qs => (qs.map fun q => (q.block.bus, q.block.res), none)
  | .fault _ => ([], none)
  | .refused r => ([], some r)

/-- R50 and R59: `BASE + offset` reaches the block whose window holds it, and that one alone. -/
theorem test_platform_reaches_one_block :
    placedSeen (.host (.read .w32 0x4020)) [⟨0x2000, .reset⟩, ⟨0x4000, after42⟩] =
      ([(.none, 0#64), (.data 0#32, 0#64)], none) ∧
    placedSeen (.host (.read .w32 0x2020)) [⟨0x2000, .reset⟩, ⟨0x4000, after42⟩] =
      ([(.data 625#32, 0#64), (.none, 0#64)], none) ∧
    placedSeen (.at 1 .engine) [⟨0x2000, after42⟩, ⟨0x4000, pendingOn 4#32 0#64 0#64 after42⟩] =
      ([(.none, 0#64), (.none, 0x5FE1DC66#64)], none) := by decide +kernel

/-- R59: windows must not meet, and an address in no window is not the blocks'. -/
theorem test_platform_refusals :
    placedSeen (.at 0 .engine) [⟨0x2000, after42⟩, ⟨0x3FFC, after42⟩] = ([], some .overlappingWindows) ∧
    placedSeen (.host (.read .w32 0x1FFC)) [⟨0x2000, after42⟩] = ([], some .outsideWindows) ∧
    placedSeen (.host (.read .w32 0x4000)) [⟨0x2000, after42⟩] = ([], some .outsideWindows) := by decide +kernel

/-- The host procedures of section 2.6: V100's first byte, V103, V107, V110, V112, V114. -/
theorem test_procedures :
    valueOf (bytes ⟨1, 0#32⟩ 1 after42) = some [0x66#8] ∧
    valueOf (choose ⟨0, 0#32⟩ [10, 20, 30] after42) = some (some 10) ∧
    valueOf (choose ⟨0, 0#32⟩ ([] : List Nat) after42) = some none ∧
    valueOf (sample ⟨0, 0#32⟩ [1, 2, 3] 4 after42) = none ∧
    valueOf (sampleWithReplacement ⟨0, 0#32⟩ ([] : List Nat) 1 after42) = none ∧
    valueOf (weightedChoice ⟨0, 0#32⟩ [1, 2, 3] [20#32, 30#32, 50#32] after42) = some (some 2) ∧
    valueOf (weightedChoice ⟨0, 0#32⟩ [1, 2] [1#32] after42) = none ∧
    valueOf (weightedChoice ⟨0, 0#32⟩ [1, 2] [0xFFFFFFFF#32, 1#32] after42) = none := by decide +kernel

/-- V105 and V106, from the raw draws 1608637542, 3421126067, 4083286876 and 787846414: the drawn indices are the
remainders by 5, 4, 3 and 2, and by 5 and 4. -/
theorem test_shuffles :
    shuffleSwaps 4 [2#64, 3#64, 1#64, 0#64] [1, 2, 3, 4, 5] = [5, 1, 2, 4, 3] ∧
    (sampleSwaps 0 [2#64, 4#64] [1, 2, 3, 4, 5]).take 2 = [3, 5] ∧
    pickWeighted 42 0 [('a', 20#32), ('b', 30#32), ('c', 50#32)] = some 'b' := by decide

/-! ### Witnesses: for each statement with hypotheses, a state and operands that meet them together -/

/-- `exec` answers a next state. -/
def goesOn (o : Host.Outcome State Fault Refusal) : Bool :=
  match o with
  | .next _ => true
  | .fault _ => false
  | .refused _ => false

theorem goesOn_next {o : Host.Outcome State Fault Refusal} (h : goesOn o = true) : ∃ t, o = .next t := by
  unfold goesOn at h
  split at h
  · exact ⟨_, rfl⟩
  · exact absurd h (by decide)
  · exact absurd h (by decide)

/-- A state with a pending command that the inputs below let the host disturb. -/
def busyState : State := pendingOn 7#32 100#64 200#64 after42

theorem test_hyp_DecodeIsTheOpcodeMap : (0x00000000#32 : Word).toNat = 0 ∧ 0x11 < (0x00000012#32 : Word).toNat := by decide

theorem test_hyp_StepKeepsLegal : legal busyState = true ∧ ∃ t, step busyState = .next t :=
  ⟨by decide +kernel, goesOn_next (by decide +kernel)⟩

theorem test_hyp_StepRunsTheDecodedCommand :
    (busyState.inputs = [] ∧ busyState.inReset = false ∧ busyState.seq = .busy 7#32 ∧ decode 7#32 = .ok .uint) ∧
    (({ busyState with inputs := [.engine, .resetAssert] } : State).inputs = .engine :: [.resetAssert]) ∧
    after42.seq = .idle := by decide

theorem test_hyp_IllegalWordCompletesWithCode3 :
    (accept 0x12#32 after42).inReset = false ∧ (accept 0x12#32 after42).seq = .busy 0x12#32 ∧
    decode 0x12#32 = .error .unassignedOpcode := by decide

theorem test_hyp_ResetAbandonsThePendingCommand : (assertReset busyState).inReset = true := by decide

theorem test_hyp_RegisterMapIsOneToOne :
    regAt 0x040 = some .cfgTemperC ∧ regAt 0x044 = none ∧ regAt 0xFFC = none ∧ regAt 0x1000 = some (.word 0) ∧
    regAt 0x19BC = some (.word 623) ∧ regAt 0x19C0 = none ∧ regAt 0x1002 = none := by decide

theorem test_hyp_BusErrorExactlyForIllFormedAccesses :
    after42.inReset = false ∧ (Access.read .w8 0x004).wellFormed = false ∧ (Access.read .w32 0x004).wellFormed = true := by
  decide

theorem test_hyp_ReadsHaveNoSideEffect : after42.inReset = false ∧ after42.busy = false := by decide

theorem test_hyp_BusyReadsAreFreeButStatus :
    busyState.inReset = false ∧ busyState.busy = true ∧ Reg.index ≠ Reg.status := by decide

theorem test_hyp_BusyWritesAreDropped :
    busyState.inReset = false ∧ busyState.busy = true ∧ Reg.cmd ≠ Reg.status ∧
    (0x100#32 : Word).getLsbD 8 = true ∧ (0xFF#32 : Word).getLsbD 8 = false := by decide

/-- For StatusFieldsAndWrites, and the idle states of AcceptanceLatchesTheCommand, ArgumentHalvesAreSeparate,
ReadOnlyRegistersIgnoreWrites and HardwiredRegistersAreValidated. -/
theorem test_hyp_StatusFieldsAndWrites : State.reset.inReset = false ∧ State.reset.busy = false := by decide

theorem test_hyp_AcceptanceLatchesTheCommand :
    after42.inReset = false ∧ after42.busy = false ∧ requestOf 2#32 = .requested ∧ requestOf 0x102#32 = .quiet := by decide

theorem test_hyp_ArgumentHalvesAreSeparate : after42.inReset = false ∧ after42.busy = false := by decide

theorem test_hyp_ReadOnlyRegistersIgnoreWrites :
    after42.inReset = false ∧ after42.busy = false ∧ (Reg.lastDraws = .resLo ∨ Reg.lastDraws = .resHi ∨ Reg.lastDraws = .lastDraws) := by
  decide

theorem test_hyp_HardwiredRegistersAreValidated :
    after42.inReset = false ∧ after42.busy = false ∧ (624#32 : Word) = readReg .cfgN after42 ∧
    (312#32 : Word) ≠ readReg .cfgN after42 := by decide

theorem test_hyp_RecurrenceOffsetIsValidated :
    after42.inReset = false ∧ after42.busy = false ∧
    (1 ≤ (1#32 : Word).toNat ∧ (1#32 : Word).toNat ≤ 623) ∧ (1 ≤ (623#32 : Word).toNat ∧ (623#32 : Word).toNat ≤ 623) ∧
    ¬(1 ≤ (0#32 : Word).toNat ∧ (0#32 : Word).toNat ≤ 623) ∧ ¬(1 ≤ (624#32 : Word).toNat ∧ (624#32 : Word).toNat ≤ 623) := by
  decide

theorem test_hyp_MatrixNeedsItsHighBit :
    after42.inReset = false ∧ after42.busy = false ∧
    2 ^ 31 ≤ (0x80000000#32 : Word).toNat ∧ (0x7FFFFFFF#32 : Word).toNat < 2 ^ 31 := by decide

theorem test_hyp_CursorWritesAreValidated :
    after42.inReset = false ∧ after42.busy = false ∧ (625#32 : Word).toNat ≤ 625 ∧ 625 < (626#32 : Word).toNat ∧
    (∃ t, perform (.host (wr .index 624#32)) after42 = .next t) ∧ ∃ t, perform (.host (wr .index 625#32)) after42 = .next t :=
  ⟨by decide, by decide, by decide, by decide, ⟨_, rfl⟩, ⟨_, rfl⟩⟩

theorem test_hyp_StateWindowReadsAndWrites :
    (after42.inReset = false ∧ after42.busy = false) ∧
    (State.reset.index = 625#10 ∧ ({ after42 with index := 625#10 } : State).index = 625#10 ∧
      State.reset.cfgM = after42.cfgM ∧ State.reset.cfgMatrixA = after42.cfgMatrixA) ∧
    ∃ s' t', exec .twist .reset = .next s' ∧ exec .twist { after42 with index := 625#10 } = .next t' :=
  ⟨by decide, by decide, _, _, rfl, rfl⟩

theorem test_hyp_CommandsKeepConfigurationAndArguments :
    exec .int (pendingOn 6#32 10#64 5#64 after42) = .next (completeError argumentError (pendingOn 6#32 10#64 5#64 after42)) ∧
    (completeError argumentError (pendingOn 6#32 10#64 5#64 after42)).err = true :=
  ⟨rfl, rfl⟩

theorem test_hyp_OverrunIsSticky :
    ∃ t, step { busyState with ovr := true, inputs := [.host (wr .status 0x100#32)] } = .next t :=
  goesOn_next (by decide +kernel)

theorem test_hyp_OnlyWritesAndResetChangeConfiguration :
    (∃ t, step { after42 with inputs := [.host (wr .cfgM 1#32)] } = .next t ∧ t.cfgM ≠ after42.cfgM) ∧
    (∃ t, step { after42 with inputs := [.host (wr .cfgMatrixA 0x80000000#32)] } = .next t ∧
      t.cfgMatrixA ≠ after42.cfgMatrixA) ∧
    (∃ t, step (pendingOn 4#32 0#64 0#64 after42) = .next t ∧ t.index ≠ (pendingOn 4#32 0#64 0#64 after42).index) ∧
    (∃ t, step { after42 with inputs := [.host (wr (.word 623) 1#32)] } = .next t ∧
      wordAt t.words 623 ≠ wordAt after42.words 623) :=
  ⟨⟨_, rfl, by decide⟩, ⟨_, rfl, by decide⟩, ⟨_, rfl, by decide +kernel⟩, ⟨_, rfl, by decide +kernel⟩⟩

theorem test_hyp_LazySeedingOnlyAtTheSentinel :
    State.reset.index = 625#10 ∧ after42.index ≠ 625#10 ∧ 624 ≤ State.reset.index.toNat ∧ ∃ t, exec .twist .reset = .next t :=
  ⟨by decide, by decide, by decide, _, rfl⟩

theorem test_hyp_SeedCompletes : State.reset.index = 625#10 ∧ ∃ t, exec .seed after42 = .next t := ⟨by decide, _, rfl⟩

theorem test_hyp_TwistIsTheInPlaceRecurrence :
    1 ≤ State.reset.cfgM.toNat ∧ State.reset.cfgM.toNat ≤ 623 ∧
    ({ State.reset with cfgM := 623#32 } : State).cfgM.toNat ≤ 623 ∧ 1 ≤ ({ State.reset with cfgM := 1#32 } : State).cfgM.toNat := by
  decide

theorem test_hyp_AllZeroIsATwistFixedPoint : ∀ i, i < 624 → wordAt (ramOf []) i = 0#32 := by
  intro i _
  rw [ramOf, wordAt_tabulate]; rfl

theorem test_hyp_RawDrawReadsTheCursorsWord :
    after42.index.toNat < 624 ∧ ({ after42 with index := 623#10 } : State).index.toNat < 624 ∧
    ({ after42 with index := 624#10 } : State).index = 624#10 ∧ State.reset.index = 625#10 := by decide

theorem test_hyp_SeedFromEntropyCompletesOrWaits :
    (answerEntropy 42#32 (accept 2#32 after42)).port = .answered 42#32 ∧
    (after42.port = .quiet ∨ after42.port = .requested) ∧ (accept 2#32 after42).port = .requested := by decide

theorem test_hyp_TwistCompletes :
    after42.index ≠ 625#10 ∧ State.reset.index = 625#10 ∧ ∃ t, exec .twist after42 = .next t :=
  ⟨by decide, by decide, _, rfl⟩

theorem test_hyp_IntCompletesInItsRange :
    ((7#64 : Dword).extractLsb' 0 32).toInt ≤ ((7#64 : Dword).extractLsb' 0 32).toInt ∧
    ((0x80000000#64 : Dword).extractLsb' 0 32).toInt ≤ ((0x7FFFFFFF#64 : Dword).extractLsb' 0 32).toInt ∧
    ((6#64 : Dword).extractLsb' 0 32).toInt < ((7#64 : Dword).extractLsb' 0 32).toInt := by decide

theorem test_hyp_UintCompletesInItsRange :
    ((0#64 : Dword).extractLsb' 0 32) = 0#32 ∧ ((0xFFFFFFFF#64 : Dword).extractLsb' 0 32) = 0xFFFFFFFF#32 ∧
    ((5#64 : Dword).extractLsb' 0 32).toNat ≤ ((5#64 : Dword).extractLsb' 0 32).toNat ∧
    ((5#64 : Dword).extractLsb' 0 32).toNat < ((6#64 : Dword).extractLsb' 0 32).toNat := by decide

theorem test_hyp_RangedUintCompletesInItsRange :
    ((0#64 : Dword).extractLsb' 0 32).toNat < ((1#64 : Dword).extractLsb' 0 32).toNat ∧
    ((5#64 : Dword).extractLsb' 0 32).toNat ≤ ((5#64 : Dword).extractLsb' 0 32).toNat := by decide

theorem test_hyp_UnitSingleIsExact : (255#32 : Word).toNat < 256 ∧ 256 ≤ (256#32 : Word).toNat := by decide

/-- BoolThresholdIsExact: the operands -0.0 and 1.0, and a NaN, the smallest negative value and 1.5. -/
theorem test_hyp_BoolThresholdIsExact :
    (f64IsNan 0x8000000000000000#64 = false ∧ 0 ≤ f64Scaled 0x8000000000000000#64 ∧
      f64Scaled 0x8000000000000000#64 ≤ 2 ^ 1074) ∧
    (f64IsNan f64One = false ∧ 0 ≤ f64Scaled f64One ∧ f64Scaled f64One ≤ 2 ^ 1074) ∧
    f64IsNan 0x7FF8000000000000#64 = true ∧ f64Scaled 0x8000000000000001#64 < 0 ∧
    2 ^ 1074 < f64Scaled 0x3FF8000000000000#64 := by decide +kernel

/-- A fraction below the overflow threshold and one at it; finite operands with a non-zero and a zero divisor; a NaN; and
infinities against every kind of operand. -/
theorem test_hyp_RoundingIsToNearestEven :
    (0 < 2 ∧ 3 < 2 * (2 ^ 2098 - 2 ^ 2044) ∧ 1 * (2 ^ 2098 - 2 ^ 2044) ≤ 2 ^ 2098 - 2 ^ 2044) ∧
    (f64Exponent 1#64 < 2047 ∧ f64Exponent 0x7FEFFFFFFFFFFFFF#64 < 2047 ∧ 0 < f64Magnitude 1#64 ∧ f64Magnitude f64Zero = 0) ∧
    f64IsNan f64Nan = true ∧
    (f64IsInf f64Inf = true ∧ f64IsInf 0xFFF0000000000000#64 = true ∧ f64Sign f64Inf ≠ f64Sign 0xFFF0000000000000#64 ∧
      f64IsNan f64Inf = false ∧ f64IsInf 1#64 = false ∧ 0 < f64Magnitude f64Inf) := by decide +kernel

/-- The smallest and the largest positive finite operands, both zeros, a negative operand and a NaN. -/
theorem test_hyp_IntegerRootIsExact :
    (f64Sign 1#64 = false ∧ f64Exponent 1#64 < 2047 ∧ 0 < f64Magnitude 1#64) ∧
    (f64Sign 0x7FEFFFFFFFFFFFFF#64 = false ∧ f64Exponent 0x7FEFFFFFFFFFFFFF#64 < 2047) ∧
    f64Magnitude 0x8000000000000000#64 = 0 ∧ f64Sign 0x8000000000000001#64 = true ∧ 0 < f64Magnitude 0x8000000000000001#64 ∧
    f64IsNan f64Nan = true := by decide +kernel

/-- The largest finite value and the smallest subnormal. -/
theorem test_hyp_FiniteValuesRoundToThemselves :
    f64Exponent 0x7FEFFFFFFFFFFFFF#64 < 2047 ∧ f64Exponent 0x8000000000000001#64 < 2047 := by decide

theorem test_hyp_NanResultsAreNanEncodings : f64IsNan f64One = false ∧ f64IsNan f64Nan = true := by decide

/-- NormalCompletesOnTwoNonzeroDraws: P4's words, with `i = 1` and `j = 3`. -/
theorem test_hyp_NormalCompletesOnTwoNonzeroDraws :
    1 < 3 ∧ rawDraw (started p4) 1 ≠ 0#32 ∧ rawDraw (started p4) 3 ≠ 0#32 ∧
    ∀ k, k < 3 → k ≠ 1 → rawDraw (started p4) k = 0#32 := by decide +kernel

theorem zeros_word (i : Nat) : wordAt (ramOf []) i = 0#32 := by
  rw [ramOf, wordAt_tabulate]; rfl

theorem zeros_twist : twistWords 397 0x9908B0DF#32 (ramOf []) = ramOf [] := by
  rw [twistWords_eq]
  generalize 624 = n
  induction n with
  | zero => rfl
  | succ n ih =>
    rw [twistTo, ih, twistAt]
    refine ram_ext fun i _ => ?_
    rw [wordAt_setWord]
    split
    · simp only [zeros_word]; decide
    · rfl

theorem zeros_draw (s : State) (hw : s.words = ramOf []) (hm : s.cfgM = 397#32) (ha : s.cfgMatrixA = 0x9908B0DF#32)
    (hi : s.index.toNat ≤ 624) (n : Nat) : rawDraw s n = 0#32 := by
  have kept : (refill s).words = ramOf [] := by
    rcases Nat.lt_or_ge s.index.toNat 624 with h | h
    · rw [refill_below h, hw]
    · rw [refill_at (BitVec.eq_of_toNat_eq (by simp; omega)), twist_words, hm, ha, hw]
      exact zeros_twist
  have frame := drewFrom_nextRaw s
  induction n generalizing s with
  | zero => rw [show rawDraw s 0 = (nextRaw s).1 from rfl, nextRaw_value, kept, zeros_word]; decide
  | succ n ih =>
    have hi' := (nextRaw_index_range s).2
    refine ih (nextRaw s).2 kept (by rw [frame.eq]; exact hm) (by rw [frame.eq]; exact ha) hi' ?_ (drewFrom_nextRaw _)
    rcases Nat.lt_or_ge (nextRaw s).2.index.toNat 624 with h | h
    · rw [refill_below h]; exact kept
    · rw [refill_at (BitVec.eq_of_toNat_eq (by simp; omega)), twist_words, frame.eq]
      show twistWords s.cfgM.toNat s.cfgMatrixA (nextRaw s).2.words = _
      rw [hm, ha, nextRaw_words, kept]
      exact zeros_twist

/-- The hang of NORMAL: a state whose draws are all zero. -/
theorem test_hyp_NormalHangs : ∀ k, k ≠ 0 → rawDraw (started (crafted [])) k = 0#32 :=
  fun k _ => zeros_draw _ rfl rfl rfl (by decide) k

theorem test_hyp_RegenerationBoundary : 1 ≤ 1 ∧ 1 ≤ 625 ∧ 625 % 624 = 1 := by decide

/-- The smallest subnormal is a positive rate; +0.0 and a NaN are none. -/
theorem test_hyp_ExponCompletesForPositiveRates :
    (f64IsNan 1#64 = false ∧ 0 < f64Scaled 1#64) ∧ f64Scaled 0#64 ≤ 0 ∧ f64IsNan 0x7FF0000000000001#64 = true := by
  decide +kernel

/-- A state for POISSON whose mean is 0.0, whose first raw value is 0, and whose `EXP64(-0.0)` is pinned at 1.0. -/
def zeroMean : State :=
  { pendingOn 0x10#32 0#64 0#64 (crafted []) with math := ⟨[], [], [(0x8000000000000000#64, 0x3FF0000000000000#64)]⟩ }

theorem test_hyp_PoissonCompletesAtItsFirstSmallProduct :
    f64IsNan zeroMean.operand0 = false ∧ 0 ≤ f64Scaled zeroMean.operand0 ∧ f64Exponent zeroMean.operand0 < 2047 ∧
    1 ≤ 1 ∧ 1 ≤ 2 ^ 64 ∧
    (∀ k, k < 1 → 1 ≤ k → flt (exp64 zeroMean (fneg zeroMean.operand0)) (product (started zeroMean) k) = true) ∧
    flt (exp64 zeroMean (fneg zeroMean.operand0)) (product (started zeroMean) 1) = false := by decide +kernel
theorem test_hyp_PoissonErrors :
    f64IsNan 0xFFF8000000000000#64 = true ∧ f64Scaled 0x8000000000000001#64 < 0 ∧ f64Exponent f64Inf = 2047 := by
  decide +kernel

/-- The states NEXT leads through, for PseudoFoldsThirtyTwoDraws. -/
def nextChain (s : State) : Nat → State
  | 0 => s
  | k + 1 => completeValue (resultU32 (nextRaw (beginCommand (nextChain s k))).1) (nextRaw (beginCommand (nextChain s k))).2

theorem test_hyp_PseudoFoldsThirtyTwoDraws :
    (∃ t, exec .pseudo after42 = .next t) ∧ nextChain after42 0 = after42 ∧
    ∀ k, k < 32 → exec .next (nextChain after42 k) = .next (nextChain after42 (k + 1)) :=
  ⟨⟨_, rfl⟩, rfl, fun _ _ => rfl⟩

/-- Two different states with one generator. -/
theorem test_hyp_SameGeneratorSameResults :
    sameGenerator busyState { busyState with res := 9#64, ovr := true } ∧
    sameOperands busyState { busyState with res := 9#64, ovr := true } ∧ ∃ t, exec .uint busyState = .next t :=
  ⟨⟨rfl, rfl, rfl, rfl⟩, ⟨rfl, rfl, rfl, rfl⟩, goesOn_next (by decide +kernel)⟩

theorem done_of_valueOf {α : Type} {x : ProcResult α} {v : α} (h : valueOf x = some v) : ∃ t, x = .done v t := by
  cases x with
  | done w t => exact ⟨t, by rw [Option.some.inj h]⟩
  | argumentError _ => exact absurd h (by simp [valueOf])
  | commandError _ _ => exact absurd h (by simp [valueOf])
  | unanswered _ => exact absurd h (by simp [valueOf])
  | fault _ => exact absurd h (by simp [valueOf])
  | refused _ => exact absurd h (by simp [valueOf])

theorem test_hyp_ShuffleIsAPermutation : ∃ t, shuffle ⟨0, 0#32⟩ [7, 8, 9] (crafted []) = .done [8, 9, 7] t :=
  done_of_valueOf (by decide +kernel)

/-- An idle block and weights with a zero among them; and each kind of refused weights. -/
theorem test_hyp_WeightedChoiceFollowsTheCumulativeWeights :
    (after42.inReset = false ∧ after42.busy = false ∧ [1, 2, 3].length = [20#32, 0#32, 50#32].length ∧
      0 < weightTotal [20#32, 0#32, 50#32] ∧ weightTotal [0xFFFFFFFF#32] ≤ 0xFFFFFFFF) ∧
    [1, 2].length ≠ [1#32].length ∧ weightTotal [0#32] = 0 ∧ 0xFFFFFFFF < weightTotal [0xFFFFFFFF#32, 1#32] := by decide

theorem test_hyp_CloneCopiesTheGenerator :
    legal after42 = true ∧ after42.inReset = false ∧ State.reset.inReset = false ∧ after42.busy = false ∧
    State.reset.busy = false := by decide +kernel

end Sys2Proof.Tests
end

section
/-! The register map inverts `Reg.offset`, a served read while idle, and what a refill in the sentinel state leaves: the
lemmas of the state window (R55). -/

namespace Sys2Proof.Machine

/-- The words lie above every control register of the map (R52). -/
theorem controlMap_lookup_of_wordBase_le {offset : Nat} (h : wordBase ≤ offset) : controlMap.lookup offset = none := by
  rw [List.lookup_eq_none_iff]
  intro p hp
  have below : ∀ q ∈ controlMap, q.1 < wordBase := by decide
  exact bne_iff_ne.mpr (Nat.ne_of_gt ((below p hp).trans_le h))

/-- Each register is the one at its own offset (R52). -/
theorem regAt_offset (r : Reg) : regAt r.offset = some r := by
  cases r with
  | word i =>
    have inWindow : wordBase ≤ wordBase + 4 * i.val ∧ wordBase + 4 * i.val < wordBase + 4 * 624 ∧
        (wordBase + 4 * i.val) % 4 = 0 := by
      simp only [wordBase]
      omega
    simp [regAt, Reg.offset, controlMap_lookup_of_wordBase_le inWindow.1, inWindow]
  | _ => rfl

/-- A served read while idle answers the register's value and changes nothing else (R57). -/
theorem busRead_idle (r : Reg) {s : State} (h : s.busy = false) :
    busRead r s = { s with bus := .data (readReg r s) } := by
  simp [busRead, h]

/-- In the sentinel state, what a refill leaves depends on the configuration alone, not on the old words. -/
theorem refill_words_sentinel {s : State} (h : s.index = 625#10) :
    (refill s).words = twistWords s.cfgM.toNat s.cfgMatrixA (seedWords 5489#32) := by
  rw [refill_sentinel h, twist_words]
  rfl

/-- In the sentinel state, a raw draw reads word 0 of the re-seeded and twisted words (R104, R110). -/
theorem nextRaw_value_sentinel {s : State} (h : s.index = 625#10) :
    (nextRaw s).1 = temper (wordAt (twistWords s.cfgM.toNat s.cfgMatrixA (seedWords 5489#32)) 0) := by
  rw [nextRaw_value, refill_words_sentinel h, refill_sentinel h, twist_index]
  rfl

/-- In the sentinel state, TWIST re-seeds with 5489 before it twists (R104, R113). -/
theorem exec_twist_sentinel {s : State} (h : s.index = 625#10) :
    exec .twist s = .next (completeOk (twist (seed 5489#32 (beginCommand s)))) := by
  have seeded : ensureSeeded (beginCommand s) = seed 5489#32 (beginCommand s) := ensureSeeded_sentinel h
  rw [exec, execTwist, seeded]

/-- The words TWIST leaves in the sentinel state depend on the configuration alone, not on the old words. -/
theorem words_of_exec_twist_sentinel {s t : State} (h : s.index = 625#10) (ht : exec .twist s = .next t) :
    t.words = twistWords s.cfgM.toNat s.cfgMatrixA (seedWords 5489#32) := by
  rw [exec_twist_sentinel h, Host.Outcome.next.injEq] at ht
  simp [← ht]

/-- Settles O24: the window goes through the served read and write, and in the sentinel state both a raw draw and TWIST
leave words that are a function of the configuration alone. -/
theorem stateWindowReadsAndWrites : Obligations.StateWindowReadsAndWrites := by
  refine ⟨?read, ?write, ?reseed, ?forget⟩
  case read =>
    intro i s hreset hidle
    rw [perform_rd (regAt_offset _) hreset, busRead_idle _ hidle]
    rfl
  case write =>
    intro i v s hreset hidle
    refine ⟨setWord s.words i.val v, ?_, fun j => ?_⟩
    · rw [perform_wr (regAt_offset _) hreset, busWrite_taken v (.inl hidle)]
      rfl
    · rw [wordAt_setWord, Nat.mod_eq_of_lt i.isLt, Nat.mod_eq_of_lt j.isLt]
      simp only [Fin.ext_iff, eq_comm]
  case reseed =>
    intro s h
    exact ⟨by simp [nextRaw_words, refill_words_sentinel h], _, exec_twist_sentinel h, by simp⟩
  case forget =>
    intro s t hs ht hm ha
    refine ⟨?_, ?_, fun s' t' hs' ht' => ?_⟩
    · rw [nextRaw_value_sentinel hs, nextRaw_value_sentinel ht, hm, ha]
    · rw [nextRaw_words, nextRaw_words, refill_words_sentinel hs, refill_words_sentinel ht, hm, ha]
    · rw [words_of_exec_twist_sentinel hs hs', words_of_exec_twist_sentinel ht ht', hm, ha]

end Sys2Proof.Machine
end

section
/-! The decoder as the opcode map: it reads every command word as its command, and a word below 256 by its number alone;
O1. -/

namespace Sys2Proof.Machine

/-- `OPC` is the word's number modulo 256 (R70). -/
@[simp] theorem opcField_toNat (c : Word) : (opcField c).toNat = c.toNat % 256 := by
  simp [opcField]

/-- `RSVD` is zero exactly in the words below 256 (R70). -/
theorem rsvdField_eq_zero_iff (c : Word) : rsvdField c = 0#24 ↔ c.toNat < 256 := by
  have value : (rsvdField c).toNat = c.toNat / 256 := by
    rw [rsvdField, BitVec.extractLsb'_toNat, Nat.shiftRight_eq_div_pow]
    have := c.isLt
    omega
  rw [BitVec.toNat_eq, value]
  exact Nat.div_eq_zero_iff_lt (by decide)

/-- A word whose `RSVD` is zero decodes by its number (R76). -/
theorem decode_of_lt {c : Word} (h : c.toNat < 256) : decode c = decodeOpc c.toNat := by
  rw [decode, if_pos ((rsvdField_eq_zero_iff c).2 h), opcField_toNat, Nat.mod_eq_of_lt h]

/-- A word with a bit of `RSVD` set is illegal (R75). -/
theorem decode_of_le {c : Word} (h : 256 ≤ c.toNat) : decode c = .error .reservedBits := by
  rw [decode, if_neg (mt (rsvdField_eq_zero_iff c).1 h.not_gt)]

/-- The opcodes 0 and above 0x11 are unassigned (R74). -/
theorem decodeOpc_unassigned {n : Nat} (h : n = 0 ∨ 0x11 < n) : decodeOpc n = .error .unassignedOpcode := by
  unfold decodeOpc
  split
  case h_18 => rfl
  all_goals omega

/-- The decoder reads each command's word as that command (R76). -/
@[simp] theorem decode_encode (i : Instr) : decode (encode i) = .ok i := by
  cases i <;> rfl

/-- Settles O1: the rows are `decode_encode` at each command, and any other word has a bit of `RSVD` set or an unassigned
`OPC`. -/
theorem decodeIsTheOpcodeMap : Obligations.DecodeIsTheOpcodeMap := by
  refine ⟨decode_encode .seed, decode_encode .seedent, decode_encode .twist, decode_encode .next, decode_encode .bool,
    decode_encode .int, decode_encode .uint, decode_encode .ruint, decode_encode .float, decode_encode .double,
    decode_encode .byte, decode_encode .char, decode_encode .alnum, decode_encode .normal, decode_encode .expon,
    decode_encode .poisson, decode_encode .pseudo, fun c h => ?others⟩
  case others =>
    rcases lt_or_ge c.toNat 256 with below | above
    · exact ⟨_, (decode_of_lt below).trans (decodeOpc_unassigned h)⟩
    · exact ⟨_, decode_of_le above⟩

end Sys2Proof.Machine
end

section
/-! The seed's recurrence, and the in-place recurrence that the twist's forward pass computes; O28 and O31. -/

namespace Sys2Proof.Machine

/-- One seeding step is the arithmetic of R102 modulo 2^32. -/
theorem seedNext_toNat (p : Word) (i : Nat) :
    (seedNext p i).toNat = (1812433253 * (p ^^^ (p >>> 30)).toNat + i) % 2 ^ 32 := by
  simp [seedNext, Config.seedMultiplier]

/-- Settles O28: the words are `seedWords v`, whose word `i + 1` is one seeding step from word `i`. -/
theorem seedFollowsItsRecurrence : Obligations.SeedFollowsItsRecurrence := by
  intro v s
  refine ⟨seedWords v, rfl, wordAt_seedWords v (by decide), fun i hi => ?_⟩
  rw [wordAt_seedWords v (by omega), wordAt_seedWords v (by omega)]
  exact seedNext_toNat (seedWord v i) (i + 1)

section Pass

variable (m : Nat) (a : Word) (w : Ram)

/-- After `n` positions of the pass, the words below `n` are the final ones and the others the old ones (R105). -/
theorem wordAt_twistTo {n i : Nat} (hn : n ≤ 624) (hi : i < 624) :
    wordAt (twistTo m a w n) i = if i < n then wordAt (twistWords m a w) i else wordAt w i := by
  split
  case isTrue h => rw [twistWords_eq, wordAt_twistTo_below m a w h hn, wordAt_twistTo_below m a w hi le_rfl]
  case isFalse h => exact wordAt_twistTo_above m a w (not_lt.1 h) hi

/-- Before its own update, position `n` sees the word `k` further on as the old one up to 623, and as the final one where
the index wraps (R105). -/
theorem wordAt_twistTo_ahead {n k : Nat} (hn : n < 624) (hk : k < 624) :
    wordAt (twistTo m a w n) (n + k) =
      if n + k < 624 then wordAt w (n + k) else wordAt (twistWords m a w) (n + k - 624) := by
  split
  case isTrue h => exact wordAt_twistTo_above m a w (Nat.le_add_right n k) h
  case isFalse h =>
    have wraps : (n + k) % 624 = n + k - 624 := by omega
    rw [← wordAt_mod, wraps, wordAt_twistTo m a w hn.le (by omega), if_pos (by omega)]

/-- The final word of a position is what its own update writes (R106). -/
theorem wordAt_twistWords {i : Nat} (hi : i < 624) :
    wordAt (twistWords m a w) i = wordAt (twistTo m a w i) (i + m) ^^^
      twistMix a (twistJoin (wordAt (twistTo m a w i) i) (wordAt (twistTo m a w i) (i + 1))) := by
  rw [twistWords_eq, wordAt_twistTo_below m a w hi le_rfl, twistTo, twistAt, wordAt_setWord_self]

end Pass

/-- Settles O31: position `i` reads its own word, the next one and the one `m` further on, each old or final as
`wordAt_twistTo_ahead` says. -/
theorem twistIsTheInPlaceRecurrence : Obligations.TwistIsTheInPlaceRecurrence := by
  intro s _ hm
  refine ⟨_, rfl, fun i hi => ?_⟩
  have ahead := wordAt_twistTo_ahead s.cfgM.toNat s.cfgMatrixA s.words hi (show 1 < 624 by decide)
  have wrapped : i + 1 - 624 = 0 := by omega
  have iff_lt : i + 1 < 624 ↔ i < 623 := Nat.add_lt_add_iff_right
  simp only [iff_lt, wrapped] at ahead
  rw [wordAt_twistWords _ _ _ hi, wordAt_twistTo_ahead _ _ _ hi (Nat.lt_succ_of_le hm),
    wordAt_twistTo_above _ _ _ le_rfl hi, ahead]
  rfl

end Sys2Proof.Machine
end

section
/-! A raw draw written out in its three cases, and where a refill seeds and twists; O29 and O34. -/

namespace Sys2Proof.Machine

open Sys2Proof.Safety

/-- From 624 up, a refill is lazy seeding and one twist (R110). -/
theorem refill_of_le {s : State} (h : 624 ≤ s.index.toNat) : refill s = twist (ensureSeeded s) := if_pos h

/-- A draw whose refill ends in a twist reads the new word 0. -/
theorem nextRaw_of_refill_eq_twist {s u : State} (h : refill s = twist u) :
    nextRaw s = (temper (wordAt (twist u).words 0), { twist u with index := 1#10, draws := u.draws + 1 }) := by
  rw [nextRaw, h]
  rfl

/-- Settles O34: the refill is nothing below 624, a twist at 624, and the default seed and a twist at the sentinel. -/
theorem rawDrawReadsTheCursorsWord : Obligations.RawDrawReadsTheCursorsWord := by
  refine ⟨fun s h => ?below, fun s h => ?boundary, fun s h => ?sentinel, nextRaw_index_range⟩
  case below => rw [nextRaw, refill_below h]
  case boundary => exact nextRaw_of_refill_eq_twist (refill_at h)
  case sentinel => exact nextRaw_of_refill_eq_twist (refill_sentinel h)

/-- Lazy seeding looks at the cursor alone, so it does not see the count's reset. -/
theorem ensureSeeded_started (s : State) : ensureSeeded (started s) = started (ensureSeeded s) := by
  rw [ensureSeeded, ensureSeeded, apply_ite started]
  rfl

/-- A completion that drew nothing: `RES` stays and `LAST_DRAWS` is 0 (R34, R246). -/
theorem completeOk_undrawn {s g : State} (h : DrewFrom (started s) g) (hd : g.draws = 0) :
    completeOk g = completed s g s.res 0#32 := by
  rw [completeOk_eq_completed h, hd]
  rfl

/-- TWIST completes in every state with lazy seeding and one twist (R113). -/
theorem exec_twist (s : State) :
    exec .twist s = .next (completed s (twist (ensureSeeded (started s))) s.res 0#32) := by
  have frame : DrewFrom (started s) (twist (ensureSeeded (started s))) :=
    (drewFrom_ensureSeeded _).trans (drewFrom_twist _)
  have undrawn : (twist (ensureSeeded (started s))).draws = 0 := ensureSeeded_draws _
  exact congrArg Host.Outcome.next (completeOk_undrawn frame undrawn)

/-- Settles O29: the two callers are the refill of a raw draw and TWIST. -/
theorem lazySeedingOnlyAtTheSentinel : Obligations.LazySeedingOnlyAtTheSentinel := by
  refine fun s => ⟨ensureSeeded_sentinel, ensureSeeded_seeded, fun h => ?draw, fun t ht => ?command⟩
  case draw => rw [nextRaw_words, refill_of_le h]
  case command =>
    rw [exec_twist, ensureSeeded_started, Host.Outcome.next.injEq] at ht
    rw [← ht]
    rfl

end Sys2Proof.Machine
end

section
/-! Tempering loses nothing: each of its steps xors in a shift, which fixes no word but 0. -/

namespace Sys2Proof.Machine

theorem xor_and_distrib (x y c : Word) : (x ^^^ y) &&& c = (x &&& c) ^^^ (y &&& c) := by
  apply BitVec.eq_of_toNat_eq
  simp [Nat.and_xor_distrib_right]

/-- Xoring in an xor-linear map that fixes no word but 0 is injective. -/
theorem xor_linear_injective {f : Word → Word} (linear : ∀ x y, f (x ^^^ y) = f x ^^^ f y)
    (fixed : ∀ d, f d = d → d = 0#32) : Function.Injective fun x => x ^^^ f x := by
  intro x y (h : x ^^^ f x = y ^^^ f y)
  have swapped : f x ^^^ f y = x ^^^ y := by
    calc f x ^^^ f y = x ^^^ (x ^^^ f x) ^^^ f y := by simp
      _ = x ^^^ y := by simp [h, BitVec.xor_assoc]
  exact BitVec.xor_eq_zero_iff.1 (fixed _ ((linear x y).trans swapped))

theorem eq_zero_of_ushiftRight_eq {k : Nat} (hk : 0 < k) {d : Word} (h : d >>> k = d) : d = 0#32 := by
  have halved : d.toNat / 2 ^ k = d.toNat := by
    rw [← Nat.shiftRight_eq_div_pow, ← BitVec.toNat_ushiftRight, h]
  have zero : d.toNat = 0 := by
    by_contra pos
    exact (Nat.div_lt_self (Nat.pos_of_ne_zero pos) (Nat.one_lt_two_pow hk.ne')).ne halved
  exact BitVec.eq_of_toNat_eq zero

theorem eq_zero_of_shiftLeft_and_eq {k : Nat} (hk : 0 < k) {c d : Word} (h : (d <<< k) &&& c = d) : d = 0#32 := by
  have bit (i : Nat) : d.getLsbD i = false := by
    induction i using Nat.strong_induction_on with
    | _ i ih =>
      rw [← h, BitVec.getLsbD_and, BitVec.getLsbD_shiftLeft]
      rcases Nat.lt_or_ge i k with below | above
      · simp [below]
      · simp [ih (i - k) (by omega)]
  exact BitVec.eq_of_getLsbD_eq fun i _ => by rw [bit i, BitVec.getLsbD_zero]

/-- The first and the last step of tempering (R108). -/
theorem xor_ushiftRight_injective {k : Nat} (hk : 0 < k) : Function.Injective fun x : Word => x ^^^ (x >>> k) :=
  xor_linear_injective (fun x y => BitVec.ushiftRight_xor_distrib x y k) fun _ => eq_zero_of_ushiftRight_eq hk

/-- The two middle steps of tempering (R108). -/
theorem xor_shiftLeft_and_injective {k : Nat} (hk : 0 < k) (c : Word) :
    Function.Injective fun x : Word => x ^^^ ((x <<< k) &&& c) :=
  xor_linear_injective (fun x y => by rw [BitVec.shiftLeft_xor_distrib, xor_and_distrib])
    fun _ => eq_zero_of_shiftLeft_and_eq hk

/-- Tempering is injective, step by step (R109). -/
theorem temper_injective : Function.Injective temper :=
  (xor_ushiftRight_injective (k := 18) (by decide)).comp <|
    (xor_shiftLeft_and_injective (k := 15) (by decide) Config.temperC).comp <|
    (xor_shiftLeft_and_injective (k := 7) (by decide) Config.temperB).comp <|
    xor_ushiftRight_injective (k := 11) (by decide)

/-- `temper(0) = 0`, and of no other word (R109). -/
theorem temper_eq_zero_iff (y : Word) : temper y = 0#32 ↔ y = 0#32 :=
  temper_injective.eq_iff' (by decide)

end Sys2Proof.Machine
end

section
/-! The commands SEED, TWIST and NEXT complete in every state; O36, O38 and O39. -/

namespace Sys2Proof.Machine

open Sys2Proof.Safety

/-- SEED completes in every state with the low half of its operand (R111). -/
theorem exec_seed (s : State) :
    exec .seed s = .next (completed s (seed (s.operand0.extractLsb' 0 32) (started s)) s.res 0#32) :=
  congrArg Host.Outcome.next (completeOk_undrawn (drewFrom_seed _ _) rfl)

/-- NEXT completes in every state with one raw draw (R114). -/
theorem exec_next_eq (s : State) :
    exec .next s = .next (completed s (nextRaw (started s)).2 ((nextRaw (started s)).1.zeroExtend 64) 1#32) :=
  congrArg Host.Outcome.next (completeValue_one s _)

/-- Settles O36: SEED leaves the cursor at 624, so the next refill is one twist. -/
theorem seedCompletes : Obligations.SeedCompletes := by
  refine ⟨rfl, exec_seed, fun s t ht => ?twistsNext, fun s h => ?lazy, ?zeroSeed⟩
  case twistsNext =>
    rw [exec_seed, Host.Outcome.next.injEq] at ht
    have cursor : t.index = 624#10 := by rw [← ht]; rfl
    rw [nextRaw_of_refill_eq_twist (refill_at cursor)]
    exact ⟨rfl, rfl⟩
  case lazy => rw [ensureSeeded_sentinel h]; rfl
  case zeroSeed => rw [wordAt_seedWords _ (by decide)]; rfl

/-- Settles O38: TWIST leaves the cursor at 0, so the next draw reads word 0 without a refill. -/
theorem twistCompletes : Obligations.TwistCompletes := by
  refine ⟨rfl, fun s h => ?seeded, fun s h => ?sentinel, fun s t ht => ?nextDraw⟩
  case seeded => rw [exec_twist, ensureSeeded_seeded (s := started s) h]
  case sentinel => rw [exec_twist, ensureSeeded_sentinel (s := started s) h]; rfl
  case nextDraw =>
    rw [exec_twist, Host.Outcome.next.injEq] at ht
    have cursor : t.index = 0#10 := by rw [← ht]; rfl
    have below : refill t = t := refill_below (by rw [cursor]; decide)
    rw [nextRaw, below, cursor]
    exact ⟨rfl, rfl, rfl⟩

/-- Settles O39: one draw, zero-extended; tempering is injective and keeps 0. -/
theorem nextCompletes : Obligations.NextCompletes :=
  ⟨rfl, exec_next_eq, temper_eq_zero_iff⟩

end Sys2Proof.Machine
end

section
/-! The mapping policy: what a mapped draw is, the range it lies in, and the words it fits; R131 and R139. -/

namespace Sys2Proof.Machine

/-- A mapped draw lies in the `span` values from `lo` up (R139). -/
theorem mapRange_bounds (lo : Int) {span : Nat} (pos : 0 < span) (s : State) :
    lo ≤ (mapRange lo span s).1 ∧ (mapRange lo span s).1 < lo + span := by
  have below : (nextRaw s).1.toNat % span < span := Nat.mod_lt _ pos
  simp only [mapRange]
  omega

/-- An unsigned word of `w` bits keeps a mapped draw whole when the range fits it (R131: "exact integer arithmetic, no
wrap"). -/
theorem toNat_ofInt_mapRange {w lo span : Nat} (pos : 0 < span) (fits : lo + span ≤ 2 ^ w) (s : State) :
    (BitVec.ofInt w (mapRange lo span s).1).toNat = lo + (nextRaw s).1.toNat % span := by
  have below : (nextRaw s).1.toNat % span < span := Nat.mod_lt _ pos
  have value : (mapRange lo span s).1 = ((lo + (nextRaw s).1.toNat % span : Nat) : Int) := rfl
  rw [value, BitVec.ofInt_natCast, BitVec.toNat_ofNat, Nat.mod_eq_of_lt (by omega)]

/-- A signed word keeps a mapped draw between two signed words whole (R132: "v fits in i32"). -/
theorem toInt_ofInt_mapRange {lo hi : Word} {span : Nat} (h : lo.toInt ≤ hi.toInt)
    (hspan : (span : Int) = hi.toInt - lo.toInt + 1) (s : State) :
    (BitVec.ofInt 32 (mapRange lo.toInt span s).1).toInt = (mapRange lo.toInt span s).1 := by
  have bounds := mapRange_bounds lo.toInt (span := span) (by omega) s
  have least := lo.le_toInt
  have greatest := hi.toInt_lt
  exact BitVec.toInt_ofInt_eq_self (by decide) (by omega) (by omega)

end Sys2Proof.Machine
end

section
/-! INT, UINT and RUINT check their operands, then complete with one mapped draw; O40, O41 and O42. -/

namespace Sys2Proof.Machine

open Sys2Proof.Safety

section Commands

variable {s : State}

/-- INT with its operands in order completes with one mapped draw (R132). -/
theorem exec_int_of_le (h : operandI32 s.operand0 ≤ operandI32 s.operand1) :
    exec .int s = .next (completed s (nextRaw (started s)).2
      (resultI32 (mapRange (operandI32 s.operand0) (operandI32 s.operand1 - operandI32 s.operand0 + 1).toNat
        (started s)).1) 1#32) :=
  (if_neg h.not_gt).trans (congrArg Host.Outcome.next (completeValue_one s _))

/-- UINT with its operands in order completes with one mapped draw (R133). -/
theorem exec_uint_of_le (h : (operandU32 s.operand0).toNat ≤ (operandU32 s.operand1).toNat) :
    exec .uint s = .next (completed s (nextRaw (started s)).2
      (resultU32 (BitVec.ofInt 32 (mapRange (operandU32 s.operand0).toNat
        ((operandU32 s.operand1).toNat - (operandU32 s.operand0).toNat + 1) (started s)).1)) 1#32) :=
  (if_neg h.not_gt).trans (congrArg Host.Outcome.next (completeValue_one s _))

/-- RUINT with its operands in strict order completes with one mapped draw (R134). -/
theorem exec_ruint_of_lt (h : (operandU32 s.operand0).toNat < (operandU32 s.operand1).toNat) :
    exec .ruint s = .next (completed s (nextRaw (started s)).2
      (resultU32 (BitVec.ofInt 32 (mapRange (operandU32 s.operand0).toNat
        ((operandU32 s.operand1).toNat - (operandU32 s.operand0).toNat) (started s)).1)) 1#32) :=
  (if_neg h.not_ge).trans (congrArg Host.Outcome.next (completeValue_one s _))

/-- INT with its operands out of order fails before any draw (R130, R132). -/
theorem exec_int_of_gt (h : operandI32 s.operand1 < operandI32 s.operand0) :
    exec .int s = .next (failed s argumentError) :=
  if_pos h

/-- UINT with its operands out of order fails before any draw (R130, R133). -/
theorem exec_uint_of_gt (h : (operandU32 s.operand1).toNat < (operandU32 s.operand0).toNat) :
    exec .uint s = .next (failed s argumentError) :=
  if_pos h

/-- RUINT with an empty range fails before any draw (R130, R134). -/
theorem exec_ruint_of_ge (h : (operandU32 s.operand1).toNat ≤ (operandU32 s.operand0).toNat) :
    exec .ruint s = .next (failed s argumentError) :=
  if_pos h

end Commands

/-- Settles O40: the signed word keeps the mapped draw whole. -/
theorem intCompletesInItsRange : Obligations.IntCompletesInItsRange := by
  refine ⟨rfl, fun s h => ⟨_, exec_int_of_le h, ?_⟩, fun s => exec_int_of_gt⟩
  have positive : 0 < ((s.operand1.extractLsb' 0 32).toInt - (s.operand0.extractLsb' 0 32).toInt + 1).toNat := by omega
  have span := Int.toNat_of_nonneg (Int.le_add_one (Int.sub_nonneg_of_le h))
  have bounds := mapRange_bounds (s.operand0.extractLsb' 0 32).toInt positive (started s)
  rw [operandI32, operandI32, toInt_ofInt_mapRange h span]
  refine ⟨?value, bounds.1, by omega⟩
  case value => rw [mapRange, Int.natCast_mod, span]

/-- Settles O41: the word keeps the mapped draw whole, and over the full range the remainder by 2^32 is the raw value. -/
theorem uintCompletesInItsRange : Obligations.UintCompletesInItsRange := by
  refine ⟨rfl, fun s h => ⟨_, exec_uint_of_le h, ?_⟩, fun s => exec_uint_of_gt⟩
  have positive : 0 < (s.operand1.extractLsb' 0 32).toNat - (s.operand0.extractLsb' 0 32).toNat + 1 := Nat.succ_pos _
  have value := toNat_ofInt_mapRange (w := 32) (lo := (s.operand0.extractLsb' 0 32).toNat) positive (by omega) (started s)
  have below := Nat.mod_lt (nextRaw (started s)).1.toNat positive
  rw [operandU32, operandU32, value]
  refine ⟨rfl, by omega, by omega, fun hlo hhi => ?full⟩
  case full =>
    apply BitVec.eq_of_toNat_eq
    rw [value, hlo, hhi]
    exact (Nat.zero_add _).trans (Nat.mod_eq_of_lt (nextRaw (started s)).1.isLt)

/-- Settles O42: the word keeps the mapped draw whole. -/
theorem rangedUintCompletesInItsRange : Obligations.RangedUintCompletesInItsRange := by
  refine ⟨rfl, fun s h => ⟨_, exec_ruint_of_lt h, ?_⟩, fun s => exec_ruint_of_ge⟩
  have positive := Nat.sub_pos_of_lt h
  have value := toNat_ofInt_mapRange (w := 32) (lo := (s.operand0.extractLsb' 0 32).toNat) positive (by omega) (started s)
  have below := Nat.mod_lt (nextRaw (started s)).1.toNat positive
  rw [operandU32, operandU32, value]
  exact ⟨rfl, by omega, by omega⟩

end Sys2Proof.Machine
end

section
/-! BYTE, CHAR and ALNUM complete in every state, and what the alphabet's codes are; O43. -/

namespace Sys2Proof.Machine

open Sys2Proof.Safety

/-- BYTE completes in every state with the raw value's low byte (R135). -/
theorem exec_byte (s : State) :
    exec .byte s = .next (completed s (nextRaw (started s)).2
      (resultCode ((nextRaw (started s)).1.extractLsb' 0 8)) 1#32) :=
  congrArg Host.Outcome.next (completeValue_one s _)

/-- CHAR completes in every state with one mapped draw (R136). -/
theorem exec_char (s : State) :
    exec .char s = .next (completed s (nextRaw (started s)).2
      (resultCode (BitVec.ofInt 8 (mapRange 0x61 26 (started s)).1)) 1#32) :=
  congrArg Host.Outcome.next (completeValue_one s _)

/-- ALNUM completes in every state with the character at one mapped draw (R137). -/
theorem exec_alnum (s : State) :
    exec .alnum s = .next (completed s (nextRaw (started s)).2
      (resultCode (alphabet (mapRange 0 62 (started s)).1.toNat)) 1#32) :=
  congrArg Host.Outcome.next (completeValue_one s _)

/-- A code's result is the code (R73). -/
@[simp] theorem resultCode_toNat (v : Byte) : (resultCode v).toNat = v.toNat :=
  BitVec.toNat_setWidth_of_le (by decide)

/-- A mapped draw from 0 is the remainder (R131). -/
theorem mapRange_zero_toNat (span : Nat) (s : State) :
    (mapRange 0 span s).1.toNat = (nextRaw s).1.toNat % span := by
  rw [mapRange, Int.zero_add, Int.toNat_natCast]

/-- The first 26 characters are `A` to `Z` (R137). -/
theorem alphabet_upper {k : Nat} (h : k < 26) : (alphabet k).toNat = 0x41 + k := by
  rw [alphabet, if_pos h, BitVec.toNat_ofNat, Nat.mod_eq_of_lt (by omega)]

/-- The next 26 characters are `a` to `z` (R137). -/
theorem alphabet_lower {k : Nat} (h : 26 ≤ k ∧ k < 52) : (alphabet k).toNat = 0x61 + (k - 26) := by
  rw [alphabet, if_neg h.1.not_gt, if_pos h.2, BitVec.toNat_ofNat, Nat.mod_eq_of_lt (by omega)]

/-- The last ten characters are `0` to `9` (R137). -/
theorem alphabet_digit {k : Nat} (h : 52 ≤ k) (hk : k < 62) : (alphabet k).toNat = 0x30 + (k - 52) := by
  rw [alphabet, if_neg (by omega), if_neg h.not_gt, BitVec.toNat_ofNat, Nat.mod_eq_of_lt (by omega)]

/-- Settles O43: a byte holds each code whole, and the remainder by 62 is a place of the alphabet. -/
theorem byteAndCharactersComplete : Obligations.ByteAndCharactersComplete := by
  refine ⟨rfl, rfl, rfl, fun s => ⟨_, _, _, exec_byte s, exec_char s, exec_alnum s, ?_⟩⟩
  have letter := toNat_ofInt_mapRange (w := 8) (lo := 0x61) (span := 26) (by decide) (by decide) (started s)
  have place : (nextRaw (started s)).1.toNat % 62 < 62 := Nat.mod_lt _ (by decide)
  simp only [resultCode_toNat, mapRange_zero_toNat]
  refine ⟨?byte, letter, ?char, alphabet_upper, alphabet_lower, fun h => alphabet_digit h place⟩
  case byte => simp
  case char => exact letter.trans_le (by omega)

end Sys2Proof.Machine
end

section
/-! PSEUDO as one fold of the raw stream, and the raw stream as what a run of NEXT commands returns; O56. -/

namespace Sys2Proof.Machine

open Sys2Proof.Safety

/-- PSEUDO completes in every state with the exclusive-or of 32 raw draws (R190). -/
theorem exec_pseudo (s : State) :
    exec .pseudo s = .next (completed s (drawMany 32 (started s))
      (((List.range 32).foldl (fun acc k => acc ^^^ rawDraw (started s) k) 0#32).zeroExtend 64) 32#32) := by
  rw [exec, execPseudo, show beginCommand s = started s from rfl, xorDraws_eq,
    completeValue_eq_completed (drewFrom_drawMany _ _), drawMany_draws]
  rfl

/-- A completion leaves the generator that its draws led to. -/
theorem sameGenerator_completed {s g : State} (h : DrewFrom (started s) g) (res : Dword) (lastDraws : Word) :
    sameGenerator (completed s g res lastDraws) g := by
  obtain ⟨_, _, _, rfl⟩ := h
  exact ⟨rfl, rfl, rfl, rfl⟩

theorem sameGenerator_trans {s t u : State} (h : sameGenerator s t) (h' : sameGenerator t u) : sameGenerator s u := by
  obtain ⟨words, index, cfgM, cfgMatrixA⟩ := h
  obtain ⟨words', index', cfgM', cfgMatrixA'⟩ := h'
  exact ⟨words.trans words', index.trans index', cfgM.trans cfgM', cfgMatrixA.trans cfgMatrixA'⟩

theorem sameGenerator_symm {s t : State} (h : sameGenerator s t) : sameGenerator t s := by
  obtain ⟨words, index, cfgM, cfgMatrixA⟩ := h
  exact ⟨words.symm, index.symm, cfgM.symm, cfgMatrixA.symm⟩

/-- NEXT returns the raw draw of any state with its generator, and leaves the generator as that draw does (R114). -/
theorem next_of_sameGenerator {s t g : State} (h : sameGenerator s g) (ht : exec .next s = .next t) :
    t.res = (nextRaw g).1.zeroExtend 64 ∧ sameGenerator t (nextRaw g).2 := by
  obtain ⟨value, generator⟩ := nextRaw_sameGenerator (a := started s) h
  rw [exec_next_eq, Host.Outcome.next.injEq] at ht
  subst ht
  exact ⟨congrArg (BitVec.zeroExtend 64) value,
    sameGenerator_trans (sameGenerator_completed (drewFrom_nextRaw _) _ _) generator⟩

section NextChain

variable {u : Nat → State} {g : State} {n : Nat}

/-- `k` NEXT commands leave the generator as `k` raw draws do. -/
theorem sameGenerator_next_chain (start : sameGenerator (u 0) g)
    (chain : ∀ k, k < n → exec .next (u k) = .next (u (k + 1))) {k : Nat} (hk : k ≤ n) :
    sameGenerator (u k) (drawMany k g) := by
  induction k with
  | zero => exact start
  | succ k ih =>
    rw [drawMany_succ]
    exact (next_of_sameGenerator (ih (by omega)) (chain k hk)).2

/-- NEXT number `k` of a run returns raw draw number `k`. -/
theorem res_next_chain (start : sameGenerator (u 0) g)
    (chain : ∀ k, k < n → exec .next (u k) = .next (u (k + 1))) {k : Nat} (hk : k < n) :
    (u (k + 1)).res = (rawDraw g k).zeroExtend 64 :=
  (next_of_sameGenerator (sameGenerator_next_chain start chain hk.le) (chain k hk)).1

/-- Zero extension commutes with the fold, so the results of a run fold to the fold of the raw draws. -/
theorem foldl_xor_res_next_chain (start : sameGenerator (u 0) g)
    (chain : ∀ k, k < n → exec .next (u k) = .next (u (k + 1))) :
    (List.range n).foldl (fun acc k => acc ^^^ (u (k + 1)).res) 0#64 =
      ((List.range n).foldl (fun acc k => acc ^^^ rawDraw g k) 0#32).zeroExtend 64 := by
  calc (List.range n).foldl (fun acc k => acc ^^^ (u (k + 1)).res) 0#64
      = (List.range n).foldl (fun acc k => acc ^^^ (rawDraw g k).zeroExtend 64) ((0#32).zeroExtend 64) :=
        List.foldl_ext _ _ _ fun acc k hk => by rw [res_next_chain start chain (List.mem_range.1 hk)]
    _ = ((List.range n).foldl (fun acc k => acc ^^^ rawDraw g k) 0#32).zeroExtend 64 :=
        List.foldl_hom (BitVec.zeroExtend 64) fun _ _ => BitVec.setWidth_xor.symm

end NextChain

/-- Settles O56: both PSEUDO and the 32 NEXT commands follow the raw stream of the starting state's generator. -/
theorem pseudoFoldsThirtyTwoDraws : Obligations.PseudoFoldsThirtyTwoDraws := by
  refine ⟨rfl, exec_pseudo, fun s t u ht hu chain => ?_⟩
  subst hu
  rw [exec_pseudo, Host.Outcome.next.injEq] at ht
  subst ht
  have start : sameGenerator (u 0) (started (u 0)) := ⟨rfl, rfl, rfl, rfl⟩
  exact ⟨(foldl_xor_res_next_chain start chain).symm,
    sameGenerator_trans (sameGenerator_completed (drewFrom_drawMany _ _) _ _)
      (sameGenerator_symm (sameGenerator_next_chain start chain le_rfl))⟩

end Sys2Proof.Machine
end

section
/-! The engine's move on a pending word, and the completion of a word that is no command; O9. -/

namespace Sys2Proof.Machine

open Sys2Proof.Safety

/-- Outside reset, the engine's move on a pending word is that word's completion (R246). -/
theorem engineStep_busy {s : State} {c : Word} (released : s.inReset = false) (pending : s.seq = .busy c) :
    engineStep s = completeCommand c s := by
  rw [engineStep, released, pending]
  rfl

/-- The completion of an illegal word is decided from the word alone (R243, R247). -/
theorem completeCommand_illegal {c : Word} {e : DecodeError} (illegal : decode c = .error e) (s : State) :
    completeCommand c s = .next (completeError illegalCommand s) := by
  rw [completeCommand, illegal]

/-- A failed completion changes what `failed` names and nothing else (R246, R249). -/
theorem completeError_eq_failed (code : BitVec 4) (s : State) : completeError code s = failed s code :=
  completeError_eq code s

/-- Settles O9: the engine's move is the pending word's completion, which fails with code 3 where the word does not
decode. -/
theorem illegalWordCompletesWithCode3 : Obligations.IllegalWordCompletesWithCode3 := by
  intro s c e released pending illegal
  calc perform .engine s = completeCommand c s := engineStep_busy released pending
    _ = .next (completeError illegalCommand s) := completeCommand_illegal illegal s
    _ = .next (failed s 3#4) := congrArg Host.Outcome.next (completeError_eq_failed illegalCommand s)

end Sys2Proof.Machine
end

section
/-! A host write outside reset as the bus serves it: to `STATUS`, idle or busy (R37), and to any other register while busy;
O15. -/

namespace Sys2Proof.Machine

/-- Bit 8 of the word written clears `OVR` or keeps it: the two cases of R37's write-one-to-clear. -/
theorem writeStatus_eq (v : Word) (s : State) :
    writeStatus v s = { s with ovr := if v.getLsbD 8 then false else s.ovr } := by
  rw [writeStatus]
  cases v.getLsbD 8 <;> simp

/-- A write to `STATUS` outside reset is taken, idle or busy (R37). -/
theorem perform_wr_status (v : Word) {s : State} (released : s.inReset = false) :
    perform (.host (wr .status v)) s =
      .next { s with ovr := if v.getLsbD 8 then false else s.ovr, bus := .ack } := by
  rw [perform_wr (regAt_offset _) released, busWrite_taken v (.inr rfl), writeReg, writeStatus_eq]

/-- A write outside reset to a register that is not `STATUS` is dropped while busy, and sets `OVR` (R272). -/
theorem perform_wr_busy {r : Reg} (v : Word) {s : State} (released : s.inReset = false) (busy : s.busy = true)
    (other : r ≠ .status) : perform (.host (wr r v)) s = .next { s with ovr := true, bus := .ack } := by
  rw [perform_wr (regAt_offset _) released, busWrite_busy v busy other]

/-- Settles O15: the two outcomes of a served write while busy. -/
theorem busyWritesAreDropped : Obligations.BusyWritesAreDropped :=
  ⟨fun _ v _ => perform_wr_busy v, fun v _ released _ => perform_wr_status v released⟩

end Sys2Proof.Machine
end

section
/-! A command word as its `OPC`, the decoder as the encoder's inverse, and a word as its four lanes; O2 and O3. -/

namespace Sys2Proof.Machine

/-- A command word's number is its `OPC` (R70, R71). -/
theorem encode_toNat (i : Instr) : (encode i).toNat = i.opc.toNat := by
  cases i <;> rfl

/-- The opcode map names each command by its `OPC` alone (R74). -/
theorem opc_toNat_of_decodeOpc {n : Nat} {i : Instr} (h : decodeOpc n = .ok i) : n = i.opc.toNat := by
  unfold decodeOpc at h
  split at h <;> cases h <;> rfl

/-- Only its own word decodes to a command (R74, R75). -/
theorem eq_encode_of_decode {c : Word} {i : Instr} (h : decode c = .ok i) : c = encode i := by
  rcases lt_or_ge c.toNat 256 with below | above
  · rw [decode_of_lt below] at h
    exact BitVec.eq_of_toNat_eq ((opc_toNat_of_decodeOpc h).trans (encode_toNat i).symm)
  · rw [decode_of_le above] at h
    cases h

/-- Settles O2: a word that decodes has `RSVD = 0` and its command's `OPC`, and each command's word decodes to it. -/
theorem decodeAndEncodeAgree : Obligations.DecodeAndEncodeAgree :=
  fun _ i => ⟨eq_encode_of_decode, fun h => h ▸ decode_encode i⟩

/-- A word is the concatenation of its lanes (R54). -/
theorem wordOfLanes_laneOf (v : Word) : wordOfLanes (laneOf v 0) (laneOf v 1) (laneOf v 2) (laneOf v 3) = v := by
  simp only [wordOfLanes, laneOf]
  iterate 3 rw [BitVec.extractLsb'_append_extractLsb'_eq_extractLsb' (by decide)]
  exact BitVec.extractLsb'_eq_self

/-- Settles O3: the four lanes of a command word are rebuilt to it, and it decodes. -/
theorem lanesRebuildTheWord : Obligations.LanesRebuildTheWord := by
  refine ⟨fun i rest => ?bytes, wordOfLanes_laneOf⟩
  case bytes =>
    show decodeBytes (_ :: _ :: _ :: _ :: rest) = _
    rw [decodeBytes, wordOfLanes_laneOf, decode_encode]

end Sys2Proof.Machine
end

section
/-! The register map over exactly the offsets of R52, and the accesses that reach a register; O11 and O12. -/

namespace Sys2Proof.Machine

/-- The register at an offset lies at that offset (R52). -/
theorem offset_of_regAt {o : Nat} {r : Reg} (h : regAt o = some r) : r.offset = o := by
  have control : ∀ p ∈ controlMap, p.2.offset = p.1 := by decide
  unfold regAt at h
  split at h
  · rename_i found
    obtain rfl := Option.some.inj h
    exact control _ (mem_of_lookup found)
  · split at h
    · rename_i inWindow
      obtain rfl := Option.some.inj h
      simp only [Reg.offset, wordBase] at inWindow ⊢
      omega
    · cases h

/-- The map holds exactly the aligned offsets up to 0x040 and from 0x1000 to 0x19BC (R52). -/
theorem regAt_ne_none_iff (o : Nat) :
    regAt o ≠ none ↔ o % 4 = 0 ∧ (o ≤ 0x040 ∨ (0x1000 ≤ o ∧ o ≤ 0x19BC)) := by
  constructor
  case mp =>
    intro h
    obtain ⟨r, hr⟩ := Option.ne_none_iff_exists'.1 h
    obtain rfl := offset_of_regAt hr
    cases r with
    | word i =>
      have := i.isLt
      simp only [Reg.offset, wordBase]
      omega
    | _ => decide
  case mpr =>
    rintro ⟨aligned, low | ⟨first, last⟩⟩
    · have control : ∀ k < 17, regAt (4 * k) ≠ none := by decide
      have := control (o / 4) (by omega)
      rwa [show 4 * (o / 4) = o by omega] at this
    · have atWord : o = (Reg.word ⟨(o - 0x1000) / 4, by omega⟩).offset := by
        simp only [Reg.offset, wordBase]
        omega
      rw [atWord, regAt_offset]
      exact Option.some_ne_none _

/-- The window takes exactly the addresses `BASE` to `BASE + 0x1FFF` to their offsets (R50). -/
theorem windowOffset_eq_some_iff (base address o : Nat) :
    windowOffset base address = some o ↔ address = base + o ∧ o < 0x2000 := by
  unfold windowOffset Config.windowSize
  split
  · rw [Option.some.injEq]
    omega
  · simp only [reduceCtorEq, false_iff]
    omega

/-- Every register lies in the window (R50, R52). -/
theorem offset_lt_windowSize (r : Reg) : r.offset < 0x2000 := by
  have mapped := ((regAt_ne_none_iff r.offset).1 (by rw [regAt_offset]; exact Option.some_ne_none r)).2
  omega

/-- Settles O11: `regAt` inverts `Reg.offset` on both sides, and a window shifts every offset by its base. -/
theorem registerMapIsOneToOne : Obligations.RegisterMapIsOneToOne :=
  ⟨⟨rfl, rfl, rfl, rfl, rfl, rfl, rfl, rfl, rfl, rfl, rfl, rfl, rfl, rfl, rfl, rfl, rfl, fun _ => rfl⟩,
    regAt_offset, fun _ _ => offset_of_regAt, regAt_ne_none_iff,
    fun _ r => ⟨rfl, (windowOffset_eq_some_iff _ _ _).2 ⟨rfl, offset_lt_windowSize r⟩⟩, windowOffset_eq_some_iff⟩

/-- A 32-bit access reaches the register at its offset, and an access of another width none (R51). -/
theorem target_eq (a : Access) : a.target = if a.widthOk then regAt a.offset else none := by
  cases a with
  | read w o => cases w <;> rfl
  | write w o v => cases w <;> rfl

/-- An access reaches a register exactly when it is well-formed (R51, R53). -/
theorem target_eq_none_iff (a : Access) : a.target = none ↔ a.wellFormed = false := by
  rw [target_eq, Access.wellFormed]
  cases a.widthOk with
  | false => simp
  | true =>
    rw [if_pos rfl, ← not_ne_iff, regAt_ne_none_iff, Access.aligned, Access.mapped]
    simp

/-- Outside reset, an access is the block's to serve (R260). -/
theorem perform_host (a : Access) {s : State} (released : s.inReset = false) :
    perform (.host a) s = hostAccess a s := by
  simp [perform, released]

/-- An access that reaches a register is answered. -/
theorem hostAccess_of_target {a : Access} {r : Reg} (h : a.target = some r) (s : State) :
    ∃ t, hostAccess a s = .next t := by
  rw [hostAccess, h]
  cases a <;> exact ⟨_, rfl⟩

/-- An access that reaches no register is a bus error (R51, R53). -/
theorem hostAccess_of_no_target {a : Access} (h : a.target = none) (s : State) :
    hostAccess a s = .fault .busError := by
  rw [hostAccess, h]

/-- Settles O12: an access is answered exactly when it reaches a register, which a well-formed one does. -/
theorem busErrorExactlyForIllFormedAccesses : Obligations.BusErrorExactlyForIllFormedAccesses := by
  refine ⟨fun a s released => ?_, fun _ _ => rfl⟩
  rw [perform_host a released, ← target_eq_none_iff]
  cases h : a.target with
  | none =>
    have illFormed := (target_eq_none_iff a).1 h
    exact ⟨⟨fun _ => rfl, fun _ => hostAccess_of_no_target h s⟩, fun wellFormed => by simp [illFormed] at wellFormed⟩
  | some r =>
    obtain ⟨t, ht⟩ := hostAccess_of_target h s
    exact ⟨by simp [ht], fun _ => ⟨t, ht⟩⟩

end Sys2Proof.Machine
end

section
/-! What a served read answers, idle and busy, and the fields of STATUS; O13, O14 and O16. -/

namespace Sys2Proof.Machine

/-- Settles O13: a served read writes the bus record and the free counter only, and while idle answers the register. -/
theorem readsHaveNoSideEffect : Obligations.ReadsHaveNoSideEffect := by
  refine ⟨fun r s released => ?frame, fun r s released idle => ?value,
    fun _ => ⟨rfl, rfl, rfl, rfl, rfl, rfl, rfl, rfl, rfl, rfl, rfl, rfl, fun _ => rfl⟩⟩
  case frame =>
    obtain ⟨b, n, frame⟩ := busRead_frame r s
    exact ⟨b, n, by rw [perform_rd (regAt_offset r) released, frame]⟩
  case value => rw [perform_rd (regAt_offset r) released, busRead_idle r idle]

/-- A served read of anything but `STATUS` while busy answers a free value (R273). -/
theorem busRead_busy {r : Reg} {s : State} (busy : s.busy = true) (other : r ≠ .status) :
    busRead r s = { s with bus := .data (Config.busyRead s.free), free := s.free + 1 } := by
  simp [busRead, busy, other]

/-- A served read of `STATUS` answers it, idle or busy (R273). -/
theorem busRead_status (s : State) : busRead .status s = { s with bus := .data (statusWord s) } := by
  simp [busRead, readReg]

/-- The fields of a word laid out as `STATUS` lays them, whatever they hold (R37). -/
theorem status_layout (sent ovr : Bool) (code : BitVec 4) (err busy : Bool) :
    let w : Word := 0#22 ++ BitVec.ofBool sent ++ BitVec.ofBool ovr ++ code ++ 0#2 ++ BitVec.ofBool err ++ BitVec.ofBool busy
    w.getLsbD 0 = busy ∧ w.getLsbD 1 = err ∧ w.extractLsb' 2 2 = 0#2 ∧ w.extractLsb' 4 4 = code ∧ w.getLsbD 8 = ovr ∧
      w.getLsbD 9 = sent ∧ w.extractLsb' 10 22 = 0#22 := by
  revert sent ovr code err busy
  decide

/-- Bit 0 of `STATUS` is `BUSY` (R37). -/
theorem statusWord_busy (s : State) : (statusWord s).getLsbD 0 = s.busy :=
  (status_layout s.sent s.ovr s.errCode s.err s.busy).1

/-- Bit 1 of `STATUS` is `ERR` (R37). -/
theorem statusWord_err (s : State) : (statusWord s).getLsbD 1 = s.err := by
  obtain ⟨-, err, -⟩ := status_layout s.sent s.ovr s.errCode s.err s.busy
  exact err

/-- `BUSY` reads 1 exactly while a command word is pending (R25). -/
theorem busy_iff (s : State) : s.busy = true ↔ ∃ c, s.seq = .busy c := by
  rw [State.busy]
  cases s.seq <;> simp

/-- `SENT` reads 1 exactly at the cursor value 625 (R37). -/
theorem sent_iff (s : State) : s.sent = true ↔ s.index = 625#10 := decide_eq_true_iff

/-- Settles O14: the two outcomes of a served read while busy. -/
theorem busyReadsAreFreeButStatus : Obligations.BusyReadsAreFreeButStatus := by
  refine ⟨fun r s released busy other => ?free, fun s released busy => ⟨?status, ?bit⟩⟩
  case free => rw [perform_rd (regAt_offset r) released, busRead_busy busy other]
  case status => rw [perform_rd (regAt_offset .status) released, busRead_status]
  case bit => rw [statusWord_busy, busy]

/-- Settles O16: the layout of `statusWord`, and the write of O15, idle or busy. -/
theorem statusFieldsAndWrites : Obligations.StatusFieldsAndWrites := by
  refine ⟨fun s => ?fields, fun v _ released => perform_wr_status v released⟩
  case fields =>
    obtain ⟨busy, err, low, code, ovr, sent, high⟩ := status_layout s.sent s.ovr s.errCode s.err s.busy
    exact ⟨busy, err, low, code, ovr, by rw [← sent_iff, ← sent]; rfl, high, busy_iff s⟩

end Sys2Proof.Machine
end

section
/-! A host write while idle as the register takes it; O17 to O23. -/

namespace Sys2Proof.Machine

/-- While idle and outside reset, a write is taken by its register and acknowledged (R57). -/
theorem perform_wr_idle (r : Reg) (v : Word) {s : State} (released : s.inReset = false) (idle : s.busy = false) :
    perform (.host (wr r v)) s = .next { writeReg r v s with bus := .ack } := by
  rw [perform_wr (regAt_offset r) released, busWrite_taken v (.inl idle)]

/-- While idle and outside reset, a read answers the register (R57). -/
theorem perform_rd_idle (r : Reg) {s : State} (released : s.inReset = false) (idle : s.busy = false) :
    perform (.host (rd r)) s = .next { s with bus := .data (readReg r s) } := by
  rw [perform_rd (regAt_offset r) released, busRead_idle r idle]

/-- Of all words only SEEDENT's makes an entropy request (R38, R112). -/
theorem requestOf_eq (c : Word) : requestOf c = if c = 2#32 then .requested else .quiet := by
  unfold requestOf
  split
  case h_1 h => exact (if_pos (eq_encode_of_decode h)).symm
  case h_2 h => exact (if_neg fun e : c = 2#32 => h (by rw [e]; exact decode_encode .seedent)).symm

/-- Settles O17: the write of `CMD` is `accept`, whose request is `requestOf_eq`. -/
theorem acceptanceLatchesTheCommand : Obligations.AcceptanceLatchesTheCommand := by
  intro c s released idle
  rw [perform_wr_idle .cmd c released idle, ← requestOf_eq]
  rfl

section Halves

variable (d : Dword) (v : Word)

@[simp] theorem loHalf_withLo : loHalf (withLo d v) = v := BitVec.extractLsb'_append_eq_right

@[simp] theorem hiHalf_withLo : hiHalf (withLo d v) = hiHalf d := BitVec.extractLsb'_append_eq_left

@[simp] theorem loHalf_withHi : loHalf (withHi d v) = loHalf d := BitVec.extractLsb'_append_eq_right

@[simp] theorem hiHalf_withHi : hiHalf (withHi d v) = v := BitVec.extractLsb'_append_eq_left

end Halves

/-- Settles O18: each half is replaced alone, and a read answers it. -/
theorem argumentHalvesAreSeparate : Obligations.ArgumentHalvesAreSeparate := by
  intro v s released idle
  refine ⟨⟨withLo s.arg0 v, perform_wr_idle .arg0Lo v released idle, loHalf_withLo _ v, hiHalf_withLo _ v, ?lo0⟩,
    ⟨withHi s.arg0 v, perform_wr_idle .arg0Hi v released idle, hiHalf_withHi _ v, loHalf_withHi _ v, ?hi0⟩,
    ⟨withLo s.arg1 v, perform_wr_idle .arg1Lo v released idle, loHalf_withLo _ v, hiHalf_withLo _ v, ?lo1⟩,
    ⟨withHi s.arg1 v, perform_wr_idle .arg1Hi v released idle, hiHalf_withHi _ v, loHalf_withHi _ v, ?hi1⟩⟩
  all_goals
    rw [perform_rd_idle]
    · simp [readReg]
    · exact released
    · exact idle

/-- Settles O19: the three registers leave the state as it is. -/
theorem readOnlyRegistersIgnoreWrites : Obligations.ReadOnlyRegistersIgnoreWrites := by
  rintro r v s released idle (rfl | rfl | rfl) <;> exact perform_wr_idle _ v released idle

/-- Settles O20: each of the five registers takes a write as `writeHardwired` does with the constant it reads. -/
theorem hardwiredRegistersAreValidated : Obligations.HardwiredRegistersAreValidated := by
  refine ⟨fun _ => ⟨rfl, rfl, rfl, rfl, rfl⟩, fun r v s released idle hardwired => ?_⟩
  have taken : writeReg r v s = writeHardwired (readReg r s) v s := by
    rcases hardwired with rfl | rfl | rfl | rfl | rfl <;> rfl
  rw [perform_wr_idle r v released idle, taken, writeHardwired_eq]
  split <;> rfl

/-- Settles O21: the write's own check is the range of R29. -/
theorem recurrenceOffsetIsValidated : Obligations.RecurrenceOffsetIsValidated := by
  intro v s released idle
  rw [perform_wr_idle .cfgM v released idle, writeReg, writeCfgM]
  exact ⟨fun valid => by rw [if_pos valid]; rfl, fun invalid => by rw [if_neg invalid]; rfl⟩

/-- Settles O22: the write's own check is bit 31. -/
theorem matrixNeedsItsHighBit : Obligations.MatrixNeedsItsHighBit := by
  intro v s released idle
  have highBit : v.getLsbD 31 = decide (2 ^ 31 ≤ v.toNat) := BitVec.msb_eq_decide v
  rw [perform_wr_idle .cfgMatrixA v released idle, writeReg, writeCfgMatrixA, highBit]
  exact ⟨fun valid => by rw [if_pos (decide_eq_true valid)]; rfl,
    fun invalid => by rw [if_neg (by simpa using invalid)]; rfl⟩

/-- A cursor value fits the ten bits of `INDEX` (R22, R56). -/
theorem toNat_cursor_of_le {v : Word} (h : v.toNat ≤ 625) : (v.extractLsb' 0 10).toNat = v.toNat := by
  rw [BitVec.extractLsb'_toNat, Nat.shiftRight_zero, Nat.mod_eq_of_lt (by omega)]

/-- `INDEX` reads back a cursor value zero-extended (R56). -/
theorem zeroExtend_cursor_of_le {v : Word} (h : v.toNat ≤ 625) : (v.extractLsb' 0 10).zeroExtend 32 = v := by
  apply BitVec.eq_of_toNat_eq
  rw [BitVec.zeroExtend, BitVec.toNat_setWidth, toNat_cursor_of_le h, Nat.mod_eq_of_lt v.isLt]

/-- While idle, a write of a cursor value to `INDEX` succeeds (R56). -/
theorem perform_wr_index {v : Word} {s : State} (released : s.inReset = false) (idle : s.busy = false)
    (h : v.toNat ≤ 625) : perform (.host (wr .index v)) s =
      .next { s with index := v.extractLsb' 0 10, err := false, errCode := 0#4, bus := .ack } := by
  rw [perform_wr_idle .index v released idle, writeReg, writeIndex, if_pos h]
  rfl

/-- Settles O23: 624 and 625 are the cursors at which a refill twists, and seeds and twists. -/
theorem cursorWritesAreValidated : Obligations.CursorWritesAreValidated := by
  intro v s released idle
  refine ⟨fun h => ⟨_, perform_wr_index released idle h, toNat_cursor_of_le h, zeroExtend_cursor_of_le h⟩,
    fun h => ?refused, fun t ht => ?forcesTwist, fun t ht => ?reArms⟩
  case refused =>
    rw [perform_wr_idle .index v released idle, writeReg, writeIndex, if_neg h.not_ge]
    rfl
  case forcesTwist =>
    rw [perform_wr_index released idle (by decide), Host.Outcome.next.injEq] at ht
    rw [nextRaw_words, refill_at (by rw [← ht]; rfl), ← ht]
    rfl
  case reArms =>
    rw [perform_wr_index released idle (by decide), Host.Outcome.next.injEq] at ht
    rw [nextRaw_words, refill_sentinel (by rw [← ht]; rfl), ← ht]
    rfl

end Sys2Proof.Machine
end

section
/-! Reset, the order of the moves, and the placing of a command; O4, O5, O7, O8 and O10. -/

namespace Sys2Proof.Machine

open Sys2Proof.Safety

/-- Settles O4: the reset values are the fields of `State.reset`, which the registers read. -/
theorem registersAfterReset : Obligations.RegistersAfterReset := by
  refine ⟨?status, rfl, rfl, rfl, rfl, rfl, rfl, rfl, rfl, rfl, rfl, rfl, rfl, rfl, rfl, rfl⟩
  case status => decide

/-- Settles O5: no part of the invariant looks at the words, so it is decided from the reset values. -/
theorem resetIsLegal : Obligations.ResetIsLegal := by
  rw [Obligations.ResetIsLegal]
  decide

/-- With no input left, a step is the engine's move (R61, R270). -/
theorem step_of_inputs_nil {s : State} (h : s.inputs = []) : step s = engineStep s := by
  rw [step, agentStep, h]

/-- With inputs left, a step performs the first of them (R61). -/
theorem step_of_inputs_cons {s : State} {ev : Event} {rest : List Event} (h : s.inputs = ev :: rest) :
    step s = perform ev { s with inputs := rest } := by
  rw [step, agentStep, h]

/-- The completion of a word that decodes is its command's (R246). -/
theorem completeCommand_legal {c : Word} {i : Instr} (h : decode c = .ok i) (s : State) :
    completeCommand c s = exec i s := by
  rw [completeCommand, h]

/-- Outside reset, the engine's move on a pending command runs it (R246). -/
theorem engineStep_exec {s : State} {c : Word} {i : Instr} (released : s.inReset = false) (pending : s.seq = .busy c)
    (h : decode c = .ok i) : engineStep s = exec i s :=
  (engineStep_busy released pending).trans (completeCommand_legal h s)

/-- An idle engine does nothing (R256). -/
theorem engineStep_idle {s : State} (h : s.seq = .idle) : engineStep s = .next s := by
  rw [engineStep, h]
  exact ite_self _

/-- An engine held in reset does nothing (R260). -/
theorem engineStep_inReset {s : State} (h : s.inReset = true) : engineStep s = .next s := by
  rw [engineStep, if_pos h]

/-- Settles O7: the first input, or the engine's move, which runs the decoded word. -/
theorem stepRunsTheDecodedCommand : Obligations.StepRunsTheDecodedCommand := by
  refine ⟨fun s c i empty released pending h => ?unscheduled, fun s rest c i scheduled released pending h => ?scheduled,
    fun s ev rest => step_of_inputs_cons, fun s => engineStep_idle⟩
  case unscheduled => rw [step_of_inputs_nil empty, engineStep_exec released pending h]
  case scheduled =>
    rw [step_of_inputs_cons scheduled]
    exact engineStep_exec (s := { s with inputs := rest }) released pending h

/-- Placing a command is acceptance with no input left and reset released, but for the port and the free counter (log
entry 5). -/
theorem placeCommand_frame (c : Word) (s : State) :
    ∃ p n, placeCommand c s = { accept c { s with inputs := [], inReset := false } with port := p, free := n } := by
  unfold placeCommand
  dsimp only
  split
  · exact ⟨_, _, rfl⟩
  · exact ⟨_, _, rfl⟩
  · exact ⟨_, _, rfl⟩

/-- Settles O8: the placed command is pending outside reset with no input before the engine's move. -/
theorem placedCommandRunsNext : Obligations.PlacedCommandRunsNext := by
  intro i s
  obtain ⟨p, n, placed⟩ := placeCommand_frame (encode i) s
  have word : s.withFetchWord 32 (encode i).toNat = placeCommand (encode i) s := by
    rw [State.withFetchWord, Nat.mod_eq_of_lt (encode i).isLt, BitVec.ofNat_toNat, BitVec.setWidth_eq]
  rw [word, placed]
  refine ⟨?runs, rfl, rfl, rfl, rfl, rfl, rfl, rfl⟩
  case runs => rw [step_of_inputs_nil rfl, engineStep_exec rfl rfl (decode_encode i)]

/-- Settles O10: the assertion is `assertReset`, and neither the bus nor the engine is served while it lasts. -/
theorem resetAbandonsThePendingCommand : Obligations.ResetAbandonsThePendingCommand :=
  ⟨fun _ => rfl, fun _ _ held => if_pos held, fun _ => engineStep_inReset, fun _ => rfl⟩

end Sys2Proof.Machine
end

section
/-! What one step of the whole machine can lead to, said once; O25, O26 and O27. -/

namespace Sys2Proof.Machine

open Sys2Proof.Safety

/-- What a write of `v` that the register takes can lead to from `s` (R29, R30, R33, R37, R55, R56, R57, R245). -/
inductive Taken (s : State) (v : Word) : Reg → State → Prop
  | accepted : Taken s v .cmd (accept v s)
  | status : Taken s v .status (writeStatus v s)
  | arguments (r : Reg) (hr : r ≠ .status) (a0 a1 : Dword) : Taken s v r { s with arg0 := a0, arg1 := a1 }
  | refused (r : Reg) (hr : r ≠ .status) (code : BitVec 4) (hcode : code = argumentError ∨ code = configurationError) :
      Taken s v r (operationFailed code s)
  | confirmed (r : Reg) (hr : r ≠ .status) : Taken s v r (operationOk s)
  | offset (valid : 1 ≤ v.toNat ∧ v.toNat ≤ 623) : Taken s v .cfgM (operationOk { s with cfgM := v })
  | matrix (valid : v.getLsbD 31 = true) : Taken s v .cfgMatrixA (operationOk { s with cfgMatrixA := v })
  | cursor (valid : v.toNat ≤ 625) : Taken s v .index (operationOk { s with index := v.extractLsb' 0 10 })
  | word (i : Fin 624) : Taken s v (.word i) { s with words := setWord s.words i.val v }

/-- A validated write to a hardwired register confirms it or is refused (R28, R31, R32). -/
theorem taken_writeHardwired {r : Reg} (hr : r ≠ .status) (canonical v : Word) (s : State) :
    Taken s v r (writeHardwired canonical v s) := by
  unfold writeHardwired
  split
  · exact .confirmed r hr
  · exact .refused r hr _ (.inr rfl)

/-- `CFG_M` takes its valid values and refuses the others (R29). -/
theorem taken_writeCfgM (v : Word) (s : State) : Taken s v .cfgM (writeCfgM v s) := by
  unfold writeCfgM
  split
  · exact .offset ‹_›
  · exact .refused _ (by decide) _ (.inr rfl)

/-- `CFG_MATRIX_A` takes its valid values and refuses the others (R30). -/
theorem taken_writeCfgMatrixA (v : Word) (s : State) : Taken s v .cfgMatrixA (writeCfgMatrixA v s) := by
  unfold writeCfgMatrixA
  split
  · exact .matrix ‹_›
  · exact .refused _ (by decide) _ (.inr rfl)

/-- `INDEX` takes the cursor values and refuses the others (R56). -/
theorem taken_writeIndex (v : Word) (s : State) : Taken s v .index (writeIndex v s) := by
  unfold writeIndex
  split
  · exact .cursor ‹_›
  · exact .refused _ (by decide) _ (.inl rfl)

/-- Every write that its register takes leads to one of the states of `Taken`. -/
theorem taken_writeReg (r : Reg) (v : Word) (s : State) : Taken s v r (writeReg r v s) := by
  cases r with
  | cmd => exact .accepted
  | status => exact .status
  | word i => exact .word i
  | index => exact taken_writeIndex v s
  | cfgM => exact taken_writeCfgM v s
  | cfgMatrixA => exact taken_writeCfgMatrixA v s
  | arg0Lo | arg0Hi | arg1Lo | arg1Hi | resLo | resHi | lastDraws => exact .arguments _ (by decide) _ _
  | cfgN | cfgUpperMask | cfgLowerMask | cfgTemperB | cfgTemperC => exact taken_writeHardwired (by decide) _ v s

/-- A taken write keeps `OVR`, but for a write of `STATUS` with bit 8 set (R37, R39). -/
theorem Taken.ovr {s t : State} {r : Reg} {v : Word} (h : Taken s v r t) (keeps : r = .status → v.getLsbD 8 = false) :
    t.ovr = s.ovr := by
  cases h with
  | status => rw [writeStatus_ovr, keeps rfl, Bool.not_false, Bool.and_true]
  | _ => rfl

/-- What a step from `s` that leaves the inputs `rest` can lead to: only the bus record and the free counter change, a
command fails or completes, the host's write is served, an entropy answer arrives, or reset moves. -/
inductive Reached (s : State) (rest : List Event) : State → Prop
  | held (b : BusResponse) (n : Nat) : Reached s rest { s with inputs := rest, bus := b, free := n }
  | commandFailed (code : BitVec 4) (hcode : code = argumentError ∨ code = illegalCommand) (next : engineNext s)
      (released : s.inReset = false) (busy : s.busy = true) :
      Reached s rest (completeError code { s with inputs := rest })
  | commandDone (w : Ram) (n : Cursor) (d : Nat) (r : Dword) (hn : n.toNat ≤ 624) (next : engineNext s)
      (released : s.inReset = false) (busy : s.busy = true) :
      Reached s rest (doneWith { s with inputs := rest } w n d r)
  | dropped (released : s.inReset = false) : Reached s rest { s with inputs := rest, ovr := true, bus := .ack }
  | written (r : Reg) (v : Word) (u : State) (next : s.inputs = .host (wr r v) :: rest) (released : s.inReset = false)
      (idle : s.busy = false ∨ r = .status) (taken : Taken { s with inputs := rest } v r u) :
      Reached s rest { u with bus := .ack }
  | answered (e : Word) : Reached s rest (answerEntropy e { s with inputs := rest })
  | resetAsserted (next : s.inputs = .resetAssert :: rest) : Reached s rest (assertReset { s with inputs := rest })
  | resetReleased : Reached s rest (releaseReset { s with inputs := rest })

/-- The engine's move as a step. -/
theorem reached_of_engineStep {s t : State} {rest : List Event} (next : engineNext s)
    (h : engineStep { s with inputs := rest } = .next t) : Reached s rest t := by
  obtain rfl | ⟨released, c, pending, done⟩ := engineStep_next h
  · exact .held s.bus s.free
  · have busy : s.busy = true := (busy_iff s).2 ⟨c, pending⟩
    obtain rfl | rfl | ⟨w, n, d, r, hn, rfl⟩ := done
    · exact .commandFailed _ (.inr rfl) next released busy
    · exact .commandFailed _ (.inl rfl) next released busy
    · exact .commandDone w n d r hn next released busy

/-- A write that reaches a register is `WR REG, v` of that register (R15, R51). -/
theorem eq_wr_of_target {w : Width} {o : Nat} {v : Word} {r : Reg} (h : (Access.write w o v).target = some r) :
    Access.write w o v = wr r v := by
  rw [target_eq] at h
  cases w with
  | w32 => rw [wr, offset_of_regAt (show regAt o = some r from h)]
  | _ => cases h

/-- A served write as a step: dropped while busy, or taken by its register (R57, R272). -/
theorem reached_of_write {s : State} {rest : List Event} {r : Reg} {v : Word}
    (next : s.inputs = .host (wr r v) :: rest) (released : s.inReset = false) :
    Reached s rest (busWrite r v { s with inputs := rest }) := by
  by_cases idle : s.busy = false ∨ r = .status
  · rw [busWrite_taken (s := { s with inputs := rest }) v idle]
    exact .written r v _ next released idle (taken_writeReg r v _)
  · obtain ⟨busy, other⟩ := not_or.1 idle
    rw [busWrite_busy (s := { s with inputs := rest }) v (Bool.not_eq_false _ ▸ busy) other]
    exact .dropped released

/-- A host access as a step. -/
theorem reached_of_host {s t : State} {rest : List Event} {a : Access} (next : s.inputs = .host a :: rest)
    (h : perform (.host a) { s with inputs := rest } = .next t) : Reached s rest t := by
  cases released : s.inReset with
  | true =>
    obtain rfl := Host.Outcome.next.inj ((if_pos released).symm.trans h)
    exact .held .none s.free
  | false =>
    rw [perform_host a (s := { s with inputs := rest }) released] at h
    obtain ⟨r, target, ⟨w, o, rfl, rfl⟩ | ⟨w, o, v, rfl, rfl⟩⟩ := hostAccess_next h
    · obtain ⟨b, n, frame⟩ := busRead_frame r { s with inputs := rest }
      rw [frame]
      exact .held b n
    · rw [eq_wr_of_target target] at next
      exact reached_of_write next released

/-- Every step that goes on leads to one of the states of `Reached`. -/
theorem reached_of_step {s t : State} (h : step s = .next t) : ∃ rest, Reached s rest t := by
  cases inputs : s.inputs with
  | nil =>
    rw [step_of_inputs_nil inputs] at h
    have same : { s with inputs := [] } = s := by rw [← inputs]
    exact ⟨[], reached_of_engineStep (.inl inputs) (by rw [same]; exact h)⟩
  | cons ev rest =>
    rw [step_of_inputs_cons inputs] at h
    refine ⟨rest, ?_⟩
    cases ev with
    | host a => exact reached_of_host inputs h
    | otherMaster a => cases h
    | engine => exact reached_of_engineStep (.inr ⟨rest, inputs⟩) h
    | entropy e => cases h; exact .answered e
    | resetAssert => cases h; exact .resetAsserted inputs
    | resetRelease => cases h; exact .resetReleased

/-- Settles O25: a command that goes on waits, fails or completes, and each of the three says what it leaves. -/
theorem commandsKeepConfigurationAndArguments : Obligations.CommandsKeepConfigurationAndArguments := by
  intro i s t h
  obtain ⟨-, rfl⟩ | rfl | ⟨w, n, d, r, -, rfl⟩ := exec_next h
  case inl => simp
  case inr.inl => simp
  case inr.inr => simp [doneWith]

/-- An entropy answer changes the port alone (R38). -/
theorem answerEntropy_frame (e : Word) (s : State) : ∃ p, answerEntropy e s = { s with port := p } := by
  unfold answerEntropy
  split <;> exact ⟨_, rfl⟩

/-- Settles O26: of the states a step can reach, only reset and the write of `STATUS` clear `OVR`. -/
theorem overrunIsSticky : Obligations.OverrunIsSticky := by
  intro s t h set
  obtain ⟨rest, reached⟩ := reached_of_step h
  cases reached with
  | held b n => exact .inl set
  | commandFailed code hcode next released busy => exact .inl set
  | commandDone w n d r hn next released busy => exact .inl set
  | dropped released => exact .inl rfl
  | written r v u next released idle taken =>
    by_cases clears : r = .status ∧ v.getLsbD 8 = true
    · obtain ⟨rfl, bit⟩ := clears
      exact .inr (.inr ⟨v, _, rest, next, regAt_offset .status, bit⟩)
    · exact .inl ((taken.ovr fun status => Bool.eq_false_iff.2 (not_and.1 clears status)).trans set)
  | answered e =>
    obtain ⟨p, frame⟩ := answerEntropy_frame e { s with inputs := rest }
    exact .inl (by rw [frame]; exact set)
  | resetAsserted next => exact .inr (.inl ⟨rest, next⟩)
  | resetReleased => exact .inl set

/-- Settles O27: of the states a step can reach, a change of the generator is left by a completed command, by reset, or
by the write of one of its four parts. -/
theorem onlyWritesAndResetChangeConfiguration : Obligations.OnlyWritesAndResetChangeConfiguration := by
  intro s t h
  by_cases same : sameGenerator t s
  · obtain ⟨words, index, cfgM, cfgMatrixA⟩ := same
    exact ⟨absurd cfgM, absurd cfgMatrixA, absurd index, fun i => absurd (congrArg (wordAt · i.val) words)⟩
  obtain ⟨rest, reached⟩ := reached_of_step h
  cases reached with
  | held b n => exact absurd ⟨rfl, rfl, rfl, rfl⟩ same
  | commandFailed code hcode next released busy => exact absurd ⟨rfl, rfl, rfl, rfl⟩ same
  | commandDone w n d r hn next released busy =>
    exact ⟨absurd rfl, absurd rfl, fun _ => .inr (.inr ⟨busy, next⟩), fun _ _ => .inr (.inr ⟨busy, next⟩)⟩
  | dropped released => exact absurd ⟨rfl, rfl, rfl, rfl⟩ same
  | written r v u next released idle taken =>
    have write (other : r ≠ .status) : writeNext r v s := ⟨released, idle.resolve_right other, rest, next⟩
    cases taken with
    | offset valid => exact ⟨fun _ => .inr (write (by decide)), absurd rfl, absurd rfl, fun _ => absurd rfl⟩
    | matrix valid => exact ⟨absurd rfl, fun _ => .inr (write (by decide)), absurd rfl, fun _ => absurd rfl⟩
    | cursor valid =>
      have value : (v.extractLsb' 0 10).zeroExtend 32 = v := zeroExtend_cursor_of_le valid
      have index : writeNext .index ((v.extractLsb' 0 10).zeroExtend 32) s := by
        rw [value]
        exact write (by decide)
      exact ⟨absurd rfl, absurd rfl, fun _ => .inr (.inl index), fun _ => absurd rfl⟩
    | word i =>
      refine ⟨absurd rfl, absurd rfl, absurd rfl, fun j changed => .inr (.inl ?_)⟩
      have read := wordAt_setWord s.words i.val j.val v
      rw [Nat.mod_eq_of_lt i.isLt, Nat.mod_eq_of_lt j.isLt] at read
      by_cases hij : i.val = j.val
      · obtain rfl := Fin.ext hij
        simpa [read] using write (by simp)
      · exact absurd (by simpa [hij] using read) changed
    | _ => exact absurd ⟨rfl, rfl, rfl, rfl⟩ same
  | answered e =>
    obtain ⟨p, frame⟩ := answerEntropy_frame e { s with inputs := rest }
    exact absurd (by rw [frame]; exact ⟨rfl, rfl, rfl, rfl⟩) same
  | resetAsserted next =>
    have reset : resetNext s := ⟨rest, next⟩
    exact ⟨fun _ => .inl reset, fun _ => .inl reset, fun _ => .inl reset, fun _ _ => .inl reset⟩
  | resetReleased => exact absurd ⟨rfl, rfl, rfl, rfl⟩ same

end Sys2Proof.Machine
end

section
/-! The invariant of legal states, part by part, and that every step keeps it; O6. -/

namespace Sys2Proof.Machine

open Sys2Proof.Safety

theorem legal_iff (s : State) : legal s = true ↔
    cursorLegal s = true ∧ configLegal s = true ∧ flagsLegal s = true ∧ latchLegal s = true ∧ portLegal s = true ∧
      resetLegal s = true := by
  simp [legal, and_assoc]

/-- Outside reset nothing is asked of the reset values (R260). -/
theorem resetLegal_of_released {s : State} (released : s.inReset = false) : resetLegal s = true := by
  simp [resetLegal, released]

/-- The flags of a failed operation are legal for every code the block writes (R240). -/
theorem flagsLegal_operationFailed {code : BitVec 4} (s : State)
    (h : code = argumentError ∨ code = configurationError ∨ code = illegalCommand) :
    flagsLegal (operationFailed code s) = true := by
  rcases h with rfl | rfl | rfl <;> rfl

/-- A cursor up to 625 is legal (R22). -/
theorem cursorLegal_of_le {s : State} (h : s.index.toNat ≤ 625) : cursorLegal s = true := decide_eq_true h

/-- A taken write while idle, or of `STATUS`, keeps a state legal outside reset. -/
theorem Taken.legal {s t : State} {r : Reg} {v : Word} (taken : Taken s v r t) (released : s.inReset = false)
    (idle : s.busy = false ∨ r = .status) (h : legal s = true) : legal t = true := by
  obtain ⟨cursor, config, flags, latch, port, -⟩ := (legal_iff s).1 h
  have idleLatch (a0 a1 : Dword) (other : r ≠ .status) : latchLegal { s with arg0 := a0, arg1 := a1 } = true := by
    simp [latchLegal, seq_of_not_busy (idle.resolve_right other)]
  rw [legal_iff]
  cases taken with
  | accepted => exact ⟨cursor, config, flags, by simp [latchLegal], by simp [portLegal], resetLegal_of_released released⟩
  | status => exact ⟨cursor, config, flags, latch, port, resetLegal_of_released released⟩
  | arguments r hr a0 a1 => exact ⟨cursor, config, flags, idleLatch a0 a1 hr, port, resetLegal_of_released released⟩
  | refused r hr code hcode =>
    exact ⟨cursor, config, flagsLegal_operationFailed s (hcode.imp_right .inl), latch, port, resetLegal_of_released released⟩
  | confirmed r hr => exact ⟨cursor, config, rfl, latch, port, resetLegal_of_released released⟩
  | offset valid =>
    refine ⟨cursor, ?_, rfl, latch, port, resetLegal_of_released released⟩
    simp_all [configLegal]
  | matrix valid =>
    refine ⟨cursor, ?_, rfl, latch, port, resetLegal_of_released released⟩
    simp_all [configLegal]
  | cursor valid =>
    exact ⟨cursorLegal_of_le ((toNat_cursor_of_le valid).trans_le valid), config, rfl, latch, port,
      resetLegal_of_released released⟩
  | word i => exact ⟨cursor, config, flags, latch, port, resetLegal_of_released released⟩

/-- An entropy answer keeps a state legal: it finds a request only where one is pending (R38). -/
theorem legal_answerEntropy {s : State} (e : Word) (h : legal s = true) : legal (answerEntropy e s) = true := by
  unfold answerEntropy
  split
  case h_1 requested =>
    obtain ⟨cursor, config, flags, latch, port, reset⟩ := (legal_iff s).1 h
    refine (legal_iff _).2 ⟨cursor, config, flags, latch, ?_, reset⟩
    unfold portLegal at port ⊢
    cases pending : s.seq with
    | idle => simp [pending, requested] at port
    | busy c => simpa [pending, requested] using port
  all_goals exact h

/-- The reset values are legal, and those the invariant asks for while reset is asserted (R44, R260). -/
theorem legal_assertReset (s : State) : legal (assertReset s) = true := by
  obtain ⟨cursor, config, flags, latch, port, -⟩ := (legal_iff _).1 resetIsLegal
  exact (legal_iff _).2 ⟨cursor, config, flags, latch, port, rfl⟩

/-- Settles O6: each of the states a step can reach keeps every part of the invariant. -/
theorem stepKeepsLegal : Obligations.StepKeepsLegal := by
  intro s t h step
  obtain ⟨cursor, config, flags, latch, port, reset⟩ := (legal_iff s).1 h
  obtain ⟨rest, reached⟩ := reached_of_step step
  cases reached with
  | held b n => exact h
  | commandFailed code hcode next released busy =>
    exact (legal_iff _).2 ⟨cursor, config, flagsLegal_operationFailed s (hcode.imp_right .inr), rfl, rfl,
      resetLegal_of_released released⟩
  | commandDone w n d r hn next released busy =>
    exact (legal_iff _).2 ⟨cursorLegal_of_le (hn.trans (by decide)), config, rfl, rfl, rfl,
      resetLegal_of_released released⟩
  | dropped released => exact (legal_iff _).2 ⟨cursor, config, flags, latch, port, resetLegal_of_released released⟩
  | written r v u next released idle taken => exact taken.legal released idle h
  | answered e => exact legal_answerEntropy (s := { s with inputs := rest }) e h
  | resetAsserted next => exact legal_assertReset _
  | resetReleased => exact (legal_iff _).2 ⟨cursor, config, flags, latch, port, resetLegal_of_released rfl⟩

end Sys2Proof.Machine
end

section
/-! What a seed never leaves, the twist of the all-zero array, tempering as a bijection, the cursor along the raw stream,
and SEEDENT; O30, O32, O33, O35 and O37. -/

namespace Sys2Proof.Machine

open Sys2Proof.Safety

/-- Settles O30: word 0 is the seed itself, and after a seed of 0 word 1 is 1. -/
theorem noSeedIsAllZero : Obligations.NoSeedIsAllZero := by
  intro v
  by_cases zero : v = 0#32
  · refine ⟨1, by decide, ?_⟩
    rw [zero, wordAt_seedWords _ (by decide)]
    decide
  · refine ⟨0, by decide, ?_⟩
    rwa [wordAt_seedWords _ (by decide)]

/-- Mixing zero words gives zero, whatever the matrix constant (R106). -/
theorem twistMix_zero (a : Word) : twistMix a (twistJoin 0#32 0#32) = 0#32 := rfl

/-- The update of one position of an all-zero array changes nothing (R106). -/
theorem twistAt_zero (m : Nat) (a : Word) {w : Ram} (zero : ∀ i, wordAt w i = 0#32) (n : Nat) : twistAt m a w n = w := by
  refine ram_ext fun i _ => ?_
  rw [twistAt, wordAt_setWord]
  simp only [zero, twistMix_zero]
  exact ite_self _

/-- Settles O32: no position of the pass changes anything. -/
theorem allZeroIsATwistFixedPoint : Obligations.AllZeroIsATwistFixedPoint := by
  intro m a w h
  have zero (i : Nat) : wordAt w i = 0#32 := by
    rw [← wordAt_mod]
    exact h _ (Nat.mod_lt _ (by decide))
  have pass (n : Nat) : twistTo m a w n = w := by
    induction n with
    | zero => rfl
    | succ n ih => rw [twistTo, ih, twistAt_zero m a zero]
  rw [twistWords_eq, pass]

/-- Settles O33: tempering is injective, and so bijective on the finite type of words. -/
theorem temperIsABijection : Obligations.TemperIsABijection :=
  ⟨fun _ => ⟨_, _, _, rfl, rfl, rfl, rfl⟩, by decide, by decide, by decide, by decide,
    Finite.injective_iff_bijective.1 temper_injective⟩

/-- From a cursor up to 624, a raw draw leaves the next cursor of the cycle 1 to 624 (R110). -/
theorem nextRaw_index_cycle {s : State} (h : s.index.toNat ≤ 624) :
    (nextRaw s).2.index.toNat = s.index.toNat % 624 + 1 := by
  rw [nextRaw_index]
  rcases Nat.lt_or_ge s.index.toNat 624 with below | above
  · rw [refill_below below]
    omega
  · rw [refill_of_le above, twist_index, Nat.le_antisymm h above]
    rfl

/-- The cursor after `k` raw draws from a seed, which itself leaves 624 (R102, R115). -/
theorem drawMany_seed_index (v : Word) (s : State) (k : Nat) :
    (drawMany k (seed v s)).index.toNat = (k + 623) % 624 + 1 := by
  induction k with
  | zero => rfl
  | succ k ih =>
    rw [drawMany_succ, nextRaw_index_cycle (by omega), ih]
    omega

/-- Settles O35: draw `k` starts at the cursor of `drawMany_seed_index`, and twists from 624 up. -/
theorem regenerationBoundary : Obligations.RegenerationBoundary := by
  intro v s k hk
  rw [drawMany_seed_index, drawMany_seed_index]
  omega

/-- SEEDENT, once answered, completes as a SEED of the answer (R112). -/
theorem exec_seedent_answered {s : State} {e : Word} (h : s.port = .answered e) :
    exec .seedent s = .next (completed s (seed e (started s)) s.res 0#32) := by
  rw [exec, execSeedent, h]
  exact congrArg Host.Outcome.next (completeOk_undrawn (drewFrom_seed _ _) rfl)

/-- SEEDENT waits until it is answered (R38, R266). -/
theorem exec_seedent_waiting {s : State} (h : s.port = .quiet ∨ s.port = .requested) : exec .seedent s = .next s := by
  rcases h with h | h <;> rw [exec, execSeedent, h]

/-- Settles O37: the two outcomes of SEEDENT, and the answer to an outstanding request. -/
theorem seedFromEntropyCompletesOrWaits : Obligations.SeedFromEntropyCompletesOrWaits := by
  refine ⟨rfl, fun s e => exec_seedent_answered, fun s => exec_seedent_waiting, fun s e requested => ?_⟩
  rw [perform, answerEntropy, requested]

end Sys2Proof.Machine
end

section
/-! A binary64 pattern is its sign, exponent and fraction, and its magnitude determines the last two; the magnitudes of the
finite patterns. -/

namespace Sys2Proof.Machine

/-- The three fields of a pattern make up its number. -/
theorem f64_toNat_eq (x : F64) : x.toNat = (f64Sign x).toNat * 2 ^ 63 + f64Exponent x * 2 ^ 52 + f64Fraction x := by
  have bound := x.isLt
  have sign : f64Sign x = decide (2 ^ 63 ≤ x.toNat) := BitVec.msb_eq_decide x
  rw [sign, f64Exponent, f64Fraction, BitVec.extractLsb'_toNat, BitVec.extractLsb'_toNat, Nat.shiftRight_eq_div_pow,
    Nat.shiftRight_eq_div_pow]
  by_cases negative : 2 ^ 63 ≤ x.toNat
  · rw [decide_eq_true negative, Bool.toNat_true]
    omega
  · rw [decide_eq_false negative, Bool.toNat_false]
    omega

/-- A pattern is determined by its fields. -/
theorem f64_ext {x y : F64} (sign : f64Sign x = f64Sign y) (exponent : f64Exponent x = f64Exponent y)
    (fraction : f64Fraction x = f64Fraction y) : x = y := by
  apply BitVec.eq_of_toNat_eq
  rw [f64_toNat_eq x, f64_toNat_eq y, sign, exponent, fraction]

/-- The magnitude of an exponent 0. -/
theorem f64Magnitude_of_exponent_zero {x : F64} (h : f64Exponent x = 0) : f64Magnitude x = f64Fraction x := if_pos h

/-- The magnitude of an exponent above 0. -/
theorem f64Magnitude_of_exponent_ne_zero {x : F64} (h : f64Exponent x ≠ 0) :
    f64Magnitude x = (2 ^ 52 + f64Fraction x) * 2 ^ (f64Exponent x - 1) := if_neg h

/-- A larger exponent is a larger magnitude. -/
theorem f64Magnitude_lt_of_exponent_lt {x y : F64} (h : f64Exponent x < f64Exponent y) :
    f64Magnitude x < f64Magnitude y := by
  have nextPower : 2 ^ 52 * 2 ^ (f64Exponent y - 1) ≤ f64Magnitude y := by
    rw [f64Magnitude_of_exponent_ne_zero (x := y) (by omega)]
    exact Nat.mul_le_mul_right _ (Nat.le_add_right _ _)
  refine lt_of_lt_of_le ?_ nextPower
  have fraction := f64Fraction_lt x
  by_cases zero : f64Exponent x = 0
  · rw [f64Magnitude_of_exponent_zero zero]
    exact fraction.trans_le (Nat.le_mul_of_pos_right _ (Nat.two_pow_pos _))
  · rw [f64Magnitude_of_exponent_ne_zero zero]
    calc (2 ^ 52 + f64Fraction x) * 2 ^ (f64Exponent x - 1)
        < 2 ^ 53 * 2 ^ (f64Exponent x - 1) := Nat.mul_lt_mul_of_pos_right (by omega) (Nat.two_pow_pos _)
      _ = 2 ^ 52 * 2 ^ f64Exponent x := by rw [← pow_add, ← pow_add]; congr 1; omega
      _ ≤ 2 ^ 52 * 2 ^ (f64Exponent y - 1) := Nat.mul_le_mul_left _ (Nat.pow_le_pow_right (by decide) (by omega))

/-- The sign and the magnitude determine a pattern. -/
theorem f64_ext_magnitude {x y : F64} (sign : f64Sign x = f64Sign y) (magnitude : f64Magnitude x = f64Magnitude y) :
    x = y := by
  have exponent : f64Exponent x = f64Exponent y := by
    rcases lt_trichotomy (f64Exponent x) (f64Exponent y) with h | h | h
    · exact absurd magnitude (f64Magnitude_lt_of_exponent_lt h).ne
    · exact h
    · exact absurd magnitude (f64Magnitude_lt_of_exponent_lt h).ne'
  refine f64_ext sign exponent ?_
  by_cases zero : f64Exponent x = 0
  · rwa [f64Magnitude_of_exponent_zero zero, f64Magnitude_of_exponent_zero (exponent ▸ zero)] at magnitude
  · rw [f64Magnitude_of_exponent_ne_zero zero, f64Magnitude_of_exponent_ne_zero (exponent ▸ zero), exponent] at magnitude
    exact Nat.add_left_cancel (Nat.eq_of_mul_eq_mul_right (Nat.two_pow_pos _) magnitude)

end Sys2Proof.Machine
end

section
/-! Rounding to the nearest magnitude, ties to even: the encoding that `roundMagnitude` finds, and what it says of
`f64Round`. -/

namespace Sys2Proof.Machine

open Sys2Proof.Safety

section Sign

variable {bits : Nat}

/-- A sign over magnitude bits is the pattern of these bits, negated or not (R14). -/
theorem f64Make_eq (negative : Bool) (h : bits < 2 ^ 63) :
    f64Make negative bits = if negative then fneg (BitVec.ofNat 64 bits) else BitVec.ofNat 64 bits := by
  cases negative with
  | false => rfl
  | true =>
    rw [f64Make, if_pos rfl, if_pos rfl, fneg]
    refine BitVec.eq_of_getLsbD_eq fun i _ => ?_
    have signBit : f64SignBit.getLsbD i = decide (i = 63) := by
      rw [show f64SignBit = BitVec.twoPow 64 63 by decide, BitVec.getLsbD_twoPow]
      simp [eq_comm]
    have clear : (BitVec.ofNat 64 bits).getLsbD 63 = false := f64Sign_ofNat h
    rw [BitVec.getLsbD_or, BitVec.getLsbD_xor, signBit]
    by_cases top : i = 63
    · rw [top, clear]
      rfl
    · simp [top]

theorem f64Exponent_make (negative : Bool) (h : bits < 2 ^ 63) :
    f64Exponent (f64Make negative bits) = f64Exponent (BitVec.ofNat 64 bits) := by
  rw [f64Make_eq negative h]
  split
  · exact f64Exponent_fneg _
  · rfl

theorem f64Magnitude_fneg (x : F64) : f64Magnitude (fneg x) = f64Magnitude x := by
  rw [f64Magnitude, f64Magnitude, f64Exponent_fneg, f64Fraction_fneg]

theorem f64Magnitude_make (negative : Bool) (h : bits < 2 ^ 63) :
    f64Magnitude (f64Make negative bits) = f64Magnitude (BitVec.ofNat 64 bits) := by
  rw [f64Make_eq negative h]
  split
  · exact f64Magnitude_fneg _
  · rfl

theorem f64Sign_make (negative : Bool) (h : bits < 2 ^ 63) : f64Sign (f64Make negative bits) = negative := by
  rw [f64Make_eq negative h]
  cases negative with
  | false => exact f64Sign_ofNat h
  | true => rw [if_pos rfl, f64Sign_fneg, f64Sign_ofNat h, Bool.not_false]

/-- The sign bit is not the last bit. -/
theorem f64Make_lastBit (negative : Bool) (bits : Nat) :
    (f64Make negative bits).getLsbD 0 = decide (bits % 2 = 1) := by
  have last : (BitVec.ofNat 64 bits).getLsbD 0 = decide (bits % 2 = 1) := by
    rw [BitVec.getLsbD_ofNat, Nat.testBit_zero]
    rfl
  cases negative with
  | false => exact last
  | true =>
    rw [f64Make, if_pos rfl, BitVec.getLsbD_or, last]
    exact Bool.false_or _

end Sign

section Quotient

variable {n D z : Nat}

/-- A quotient below `z - 1/2` rounds below `z`. -/
theorem roundQuotient_lt (h : 2 * n + D < 2 * z * D) : roundQuotient n D < z := by
  have division := Nat.div_add_mod n D
  have floor (q : Nat) (hq : 2 * (D * q) < 2 * z * D) : q < z := by
    by_contra hz
    have := Nat.mul_le_mul_left D (not_lt.1 hz)
    nlinarith
  unfold roundQuotient
  split
  · exact floor _ (by rw [Nat.mul_add]; omega)
  · exact floor _ (by omega)

/-- A quotient from `z - 1/2` up rounds to `z` or above, when `z` is even. -/
theorem le_roundQuotient_of_even (hD : 0 < D) (even : z % 2 = 0) (h : 2 * z * D ≤ 2 * n + D) : z ≤ roundQuotient n D := by
  have division := Nat.div_add_mod n D
  have remainder := Nat.mod_lt n hD
  have floor : z ≤ n / D + 1 := by
    by_contra hz
    have := Nat.mul_le_mul_left D (show n / D + 2 ≤ z by omega)
    nlinarith
  unfold roundQuotient
  split
  · exact floor
  · rename_i down
    rcases floor.lt_or_eq with below | equal
    · omega
    · have : 2 * z * D = 2 * (D * (n / D)) + 2 * D := by rw [equal]; ring
      omega

end Quotient

/-- The magnitude bits found: the exponent `k` of the last place and the significand `q` rounded there, cut off at the
infinity. -/
theorem roundMagnitude_spec (n : Nat) {d : Nat} (hd : 0 < d) :
    ∃ k q, roundMagnitude 52 f64Inf.toNat n d = min f64Inf.toNat (k * 2 ^ 52 + q) ∧ q = roundQuotient n (d * 2 ^ k) ∧
      q ≤ 2 ^ 53 ∧ (k = 0 ∨ 2 ^ 52 ≤ q) ∧ n < 2 ^ 53 * (d * 2 ^ k) ∧ (k = 0 ∨ 2 ^ 52 * (d * 2 ^ k) ≤ n) := by
  obtain ⟨below, normal⟩ := lastPlace_bounds (n / d)
  have hD : 0 < d * 2 ^ (Nat.log2 (n / d) - 52) := Nat.mul_pos hd (Nat.two_pow_pos _)
  have bound : n < 2 ^ 53 * (d * 2 ^ (Nat.log2 (n / d) - 52)) := by
    have := (Nat.div_lt_iff_lt_mul hd).1 below
    rwa [Nat.mul_assoc, Nat.mul_comm (2 ^ _) d] at this
  have least : Nat.log2 (n / d) - 52 = 0 ∨ 2 ^ 52 * (d * 2 ^ (Nat.log2 (n / d) - 52)) ≤ n := by
    refine normal.imp_right fun h => ?_
    have := (Nat.le_div_iff_mul_le hd).1 h
    rwa [Nat.mul_assoc, Nat.mul_comm (2 ^ _) d] at this
  exact ⟨_, _, rfl, rfl, roundQuotient_le hD bound, least.imp_right (le_roundQuotient hD), bound, least⟩

/-- The overflow threshold in units of the place below the largest exponent's last one. -/
theorem threshold_eq (d : Nat) : d * (2 ^ 2098 - 2 ^ 2044) = (2 ^ 54 - 1) * (d * 2 ^ 2044) := by
  have power : 2 ^ 2098 = 2 ^ 54 * 2 ^ 2044 := by rw [← pow_add]
  rw [power, ← Nat.sub_one_mul, Nat.mul_left_comm]

/-- Below the overflow threshold the exponent of the last place and the rounded significand encode a finite pattern. -/
theorem finite_of_lt_threshold {n d k : Nat} (least : k = 0 ∨ 2 ^ 52 * (d * 2 ^ k) ≤ n)
    (significand : roundQuotient n (d * 2 ^ k) ≤ 2 ^ 53) (h : n < d * (2 ^ 2098 - 2 ^ 2044)) :
    k < 2046 ∧ k * 2 ^ 52 + roundQuotient n (d * 2 ^ k) < 2047 * 2 ^ 52 := by
  rw [threshold_eq] at h
  have place : k ≤ 2045 := by
    by_contra above
    have grows : d * 2 ^ 2046 ≤ d * 2 ^ k := Nat.mul_le_mul_left _ (pow_le_pow_right₀ one_le_two (not_le.1 above))
    have power : d * 2 ^ 2046 = 2 ^ 2 * (d * 2 ^ 2044) := by rw [Nat.mul_left_comm, ← pow_add]
    omega
  refine ⟨by omega, ?_⟩
  rcases place.lt_or_eq with below | rfl
  · omega
  · have power : d * 2 ^ 2045 = 2 ^ 1 * (d * 2 ^ 2044) := by rw [Nat.mul_left_comm, ← pow_add]
    have := roundQuotient_lt (n := n) (D := d * 2 ^ 2045) (z := 2 ^ 53) (by rw [power]; omega)
    omega

/-- From the overflow threshold up they reach the infinity. -/
theorem infinite_of_threshold_le {n d k : Nat} (hd : 0 < d) (bound : n < 2 ^ 53 * (d * 2 ^ k))
    (normal : k = 0 ∨ 2 ^ 52 ≤ roundQuotient n (d * 2 ^ k)) (h : d * (2 ^ 2098 - 2 ^ 2044) ≤ n) :
    2047 * 2 ^ 52 ≤ k * 2 ^ 52 + roundQuotient n (d * 2 ^ k) := by
  rw [threshold_eq] at h
  have place : 2045 ≤ k := by
    by_contra below
    have grows : d * 2 ^ k ≤ d * 2 ^ 2044 :=
      Nat.mul_le_mul_left _ (pow_le_pow_right₀ one_le_two (Nat.le_of_lt_succ (not_le.1 below)))
    omega
  have significand := normal.resolve_left (by omega)
  rcases place.lt_or_eq with above | rfl
  · omega
  · have power : d * 2 ^ 2045 = 2 ^ 1 * (d * 2 ^ 2044) := by rw [Nat.mul_left_comm, ← pow_add]
    have := le_roundQuotient_of_even (n := n) (D := d * 2 ^ 2045) (z := 2 ^ 53) (Nat.mul_pos hd (pow_pos two_pos _))
      (by decide) (by rw [power]; omega)
    omega

/-- A magnitude is a multiple of a last place, or lies below the normal ones with that last place. -/
theorem f64Magnitude_multiple_or_lt (y : F64) (k : Nat) :
    (∃ z, f64Magnitude y = z * 2 ^ k) ∨ (0 < k ∧ f64Magnitude y < 2 ^ 52 * 2 ^ k) := by
  obtain ⟨z, j, magnitude, hz, -, -⟩ := f64Magnitude_form y
  rw [magnitude]
  rcases Nat.lt_or_ge j k with below | above
  · refine .inr ⟨by omega, ?_⟩
    calc z * 2 ^ j < 2 ^ 53 * 2 ^ j := Nat.mul_lt_mul_of_pos_right hz (Nat.two_pow_pos j)
      _ = 2 ^ 52 * 2 ^ (j + 1) := by rw [pow_succ 2 j]; ring
      _ ≤ 2 ^ 52 * 2 ^ k := Nat.mul_le_mul_left _ (Nat.pow_le_pow_right (by decide) below)
  · refine .inl ⟨z * 2 ^ (j - k), ?_⟩
    rw [Nat.mul_assoc, ← pow_add, Nat.sub_add_cancel above]

/-- No magnitude is nearer to `n / d` than the significand rounded at the last place `k`; one as near is a multiple of
that place, and leaves the significand even unless it is the same. -/
theorem roundQuotient_nearest_magnitude {n d k : Nat} (hd : 0 < d) (least : k = 0 ∨ 2 ^ 52 * (d * 2 ^ k) ≤ n) (y : F64) :
    let q := roundQuotient n (d * 2 ^ k)
    let near := ((n : Int) - d * (q * 2 ^ k : Nat)).natAbs
    let far := ((n : Int) - d * f64Magnitude y).natAbs
    near ≤ far ∧ (near = far → 2 ^ k ∣ f64Magnitude y ∧ (f64Magnitude y ≠ q * 2 ^ k → q % 2 = 0)) := by
  intro q near far
  have hD : 0 < d * 2 ^ k := Nat.mul_pos hd (Nat.two_pow_pos k)
  have scaled (z : Nat) : (d : Int) * (z * 2 ^ k : Nat) = (d * 2 ^ k : Nat) * z := by push_cast; ring
  rcases f64Magnitude_multiple_or_lt y k with ⟨z, multiple⟩ | ⟨positive, small⟩
  · obtain ⟨nearest, tie⟩ := roundQuotient_nearest n (d * 2 ^ k) z hD
    simp only [near, far, multiple, scaled]
    refine ⟨nearest, fun equal => ⟨Dvd.intro_left z rfl, fun other => tie equal fun same => other ?_⟩⟩
    rw [same]
  · have nearest := (roundQuotient_nearest n (d * 2 ^ k) (2 ^ 52) hD).1
    have normal := least.resolve_left positive.ne'
    have farther : d * f64Magnitude y < 2 ^ 52 * (d * 2 ^ k) := by
      rw [Nat.mul_left_comm]
      exact Nat.mul_lt_mul_of_pos_left small hd
    rw [← scaled] at nearest
    have bound : near < far := by
      have product : (d : Int) * f64Magnitude y = (d * f64Magnitude y : Nat) := (Nat.cast_mul _ _).symm
      change near ≤ _ at nearest
      clear_value near
      simp only [far, product]
      generalize d * 2 ^ k = D at nearest normal farther
      omega
    exact ⟨bound.le, fun equal => absurd equal bound.ne⟩

/-- Below the overflow threshold, `f64Round` answers a finite pattern of the sign given: the significand `q` rounded at
the last place `k`, which is odd exactly when the last bit is 1. -/
theorem f64Round_finite (negative : Bool) {n d : Nat} (hd : 0 < d) (h : n < d * (2 ^ 2098 - 2 ^ 2044)) :
    ∃ k q, q = roundQuotient n (d * 2 ^ k) ∧ n < 2 ^ 53 * (d * 2 ^ k) ∧ (k = 0 ∨ 2 ^ 52 * (d * 2 ^ k) ≤ n) ∧
      f64Exponent (f64Round negative n d) < 2047 ∧ f64Sign (f64Round negative n d) = negative ∧
      f64Magnitude (f64Round negative n d) = q * 2 ^ k ∧
      (f64Round negative n d).getLsbD 0 = decide (q % 2 = 1) := by
  obtain ⟨k, q, bits, rounded, significand, normal, bound, least⟩ := roundMagnitude_spec n hd
  obtain ⟨place, finite⟩ := finite_of_lt_threshold least (rounded ▸ significand) h
  rw [← rounded] at finite
  have uncut : roundMagnitude 52 f64Inf.toNat n d = k * 2 ^ 52 + q := bits.trans (min_eq_right finite.le)
  have narrow : k * 2 ^ 52 + q < 2 ^ 63 := by omega
  have odd : (k * 2 ^ 52 + q) % 2 = q % 2 := by omega
  refine ⟨k, q, rounded, bound, least, ?_⟩
  rw [f64Round, uncut, f64Exponent_make _ narrow, f64Exponent_ofNat narrow, f64Magnitude_make _ narrow,
    f64Magnitude_encoded place significand normal, f64Make_lastBit, odd]
  exact ⟨by omega, f64Sign_make _ narrow, rfl, rfl⟩

/-- From the overflow threshold up, `f64Round` answers the infinity of the sign given. -/
theorem f64Round_infinite (negative : Bool) {n d : Nat} (hd : 0 < d) (h : d * (2 ^ 2098 - 2 ^ 2044) ≤ n) :
    f64Round negative n d = f64Make negative f64Inf.toNat := by
  obtain ⟨k, q, bits, rounded, -, normal, bound, -⟩ := roundMagnitude_spec n hd
  have infinite : f64Inf.toNat ≤ k * 2 ^ 52 + q := by
    rw [rounded]
    exact infinite_of_threshold_le hd bound (rounded ▸ normal) h
  rw [f64Round, bits, min_eq_left infinite]

/-- `f64Round` rounds to nearest, ties to even (R151). -/
theorem nearestEven_f64Round (negative : Bool) (n : Nat) {d : Nat} (hd : 0 < d) :
    nearestEven (f64Round negative n d) negative n d := by
  refine ⟨fun h => ?finite, f64Round_infinite negative hd⟩
  case finite =>
    obtain ⟨k, q, rfl, -, least, exponent, sign, magnitude, lastBit⟩ := f64Round_finite negative hd h
    refine ⟨exponent, sign, fun y _ => ?_⟩
    obtain ⟨nearest, tie⟩ := roundQuotient_nearest_magnitude hd least y
    rw [magnitude, lastBit]
    refine ⟨nearest, fun equal other => ?_⟩
    rw [(tie equal).2 other]
    rfl

/-- A finite magnitude lies below the overflow threshold: it is at most 2^53 - 1 last places of the largest exponent. -/
theorem f64Magnitude_lt_threshold {x : F64} (h : f64Exponent x < 2047) : f64Magnitude x < 2 ^ 2098 - 2 ^ 2044 := by
  obtain ⟨z, j, magnitude, hz, place, -⟩ := f64Magnitude_form x
  have bound : z * 2 ^ j ≤ (2 ^ 53 - 1) * 2 ^ 2045 :=
    Nat.mul_le_mul (by omega) (pow_le_pow_right₀ one_le_two (by omega))
  have power : (2 ^ 53 - 1) * 2 ^ 2045 = (2 ^ 53 - 1) * 2 ^ 1 * 2 ^ 2044 := by rw [Nat.mul_assoc, ← pow_add]
  have threshold := threshold_eq 1
  rw [Nat.one_mul, Nat.one_mul] at threshold
  rw [magnitude, threshold]
  refine bound.trans_lt ?_
  rw [power]
  exact Nat.mul_lt_mul_of_pos_right (by decide) (pow_pos two_pos _)

/-- A finite magnitude lies below that of the infinities. -/
theorem f64Magnitude_lt_of_finite {x : F64} (h : f64Exponent x < 2047) : f64Magnitude x < 2 ^ 2098 := by
  obtain ⟨z, j, magnitude, hz, place, -⟩ := f64Magnitude_form x
  calc f64Magnitude x = z * 2 ^ j := magnitude
    _ < 2 ^ 53 * 2 ^ j := Nat.mul_lt_mul_of_pos_right hz (Nat.two_pow_pos j)
    _ ≤ 2 ^ 53 * 2 ^ 2045 := Nat.mul_le_mul_left _ (pow_le_pow_right₀ one_le_two (by omega))
    _ = 2 ^ 2098 := by rw [← pow_add]

/-- Settles O49: a finite value is its own nearest value, and sign and magnitude determine a pattern. -/
theorem finiteValuesRoundToThemselves : Obligations.FiniteValuesRoundToThemselves := by
  intro x finite
  obtain ⟨-, sign, nearest⟩ := (nearestEven_f64Round (f64Sign x) (f64Magnitude x) one_pos).1
    (by rw [Nat.one_mul]; exact f64Magnitude_lt_threshold finite)
  refine f64_ext_magnitude sign ?_
  have distance := (nearest x finite).1
  omega

end Sys2Proof.Machine
end

section
/-! The four operations against their exact results, and their cases with an infinity, a NaN or a zero; O48. -/

namespace Sys2Proof.Machine

open Sys2Proof.Safety

/-- A pattern stands for zero exactly when its magnitude is 0. -/
theorem f64IsZero_eq (x : F64) : f64IsZero x = decide (f64Magnitude x = 0) := by
  unfold f64IsZero f64Magnitude
  split
  case isTrue zero => simp [zero]
  case isFalse nonzero => simp [nonzero]

/-- An infinity is no NaN. -/
theorem f64IsNan_of_isInf {x : F64} (h : f64IsInf x = true) : f64IsNan x = false := by
  simp_all [f64IsInf, f64IsNan]

/-- An infinity is no zero. -/
theorem f64IsZero_of_isInf {x : F64} (h : f64IsInf x = true) : f64IsZero x = false := by
  simp_all [f64IsInf, f64IsZero]

/-- Two infinities of one sign are one pattern. -/
theorem eq_of_isInf {x y : F64} (hx : f64IsInf x = true) (hy : f64IsInf y = true) (sign : f64Sign x = f64Sign y) :
    x = y := by
  simp only [f64IsInf, Bool.and_eq_true, decide_eq_true_eq] at hx hy
  exact f64_ext sign (hx.1.trans hy.1.symm) (hx.2.trans hy.2.symm)

theorem f64IsNan_fneg (x : F64) : f64IsNan (fneg x) = f64IsNan x := by
  rw [f64IsNan, f64IsNan, f64Exponent_fneg, f64Fraction_fneg]

/-- The signed zero is the rounded exact zero. -/
theorem f64Round_zero (negative : Bool) : f64Round negative 0 1 = f64Make negative 0 := by
  cases negative <;> decide

section Finite

variable {x y : F64} (hx : f64Exponent x < 2047) (hy : f64Exponent y < 2047)
include hx hy

/-- The sum of finite operands is the exact sum rounded once; an exact zero has the operands' sign. -/
theorem fadd_finite : fadd x y = f64Round (if f64Scaled x + f64Scaled y = 0 then f64Sign x && f64Sign y
    else decide (f64Scaled x + f64Scaled y < 0)) (f64Scaled x + f64Scaled y).natAbs 1 := by
  simp only [fadd, f64IsNan_of_finite hx, f64IsNan_of_finite hy, f64IsInf_of_finite hx, f64IsInf_of_finite hy,
    Bool.or_self, Bool.false_eq_true, if_false]
  split
  case isTrue zero => rw [zero, Int.natAbs_zero, f64Round_zero]
  case isFalse nonzero => rfl

/-- The difference of finite operands is the exact difference rounded once (R172). -/
theorem fsub_finite : fsub x y = f64Round (if f64Scaled x - f64Scaled y = 0 then f64Sign x && !f64Sign y
    else decide (f64Scaled x - f64Scaled y < 0)) (f64Scaled x - f64Scaled y).natAbs 1 := by
  rw [fsub, fadd_finite hx (by rwa [f64Exponent_fneg]), f64Scaled_fneg, f64Sign_fneg, ← Int.sub_eq_add_neg]

/-- The product of finite operands is the exact product rounded once. -/
theorem fmul_finite :
    fmul x y = f64Round (f64Sign x != f64Sign y) (f64Magnitude x * f64Magnitude y) (2 ^ 1074) := by
  simp only [fmul, f64IsNan_of_finite hx, f64IsNan_of_finite hy, f64IsInf_of_finite hx, f64IsInf_of_finite hy,
    Bool.or_self, Bool.false_eq_true, if_false]

/-- The quotient of finite operands is the exact quotient rounded once; a zero divisor answers an infinity, or a NaN for
0 / 0. -/
theorem fdiv_finite : fdiv x y =
    if f64Magnitude y = 0 then (if f64Magnitude x = 0 then f64Nan else f64Make (f64Sign x != f64Sign y) f64Inf.toNat)
    else f64Round (f64Sign x != f64Sign y) (f64Magnitude x * 2 ^ 1074) (f64Magnitude y) := by
  simp only [fdiv, f64IsNan_of_finite hx, f64IsNan_of_finite hy, f64IsInf_of_finite hx, f64IsInf_of_finite hy,
    f64IsZero_eq, Bool.or_self, Bool.false_eq_true, if_false, decide_eq_true_eq]

end Finite

theorem f64IsNan_f64Nan : f64IsNan f64Nan = true := by decide

/-- A NaN operand answers a NaN. -/
theorem nan_of_nan_operand {x y : F64} (h : f64IsNan x = true ∨ f64IsNan y = true) :
    fadd x y = f64Nan ∧ fsub x y = f64Nan ∧ fmul x y = f64Nan ∧ fdiv x y = f64Nan := by
  have operand : (f64IsNan x || f64IsNan y) = true := by simpa using h
  simp [fsub, fadd, fmul, fdiv, f64IsNan_fneg, operand]

section Infinite

variable {x y : F64} (hx : f64IsInf x = true) (hy : f64IsNan y = false)
include hx hy

/-- Opposite infinities have no sum. -/
theorem fadd_opposite (infinite : f64IsInf y = true) (sign : f64Sign x ≠ f64Sign y) : fadd x y = f64Nan := by
  simp [fadd, f64IsNan_of_isInf hx, hx, hy, infinite, sign]

/-- Any other sum with an infinity is that infinity. -/
theorem fadd_infinite (h : f64IsInf y = false ∨ f64Sign x = f64Sign y) : fadd x y = x ∧ fadd y x = x := by
  cases infinite : f64IsInf y with
  | false => simp [fadd, f64IsNan_of_isInf hx, hx, hy, infinite]
  | true =>
    have sign := h.resolve_left (by simp [infinite])
    obtain rfl := eq_of_isInf hx infinite sign
    simp [fadd, f64IsNan_of_isInf hx, hx]

/-- An infinity times a zero is a NaN. -/
theorem fmul_infinite_zero (zero : f64Magnitude y = 0) : fmul x y = f64Nan ∧ fmul y x = f64Nan := by
  simp [fmul, f64IsNan_of_isInf hx, hx, hy, f64IsZero_eq y, zero]

/-- An infinity times anything else is an infinity. -/
theorem fmul_infinite (nonzero : 0 < f64Magnitude y) :
    fmul x y = f64Make (f64Sign x != f64Sign y) f64Inf.toNat ∧
      fmul y x = f64Make (f64Sign y != f64Sign x) f64Inf.toNat := by
  simp [fmul, f64IsNan_of_isInf hx, hx, hy, f64IsZero_of_isInf hx, f64IsZero_eq y, nonzero.ne']

/-- An infinity over an infinity is a NaN. -/
theorem fdiv_infinities (infinite : f64IsInf y = true) : fdiv x y = f64Nan := by
  simp [fdiv, f64IsNan_of_isInf hx, hx, hy, infinite]

/-- An infinity over a finite value is an infinity, and a finite value over it a zero. -/
theorem fdiv_infinite (finite : f64IsInf y = false) :
    fdiv x y = f64Make (f64Sign x != f64Sign y) f64Inf.toNat ∧ fdiv y x = f64Make (f64Sign y != f64Sign x) 0 := by
  simp [fdiv, f64IsNan_of_isInf hx, hx, hy, finite]

end Infinite

/-- Settles O48: each operation on finite operands is `f64Round` of the exact result, which rounds to nearest even; the
cases with an infinity or a NaN are its own. -/
theorem roundingIsToNearestEven : Obligations.RoundingIsToNearestEven := by
  refine ⟨fun negative n d => nearestEven_f64Round negative n, fun x y hx hy => ⟨?sum, ?difference, ?product, ?quotient,
    ?overZero, ?zeroOverZero⟩, fun x y h => ?nan, fun x y hx hy => ⟨?opposite, fadd_infinite hx hy, ?timesZero,
    fmul_infinite hx hy, ?infinities, fdiv_infinite hx hy⟩⟩
  case sum =>
    rw [fadd_finite hx hy]
    exact nearestEven_f64Round _ _ one_pos
  case difference =>
    rw [fsub_finite hx hy]
    exact nearestEven_f64Round _ _ one_pos
  case product =>
    rw [fmul_finite hx hy]
    exact nearestEven_f64Round _ _ (pow_pos two_pos _)
  case quotient =>
    intro nonzero
    rw [fdiv_finite hx hy, if_neg nonzero.ne']
    exact nearestEven_f64Round _ _ nonzero
  case overZero =>
    intro zero nonzero
    rw [fdiv_finite hx hy, if_pos zero, if_neg nonzero.ne']
  case zeroOverZero =>
    intro zero zero'
    rw [fdiv_finite hx hy, if_pos zero, if_pos zero', f64IsNan_f64Nan]
  case nan =>
    obtain ⟨sum, difference, product, quotient⟩ := nan_of_nan_operand h
    rw [sum, difference, product, quotient]
    exact ⟨f64IsNan_f64Nan, f64IsNan_f64Nan, f64IsNan_f64Nan, f64IsNan_f64Nan⟩
  case opposite =>
    rintro ⟨infinite, sign⟩
    rw [fadd_opposite hx hy infinite sign, f64IsNan_f64Nan]
  case timesZero =>
    rintro ⟨-, zero⟩
    obtain ⟨left, right⟩ := fmul_infinite_zero hx hy zero
    rw [left, right]
    exact ⟨f64IsNan_f64Nan, f64IsNan_f64Nan⟩
  case infinities =>
    intro infinite
    rw [fdiv_infinities hx hy infinite, f64IsNan_f64Nan]

end Sys2Proof.Machine
end

section
/-! The integer root, and the square root rounded from it and its sticky half; O50. -/

namespace Sys2Proof.Machine

open Sys2Proof.Safety

/-- The integer root is exact, rounded down. -/
theorem natSqrt_spec (n : Nat) : natSqrt n * natSqrt n ≤ n ∧ n < (natSqrt n + 1) * (natSqrt n + 1) := by
  refine sqrtBits_spec n (Nat.zero_le n) ?_
  rw [Nat.zero_add, ← pow_add]
  exact Nat.lt_log2_self.trans_le (pow_le_pow_right₀ one_le_two (by omega))

/-- The root of a square is the number squared. -/
theorem natSqrt_unique {n r : Nat} (low : r * r ≤ n) (high : n < (r + 1) * (r + 1)) : natSqrt n = r := by
  obtain ⟨low', high'⟩ := natSqrt_spec n
  have below : natSqrt n < r + 1 := Nat.mul_self_lt_mul_self_iff.1 (low'.trans_lt high)
  have above : r < natSqrt n + 1 := Nat.mul_self_lt_mul_self_iff.1 (low.trans_lt high')
  omega

/-- The root of `m` in half units: twice the integer root, one more where the root is not whole. -/
def halfRoot (m : Nat) : Nat := 2 * natSqrt m + if natSqrt m * natSqrt m = m then 0 else 1

section HalfRoot

variable {m a : Nat}

/-- The half root lies from twice the integer root up to one above it, and at one above only where the root is not
whole. -/
theorem halfRoot_cases (m : Nat) : (halfRoot m = 2 * natSqrt m ∧ natSqrt m * natSqrt m = m) ∨
    (halfRoot m = 2 * natSqrt m + 1 ∧ natSqrt m * natSqrt m < m) := by
  unfold halfRoot
  split
  case isTrue whole => exact .inl ⟨rfl, whole⟩
  case isFalse broken => exact .inr ⟨rfl, lt_of_le_of_ne (natSqrt_spec m).1 broken⟩

/-- A number from the half root up, even where it meets it, is no less than twice the root. -/
theorem four_mul_le_of_halfRoot_le (h : halfRoot m ≤ a) (tie : a = halfRoot m → a % 2 = 0) : 4 * m ≤ a * a := by
  have high := (natSqrt_spec m).2
  rcases halfRoot_cases m with ⟨half, whole⟩ | ⟨half, broken⟩
  · have := Nat.mul_self_le_mul_self (half ▸ h)
    nlinarith
  · have := Nat.mul_self_le_mul_self (show 2 * natSqrt m + 2 ≤ a by omega)
    nlinarith

/-- A number up to the half root, even where it meets it, is no more than twice the root. -/
theorem le_four_mul_of_le_halfRoot (h : a ≤ halfRoot m) (tie : a = halfRoot m → a % 2 = 0) : a * a ≤ 4 * m := by
  have low := (natSqrt_spec m).1
  have below : a ≤ 2 * natSqrt m := by
    rcases halfRoot_cases m with ⟨half, -⟩ | ⟨half, -⟩ <;> omega
  have := Nat.mul_self_le_mul_self below
  nlinarith

/-- A number that is twice the root is the half root. -/
theorem halfRoot_of_mul_self (h : a * a = 4 * m) : halfRoot m = a := by
  have even : a % 2 = 0 := by
    rcases Nat.mod_two_eq_zero_or_one a with even | odd
    · exact even
    · have := Nat.mul_mod a a 2
      rw [odd, h] at this
      omega
  obtain ⟨b, rfl⟩ := Nat.dvd_of_mod_eq_zero even
  have square : b * b = m := by nlinarith
  have root : natSqrt m = b := natSqrt_unique square.le (by nlinarith)
  rw [halfRoot, root, if_pos square, Nat.add_zero]

end HalfRoot

/-- The square root of a finite positive value is the half root rounded at half units. -/
theorem fsqrt_finite {x : F64} (positive : f64Sign x = false) (finite : f64Exponent x < 2047)
    (nonzero : 0 < f64Magnitude x) : fsqrt x = f64Round false (halfRoot (f64Magnitude x * 2 ^ 1074)) 2 := by
  simp only [fsqrt, f64IsNan_of_finite finite, f64IsInf_of_finite finite, f64IsZero_eq, nonzero.ne', positive,
    decide_false, Bool.false_eq_true, if_false]
  rfl

/-- The half root of a positive finite operand lies below the overflow threshold. -/
theorem halfRoot_lt_threshold {x : F64} (finite : f64Exponent x < 2047) :
    halfRoot (f64Magnitude x * 2 ^ 1074) < 2 * (2 ^ 2098 - 2 ^ 2044) := by
  have magnitude : f64Magnitude x * 2 ^ 1074 < 2 ^ 1586 * 2 ^ 1586 := by
    calc f64Magnitude x * 2 ^ 1074 < 2 ^ 2098 * 2 ^ 1074 :=
          Nat.mul_lt_mul_of_pos_right (f64Magnitude_lt_of_finite finite) (pow_pos two_pos _)
      _ = 2 ^ 1586 * 2 ^ 1586 := by rw [← pow_add, ← pow_add]
  have root : natSqrt (f64Magnitude x * 2 ^ 1074) < 2 ^ 1586 :=
    Nat.mul_self_lt_mul_self_iff.1 ((natSqrt_spec _).1.trans_lt magnitude)
  have grows : 2 ^ 1586 ≤ 2 ^ 2044 := pow_le_pow_right₀ one_le_two (by decide)
  rw [threshold_eq]
  rcases halfRoot_cases (f64Magnitude x * 2 ^ 1074) with ⟨half, -⟩ | ⟨half, -⟩ <;> omega

/-- The half root of a positive operand has more than 53 bits, so it is rounded at a last place above its unit. -/
theorem le_halfRoot {x : F64} (nonzero : 0 < f64Magnitude x) : 2 ^ 54 ≤ halfRoot (f64Magnitude x * 2 ^ 1074) := by
  have large : 2 ^ 53 * 2 ^ 53 ≤ f64Magnitude x * 2 ^ 1074 := by
    calc 2 ^ 53 * 2 ^ 53 ≤ 2 ^ 1074 := by rw [← pow_add]; exact pow_le_pow_right₀ one_le_two (by decide)
      _ ≤ f64Magnitude x * 2 ^ 1074 := Nat.le_mul_of_pos_left _ nonzero
  have root : 2 ^ 53 < natSqrt (f64Magnitude x * 2 ^ 1074) + 1 :=
    Nat.mul_self_lt_mul_self_iff.1 (large.trans_lt (natSqrt_spec _).2)
  rcases halfRoot_cases (f64Magnitude x * 2 ^ 1074) with ⟨half, -⟩ | ⟨half, -⟩ <;> omega

/-- The square root of a finite positive value is the value nearest to the exact root, ties to even (R151). -/
theorem fsqrt_nearest {x : F64} (positive : f64Sign x = false) (finite : f64Exponent x < 2047)
    (nonzero : 0 < f64Magnitude x) :
    let m := f64Magnitude x * 2 ^ 1074
    let z := f64Magnitude (fsqrt x)
    f64Sign (fsqrt x) = false ∧ f64Exponent (fsqrt x) < 2047 ∧
    ∀ w : F64, f64Exponent w < 2047 →
      let y := f64Magnitude w
      (z < y → 4 * m ≤ (y + z) * (y + z)) ∧ (y < z → (y + z) * (y + z) ≤ 4 * m) ∧
      ((y + z) * (y + z) = 4 * m → y ≠ z → (fsqrt x).getLsbD 0 = false) := by
  have large := le_halfRoot nonzero
  obtain ⟨k, q, rfl, bound, least, exponent, sign, magnitude, lastBit⟩ :=
    f64Round_finite false Nat.two_pos (halfRoot_lt_threshold finite)
  rw [← fsqrt_finite positive finite nonzero] at exponent sign magnitude lastBit
  have place : 1 ≤ k := by
    by_contra none
    obtain rfl : k = 0 := by omega
    omega
  refine ⟨sign, exponent, fun w _ => ?_⟩
  obtain ⟨nearest, tie⟩ := roundQuotient_nearest_magnitude Nat.two_pos least w
  rw [lastBit]
  rw [← magnitude] at nearest tie
  have even (equal : f64Magnitude w + f64Magnitude (fsqrt x) = halfRoot (f64Magnitude x * 2 ^ 1074)) :
      (f64Magnitude w + f64Magnitude (fsqrt x)) % 2 = 0 := by
    have multiples : 2 ^ k ∣ f64Magnitude w + f64Magnitude (fsqrt x) :=
      ((tie (by omega)).1).add (magnitude ▸ Dvd.intro_left _ rfl)
    exact Nat.mod_eq_zero_of_dvd ((dvd_pow_self 2 (by omega)).trans multiples)
  refine ⟨fun above => four_mul_le_of_halfRoot_le (by omega) even, fun below => le_four_mul_of_le_halfRoot (by omega) even,
    fun midpoint other => ?_⟩
  have half := halfRoot_of_mul_self midpoint
  rw [(tie (by omega)).2 other]
  rfl

/-- Settles O50: the bitwise root is exact, and `fsqrt` rounds from it; the other operands are its own cases. -/
theorem integerRootIsExact : Obligations.IntegerRootIsExact := by
  refine ⟨natSqrt_spec, fun x => fsqrt_nearest, fun x finite zero => ?zero, by decide, fun x invalid => ?invalid⟩
  case zero => simp [fsqrt, f64IsNan_of_finite finite, f64IsZero_eq, zero]
  case invalid =>
    have answer : fsqrt x = f64Nan := by
      rcases invalid with nan | ⟨negative, nonzero⟩
      · simp [fsqrt, nan]
      · simp [fsqrt, negative, f64IsZero_eq, nonzero.ne']
    rw [answer, f64IsNan_f64Nan]

end Sys2Proof.Machine
end

section
/-! The uniforms of R153 and R154 are exact, the NaN encoding of R152, and the commands that write or compare them; O44 to O47
and O51. -/

namespace Sys2Proof.Machine

open Sys2Proof.Safety

/-- A non-negative pattern's value is its magnitude. -/
theorem f64Scaled_of_sign_false {x : F64} (h : f64Sign x = false) : f64Scaled x = f64Magnitude x := by
  rw [f64Scaled, h]
  rfl

/-- A word times a power of two is far below the infinities. -/
theorem word_mul_lt (r : Word) {b : Nat} (h : b ≤ 1074) : r.toNat * 2 ^ b < 2 ^ 2098 :=
  calc r.toNat * 2 ^ b < 2 ^ 32 * 2 ^ b := Nat.mul_lt_mul_of_pos_right r.isLt (Nat.two_pow_pos b)
    _ = 2 ^ (32 + b) := (pow_add _ _ _).symm
    _ < 2 ^ 2098 := pow_lt_pow_right₀ one_lt_two (by omega)

/-- `toF64(r)` is exact (R12). -/
theorem toF64_exact (r : Word) : f64Magnitude (toF64 r.toNat) = r.toNat * 2 ^ 1074 ∧
    f64Sign (toF64 r.toNat) = false ∧ f64Exponent (toF64 r.toNat) < 2047 := by
  have rounded := f64Round_exact one_pos (a := r.toNat) (by have := r.isLt; omega) rfl (word_mul_lt r le_rfl)
  rwa [Nat.mul_one] at rounded

/-- `toF64(r) * 2^-32` is exact (R153): `r * 2^1042` units, no sign, finite. -/
theorem unitF64_exact (r : Word) : f64Magnitude (unitF64 r) = r.toNat * 2 ^ 1042 ∧
    f64Sign (unitF64 r) = false ∧ f64Exponent (unitF64 r) < 2047 := by
  obtain ⟨magnitude, sign, finite⟩ := toF64_exact r
  have scale : f64Magnitude f64TwoPowMinus32 = 2 ^ 1042 ∧ f64Sign f64TwoPowMinus32 = false ∧
      f64Exponent f64TwoPowMinus32 < 2047 := by decide +kernel
  obtain ⟨scaleMagnitude, scaleSign, scaleFinite⟩ := scale
  rw [unitF64, fmul_finite finite scaleFinite, magnitude, sign, scaleMagnitude, scaleSign, Nat.mul_right_comm]
  exact f64Round_exact (pow_pos two_pos _) (by have := r.isLt; omega) rfl (word_mul_lt r (by decide))

theorem f64IsNan_unitF64 (r : Word) : f64IsNan (unitF64 r) = false :=
  f64IsNan_of_finite (unitF64_exact r).2.2

theorem f64Scaled_unitF64 (r : Word) : f64Scaled (unitF64 r) = (r.toNat : Int) * 2 ^ 1042 := by
  obtain ⟨magnitude, sign, -⟩ := unitF64_exact r
  rw [f64Scaled_of_sign_false sign, magnitude, Nat.cast_mul, Nat.cast_pow]
  rfl

/-- The uniform is below 1.0 in units of 2^-1074 (R153). -/
theorem word_mul_lt_one (r : Word) : (r.toNat : Int) * 2 ^ 1042 < 2 ^ 1074 :=
  calc (r.toNat : Int) * 2 ^ 1042 < 2 ^ 32 * 2 ^ 1042 :=
        Int.mul_lt_mul_of_pos_right (by exact_mod_cast r.isLt) (pow_pos two_pos _)
    _ = 2 ^ 1074 := by rw [← pow_add]

/-- `<` against a pattern that is no NaN, of patterns that are none (R14). -/
theorem flt_eq {x y : F64} (hx : f64IsNan x = false) (hy : f64IsNan y = false) :
    flt x y = decide (f64Scaled x < f64Scaled y) := by
  simp [flt, hx, hy]

theorem fle_eq {x y : F64} (hx : f64IsNan x = false) (hy : f64IsNan y = false) :
    fle x y = decide (f64Scaled x ≤ f64Scaled y) := by
  simp [fle, hx, hy]

theorem f64IsNan_one : f64IsNan f64One = false := by decide

theorem f64IsNan_zero : f64IsNan f64Zero = false := by decide

/-- Settles O44: both roundings of `unitF64` are exact. -/
theorem unitDoubleIsExact : Obligations.UnitDoubleIsExact := by
  refine fun r => ⟨f64IsNan_unitF64 r, (unitF64_exact r).2.1, f64Scaled_unitF64 r, ?_⟩
  rw [flt_eq (f64IsNan_unitF64 r) f64IsNan_one, f64Scaled_unitF64, f64Scaled_one]
  exact decide_eq_true (word_mul_lt_one r)

/-- A shift by `b` bits moves the top bit by `b`. -/
theorem log2_mul_two_pow {s : Nat} (positive : s ≠ 0) (b : Nat) : Nat.log2 (s * 2 ^ b) = Nat.log2 s + b := by
  refine (Nat.log2_eq_iff (Nat.mul_ne_zero positive (Nat.two_pow_pos b).ne')).2 ⟨?_, ?_⟩
  · rw [pow_add]
    exact Nat.mul_le_mul_right _ (Nat.log2_self_le positive)
  · rw [Nat.add_right_comm, pow_add]
    exact Nat.mul_lt_mul_of_pos_right Nat.lt_log2_self (Nat.two_pow_pos b)

section Single

variable {s : Nat}

/-- A 24-bit integer shifted until its top bit is bit 23. -/
theorem topped_bounds (positive : s ≠ 0) (hs : s < 2 ^ 24) :
    Nat.log2 s ≤ 23 ∧ 2 ^ 23 ≤ s * 2 ^ (23 - Nat.log2 s) ∧ s * 2 ^ (23 - Nat.log2 s) < 2 ^ 24 := by
  have width : Nat.log2 s ≤ 23 := Nat.le_of_lt_succ ((Nat.log2_lt positive).2 hs)
  refine ⟨width, ?_, ?_⟩
  · calc 2 ^ 23 = 2 ^ Nat.log2 s * 2 ^ (23 - Nat.log2 s) := by rw [← pow_add, Nat.add_sub_cancel' width]
      _ ≤ s * 2 ^ (23 - Nat.log2 s) := Nat.mul_le_mul_right _ (Nat.log2_self_le positive)
  · calc s * 2 ^ (23 - Nat.log2 s) < 2 ^ (Nat.log2 s + 1) * 2 ^ (23 - Nat.log2 s) :=
          Nat.mul_lt_mul_of_pos_right Nat.lt_log2_self (Nat.two_pow_pos _)
      _ = 2 ^ 24 := by rw [← pow_add]; congr 1; omega

/-- A positive 24-bit integer times 2^-24 has the binary32 encoding of its own bits, shifted to the top (R154). -/
theorem roundMagnitude_unitF32 (positive : s ≠ 0) (hs : s < 2 ^ 24) :
    roundMagnitude 23 0x7F800000 (s * 2 ^ 149) (2 ^ 24) =
      (Nat.log2 s + 102) * 2 ^ 23 + s * 2 ^ (23 - Nat.log2 s) := by
  obtain ⟨width, -, high⟩ := topped_bounds positive hs
  have quotient : s * 2 ^ 149 / 2 ^ 24 = s * 2 ^ 125 := by
    rw [show 149 = 125 + 24 from rfl, pow_add, ← Nat.mul_assoc, Nat.mul_div_cancel _ (by decide)]
  have place : Nat.log2 (s * 2 ^ 125) - 23 = Nat.log2 s + 102 := by
    rw [log2_mul_two_pow positive]
    omega
  have whole : s * 2 ^ 149 = s * 2 ^ (23 - Nat.log2 s) * (2 ^ 24 * 2 ^ (Nat.log2 s + 102)) := by
    rw [Nat.mul_assoc, ← pow_add, ← pow_add]
    congr 2
    omega
  simp only [roundMagnitude, quotient, place]
  rw [whole, roundQuotient_exact _ (Nat.mul_pos (by decide) (Nat.two_pow_pos _))]
  omega

end Single

/-- Settles O45: a value below 256 shifts to 0, and any other's encoding is that of `roundMagnitude_unitF32`. -/
theorem unitSingleIsExact : Obligations.UnitSingleIsExact := by
  intro r
  have shifted : (r >>> 8).toNat = r.toNat / 256 := by rw [BitVec.toNat_ushiftRight, Nat.shiftRight_eq_div_pow]
  by_cases small : r.toNat < 256
  · have zero : unitF32 r = 0#32 := by
      rw [unitF32, shifted, Nat.div_eq_of_lt small]
      decide
    exact ⟨fun _ => zero, fun large => absurd small large.not_gt, by rw [zero]; decide⟩
  · have positive : r.toNat / 256 ≠ 0 := by omega
    have narrow : r.toNat / 256 < 2 ^ 24 := by have := r.isLt; omega
    obtain ⟨width, low, high⟩ := topped_bounds positive narrow
    have value : (unitF32 r).toNat =
        (Nat.log2 (r.toNat / 256) + 102) * 2 ^ 23 + r.toNat / 256 * 2 ^ (23 - Nat.log2 (r.toNat / 256)) := by
      rw [unitF32, shifted, roundMagnitude_unitF32 positive narrow, BitVec.toNat_ofNat, Nat.mod_eq_of_lt (by omega)]
    refine ⟨fun below => absurd below small, fun _ => ?_, by omega⟩
    have exponent : (unitF32 r).toNat / 2 ^ 23 - 1 = Nat.log2 (r.toNat / 256) + 102 := by omega
    have significand : 2 ^ 23 + (unitF32 r).toNat % 2 ^ 23 = r.toNat / 256 * 2 ^ (23 - Nat.log2 (r.toNat / 256)) := by
      omega
    rw [exponent, significand, Nat.mul_assoc, ← pow_add]
    congr 2
    omega

/-- The exponent and the fraction of a pattern put together from its three fields. -/
theorem f64_fields_append (sign : BitVec 1) (exponent : BitVec 11) (fraction : BitVec 52) :
    f64Exponent (sign ++ exponent ++ fraction) = exponent.toNat ∧
      f64Fraction (sign ++ exponent ++ fraction) = fraction.toNat := by
  refine ⟨congrArg BitVec.toNat ((BitVec.extractLsb'_append_eq_of_le (by decide)).trans ?_),
    congrArg BitVec.toNat BitVec.extractLsb'_append_eq_right⟩
  exact BitVec.extractLsb'_append_eq_right

/-- `FP_NAN` has all ones in the exponent and a fraction that is not 0, whatever the free value (R152). -/
theorem f64IsNan_fpNan (i : Instr) (operands : List F64) : f64IsNan (fpNan i operands) = true := by
  obtain ⟨exponent, fraction⟩ := f64_fields_append ((Config.nanPattern i operands).extractLsb' 52 1) 0x7FF#11
    (if (Config.nanPattern i operands).extractLsb' 0 52 = 0#52 then 1#52
      else (Config.nanPattern i operands).extractLsb' 0 52)
  have ones : f64Exponent (fpNan i operands) = 2047 := exponent
  have nonzero : f64Fraction (fpNan i operands) ≠ 0 := by
    refine ne_of_eq_of_ne fraction ?_
    split
    case isTrue => decide
    case isFalse other => exact fun zero => other (BitVec.eq_of_toNat_eq zero)
  rw [f64IsNan, ones]
  simpa using nonzero

/-- Settles O51: a NaN result is replaced by `FP_NAN`, which is a NaN encoding for every free value. -/
theorem nanResultsAreNanEncodings : Obligations.NanResultsAreNanEncodings := by
  refine fun i operands v => ⟨f64IsNan_fpNan i operands, fun number => by simp [resultF64, number], fun nan => ?_⟩
  rw [resultF64, if_pos nan, f64IsNan_fpNan]

/-- A uniform is written as it is (R152, R157). -/
theorem resultF64_of_not_nan {v : F64} (i : Instr) (operands : List F64) (h : f64IsNan v = false) :
    resultF64 i operands v = v := by
  simp [resultF64, h]

/-- Settles O46: one draw each, and the double is no NaN. -/
theorem floatAndDoubleComplete : Obligations.FloatAndDoubleComplete := by
  refine ⟨rfl, rfl, fun s => ⟨congrArg Host.Outcome.next (completeValue_one s _), ?double⟩⟩
  case double =>
    refine (congrArg Host.Outcome.next (completeValue_one s _)).trans ?_
    rw [resultF64_of_not_nan _ _ (f64IsNan_unitF64 _)]
    rfl

/-- The check of R158 refuses a NaN. -/
theorem probabilityOk_of_nan {p : F64} (nan : f64IsNan p = true) : probabilityOk p = false := by
  rw [probabilityOk, fle, nan, Bool.not_true, Bool.and_false, Bool.false_and, Bool.false_and]

/-- The check of R158 takes any other value from 0.0 to 1.0, both zeros included. -/
theorem probabilityOk_of_not_nan {p : F64} (number : f64IsNan p = false) :
    probabilityOk p = (decide (0 ≤ f64Scaled p) && decide (f64Scaled p ≤ 2 ^ 1074)) := by
  rw [probabilityOk, fle_eq f64IsNan_zero number, fle_eq number f64IsNan_one, f64Scaled_zero, f64Scaled_one]

/-- Settles O47: the uniform is exact, so the comparison is one of integers. -/
theorem boolThresholdIsExact : Obligations.BoolThresholdIsExact := by
  refine ⟨rfl, fun s number low high => ?draws, fun s invalid => ?refused⟩
  case draws =>
    have valid : probabilityOk (operandF64 s.operand0) = true := by
      rw [operandF64, probabilityOk_of_not_nan number, decide_eq_true low, decide_eq_true high, Bool.and_self]
    have threshold (r : Word) : resultBool (flt (unitF64 r) (operandF64 s.operand0)) =
        if (r.toNat : Int) * 2 ^ 1042 < f64Scaled s.operand0 then 1#64 else 0#64 := by
      rw [operandF64, flt_eq (f64IsNan_unitF64 r) number, f64Scaled_unitF64, resultBool]
      exact if_congr decide_eq_true_iff rfl rfl
    rw [← threshold]
    exact (if_pos valid).trans (congrArg Host.Outcome.next (completeValue_one s _))
  case refused =>
    have refusal : probabilityOk (operandF64 s.operand0) = false := by
      rw [operandF64]
      cases nan : f64IsNan s.operand0 with
      | true => exact probabilityOk_of_nan nan
      | false =>
        rw [probabilityOk_of_not_nan nan]
        rcases invalid with nan' | negative | above
        · rw [nan] at nan'
          cases nan'
        · rw [decide_eq_false negative.not_ge, Bool.false_and]
        · rw [decide_eq_false above.not_ge, Bool.and_false]
    exact if_neg (by rw [refusal]; exact Bool.false_ne_true)

end Sys2Proof.Machine
end

section
/-! The resampling loop gives up only on an endless run of zeros, and NORMAL runs it twice; O52 and O53. -/

namespace Sys2Proof.Machine

open Sys2Proof.Safety

/-- A refilled state needs no further refill, so it draws as the state before does (R110). -/
theorem nextRaw_refill (s : State) : nextRaw (refill s) = nextRaw s := by
  rw [nextRaw, nextRaw, refill_below (refill_index_lt s)]

/-- The raw stream of a refilled state is that of the state before. -/
theorem rawDraw_refill (s : State) (n : Nat) : rawDraw (refill s) n = rawDraw s n := by
  cases n with
  | zero => exact congrArg Prod.fst (nextRaw_refill s)
  | succ n =>
    rw [rawDraw, rawDraw, drawMany, drawMany, nextRaw_refill]

/-- A refill up to cursor 624 keeps all-zero words all zero: a twist fixes them (R107). -/
theorem refill_words_of_zero {s : State} (zero : ∀ i, wordAt s.words i = 0#32) (h : s.index.toNat ≤ 624) :
    (refill s).words = s.words := by
  rcases h.lt_or_eq with below | boundary
  · rw [refill_below below]
  · rw [refill_at (BitVec.eq_of_toNat_eq boundary), twist_words]
    exact allZeroIsATwistFixedPoint _ _ _ fun i _ => zero i

/-- From all-zero words and a cursor up to 624 every raw draw is 0 (R107). -/
theorem rawDraw_of_zero {s : State} (zero : ∀ i, wordAt s.words i = 0#32) (h : s.index.toNat ≤ 624) (n : Nat) :
    rawDraw s n = 0#32 := by
  have kept := refill_words_of_zero zero h
  induction n generalizing s with
  | zero =>
    rw [rawDraw, drawMany, nextRaw_value, kept, zero]
    decide
  | succ n ih =>
    have words : (nextRaw s).2.words = s.words := kept
    have zero' (i : Nat) : wordAt (nextRaw s).2.words i = 0#32 := by rw [words, zero]
    have cursor := (nextRaw_index_range s).2
    exact ih zero' cursor (refill_words_of_zero zero' cursor)

/-- A whole pass of zeros after a twist, which leaves the cursor at 0, means that all words are zero. -/
theorem words_zero_of_pass {s : State} (start : s.index = 0#10) (h : ∀ k, k < 624 → rawDraw s k = 0#32) (i : Nat) :
    wordAt s.words i = 0#32 := by
  have cursor : s.index.toNat = 0 := by rw [start]; rfl
  obtain ⟨-, -, reads⟩ := drawMany_within_pass s (n := 624) (by omega)
  have below : i % 624 < 624 := Nat.mod_lt i (by decide)
  have read := reads _ below
  rw [h _ below, cursor, Nat.zero_add, wordAt_mod] at read
  exact (temper_eq_zero_iff _).1 read.symm

/-- Within 624 draws comes one that twists first. -/
theorem exists_refill_twists (s : State) : ∃ t ≤ 624, 624 ≤ (drawMany t s).index.toNat := by
  rcases Nat.lt_or_ge s.index.toNat 624 with below | above
  · obtain ⟨-, cursor, -⟩ := drawMany_within_pass s (n := 624 - s.index.toNat) (by omega)
    exact ⟨624 - s.index.toNat, Nat.sub_le _ _, by omega⟩
  · exact ⟨0, by decide, above⟩

/-- After 1248 zero draws every draw is zero: they cover a whole pass after a twist (log entry 9). -/
theorem rawDraw_eq_zero_of_openFuel {s : State} (h : ∀ k, k < Config.openFuel → rawDraw s k = 0#32) (n : Nat) :
    rawDraw s n = 0#32 := by
  obtain ⟨t, ht, twists⟩ := exists_refill_twists s
  have stream (k : Nat) : rawDraw (refill (drawMany t s)) k = rawDraw s (t + k) := by
    rw [rawDraw_refill, rawDraw_drawMany]
  have start : (refill (drawMany t s)).index = 0#10 := by
    rw [refill_of_le twists]
    rfl
  have fuel : Config.openFuel = 624 + 624 := rfl
  have zero := words_zero_of_pass start fun k hk => (stream k).trans (h _ (by omega))
  rcases Nat.lt_or_ge n t with before | after
  · exact h n (by omega)
  · rw [← Nat.add_sub_cancel' after, ← stream]
    exact rawDraw_of_zero zero (by rw [start]; decide) _

/-- Settles O52: the loop gives up after 1248 zero draws, and then all draws are zero. -/
theorem openUniformGivesUpOnlyOnEndlessZeros : Obligations.OpenUniformGivesUpOnlyOnEndlessZeros :=
  fun _ => drawNonzero_none_iff.trans ⟨rawDraw_eq_zero_of_openFuel, fun h k _ => h k⟩

/-- With its fuel the loop answers the first non-zero draw wherever it is, and it is within the fuel. -/
theorem drawNonzero_openFuel {i : Nat} {s : State} (h : rawDraw s i ≠ 0#32) (zeros : ∀ k, k < i → rawDraw s k = 0#32) :
    i < Config.openFuel ∧ drawNonzero Config.openFuel s = some (rawDraw s i, drawMany (i + 1) s) := by
  have within : i < Config.openFuel := by
    by_contra beyond
    exact h (rawDraw_eq_zero_of_openFuel (fun k hk => zeros k (by omega)) i)
  exact ⟨within, drawNonzero_first within h zeros⟩

/-- NORMAL whose two resampling loops answer completes with R171's value of the two uniforms. -/
theorem exec_normal_of_draws {s g g' : State} {r r' : Word} (first : drawNonzero Config.openFuel (started s) = some (r, g))
    (second : drawNonzero Config.openFuel g = some (r', g')) :
    exec .normal s = .next (completeValue (resultF64 .normal [s.operand0, s.operand1]
      (boxMuller s s.operand0 s.operand1 (unitF64 r) (unitF64 r'))) g') := by
  have first' : drawNonzero Config.openFuel (beginCommand s) = some (r, g) := first
  simp only [exec, execNormal, first', second, operandF64]

/-- NORMAL hangs where its first or its second loop gives up (R276). -/
theorem exec_normal_hang {s : State} (h : drawNonzero Config.openFuel (started s) = none ∨
    ∃ d, drawNonzero Config.openFuel (started s) = some d ∧ drawNonzero Config.openFuel d.2 = none) :
    exec .normal s = .fault .hang := by
  rw [show started s = beginCommand s from rfl] at h
  rcases h with first | ⟨d, first, second⟩
  · simp only [exec, execNormal, first]
  · simp only [exec, execNormal, first, second]

/-- Settles O53: the two loops answer the two non-zero draws, both within the fuel; without a second one, one of the loops
gives up. -/
theorem normalCompletesOnTwoNonzeroDraws : Obligations.NormalCompletesOnTwoNonzeroDraws := by
  refine ⟨rfl, fun s i j hij hi hj zeros => ?completes, fun s i zeros => exec_normal_hang ?hangs⟩
  case completes =>
    have rest (k : Nat) : rawDraw (drawMany (i + 1) (started s)) k = rawDraw (started s) (i + 1 + k) :=
      rawDraw_drawMany _ _ _
    have place : i + 1 + (j - (i + 1)) = j := by omega
    obtain ⟨within, first⟩ := drawNonzero_openFuel hi fun k hk => zeros k (by omega) (by omega)
    obtain ⟨within', second⟩ := drawNonzero_openFuel (s := drawMany (i + 1) (started s)) (i := j - (i + 1))
      (by rwa [rest, place]) fun k hk => by rw [rest]; exact zeros _ (by omega) (by omega)
    have count : (drawMany (j + 1) (started s)).draws = j + 1 := (drawMany_draws _ _).trans (Nat.zero_add _)
    have fuel : Config.openFuel = 1248 := rfl
    rw [rest, ← drawMany_add, ← Nat.add_assoc, place] at second
    rw [exec_normal_of_draws first second, completeValue_eq_completed (drewFrom_drawMany _ _), count, saturate,
      Nat.min_eq_left (by omega)]
    rfl
  case hangs =>
    by_cases all : rawDraw (started s) i = 0#32
    · refine .inl ((openUniformGivesUpOnlyOnEndlessZeros _).2 fun k => ?_)
      by_cases same : k = i
      · rwa [same]
      · exact zeros k same
    · refine .inr ⟨_, (drawNonzero_openFuel all fun k hk => zeros k hk.ne).2,
        (openUniformGivesUpOnlyOnEndlessZeros _).2 fun k => ?_⟩
      rw [rawDraw_drawMany]
      exact zeros _ (by omega)

end Sys2Proof.Machine
end

section
/-! EXPON takes the positive rates and POISSON the finite non-negative means; O54 and O55. -/

namespace Sys2Proof.Machine

open Sys2Proof.Safety

/-- `1 - u` is exact for every uniform (R172): it is `(2^32 - r) * 2^1042` units. -/
theorem f64Scaled_one_sub_unitF64 (r : Word) :
    f64Scaled (fsub f64One (unitF64 r)) = 2 ^ 1074 - (r.toNat : Int) * 2 ^ 1042 := by
  have finite : f64Exponent f64One < 2047 := by decide
  have positive : 0 < (2 : Int) ^ 1074 - (r.toNat : Int) * 2 ^ 1042 := sub_pos.2 (word_mul_lt_one r)
  have difference : (2 : Int) ^ 1074 - (r.toNat : Int) * 2 ^ 1042 = ((2 ^ 32 - r.toNat) * 2 ^ 1042 : Nat) := by
    rw [Nat.cast_mul, Nat.cast_sub r.isLt.le, Nat.cast_pow, Nat.cast_pow, Nat.cast_ofNat, sub_mul, ← pow_add]
  have bound : (2 ^ 32 - r.toNat) * 2 ^ 1042 < 2 ^ 2098 :=
    calc (2 ^ 32 - r.toNat) * 2 ^ 1042 ≤ 2 ^ 32 * 2 ^ 1042 := Nat.mul_le_mul_right _ (Nat.sub_le _ _)
      _ = 2 ^ 1074 := by rw [← pow_add]
      _ < 2 ^ 2098 := pow_lt_pow_right₀ one_lt_two (by decide)
  obtain ⟨value, sign, -⟩ := f64Round_exact one_pos (a := 2 ^ 32 - r.toNat) (by omega) rfl bound
  rw [Nat.mul_one] at value sign
  rw [fsub_finite finite (unitF64_exact r).2.2, f64Scaled_one, f64Scaled_unitF64, if_neg positive.ne',
    decide_eq_false positive.not_gt, difference, Int.natAbs_natCast, f64Scaled_of_sign_false sign, value]

/-- The check of R172 takes the positive rates. -/
theorem flt_zero_of_not_nan {x : F64} (number : f64IsNan x = false) : flt f64Zero x = decide (0 < f64Scaled x) := by
  rw [flt_eq f64IsNan_zero number, f64Scaled_zero]

/-- A NaN is above nothing (R14). -/
theorem flt_of_nan {x y : F64} (nan : f64IsNan x = true ∨ f64IsNan y = true) : flt x y = false := by
  rcases nan with nan | nan <;> simp [flt, nan]

/-- Settles O54: the rate is checked by value, and the uniform and its complement are exact. -/
theorem exponCompletesForPositiveRates : Obligations.ExponCompletesForPositiveRates := by
  refine ⟨rfl, fun s number positive => ⟨?draws, f64Scaled_one_sub_unitF64 _⟩, fun s invalid => ?refused⟩
  case draws =>
    have valid : flt f64Zero (operandF64 s.operand0) = true := by
      rw [operandF64, flt_zero_of_not_nan number]
      exact decide_eq_true positive
    exact (if_pos valid).trans (congrArg Host.Outcome.next (completeValue_one s _))
  case refused =>
    have refusal : flt f64Zero (operandF64 s.operand0) = false := by
      rw [operandF64]
      cases nan : f64IsNan s.operand0 with
      | true => exact flt_of_nan (.inr nan)
      | false =>
        rw [flt_zero_of_not_nan nan]
        exact decide_eq_false (invalid.resolve_left (by simp [nan])).not_gt
    exact if_neg (by rw [refusal]; exact Bool.false_ne_true)

/-- A pattern that is not finite has a magnitude above every finite one. -/
theorem le_f64Magnitude_of_not_finite {x : F64} (h : ¬f64Exponent x < 2047) : 2 ^ 2098 ≤ f64Magnitude x :=
  calc 2 ^ 2098 = 2 ^ 52 * 2 ^ 2046 := by rw [← pow_add]
    _ ≤ (2 ^ 52 + f64Fraction x) * 2 ^ (f64Exponent x - 1) :=
        Nat.mul_le_mul (Nat.le_add_right _ _) (pow_le_pow_right₀ one_le_two (by omega))
    _ = f64Magnitude x := (f64Magnitude_of_exponent_ne_zero (by omega)).symm

/-- A value that is not negative is its magnitude. -/
theorem f64Scaled_of_nonneg {x : F64} (h : 0 ≤ f64Scaled x) : f64Scaled x = f64Magnitude x := by
  cases sign : f64Sign x with
  | false => exact f64Scaled_of_sign_false sign
  | true =>
    rw [f64Scaled, sign, if_pos rfl] at h ⊢
    omega

/-- A value that is not negative lies below the infinity exactly when it is finite. -/
theorem f64Scaled_lt_infinity_iff {x : F64} (h : 0 ≤ f64Scaled x) : f64Scaled x < 2 ^ 2098 ↔ f64Exponent x < 2047 := by
  have cast : (2 : Int) ^ 2098 = (2 ^ 2098 : Nat) := by rw [Nat.cast_pow, Nat.cast_ofNat]
  rw [f64Scaled_of_nonneg h, cast, Nat.cast_lt]
  exact ⟨fun below => by_contra fun infinite => (le_f64Magnitude_of_not_finite infinite).not_gt below,
    f64Magnitude_lt_of_finite⟩

theorem f64Scaled_inf : f64Scaled f64Inf = 2 ^ 2098 := by decide +kernel

/-- The check of R173 takes exactly the finite values that are not negative. -/
theorem meanOk_iff (mean : F64) :
    meanOk mean = true ↔ f64IsNan mean = false ∧ 0 ≤ f64Scaled mean ∧ f64Exponent mean < 2047 := by
  have inf : f64IsNan f64Inf = false := by decide
  rw [meanOk, Bool.and_eq_true]
  cases nan : f64IsNan mean with
  | true =>
    rw [flt_of_nan (.inl nan)]
    simp
  | false =>
    rw [fle_eq f64IsNan_zero nan, flt_eq nan inf, f64Scaled_zero, f64Scaled_inf, decide_eq_true_iff, decide_eq_true_iff]
    exact ⟨fun ⟨nonneg, below⟩ => ⟨rfl, nonneg, (f64Scaled_lt_infinity_iff nonneg).1 below⟩,
      fun ⟨_, nonneg, finite⟩ => ⟨nonneg, (f64Scaled_lt_infinity_iff nonneg).2 finite⟩⟩

/-- POISSON whose loop answers completes with the iteration count less one (R173). -/
theorem exec_poisson_of_loop {s : State} {r : Dword × State} (valid : meanOk s.operand0 = true)
    (loop : poissonLoop (exp64 s (fneg s.operand0)) Config.poissonFuel 0#64 f64One (started s) = some r) :
    exec .poisson s = .next (completeValue (r.1 - 1#64) r.2) := by
  have loop' : poissonLoop (exp64 s (fneg s.operand0)) Config.poissonFuel 0#64 f64One (beginCommand s) = some r := loop
  simp only [exec, execPoisson, operandF64, valid, if_true, loop']

/-- The count less one, in 64 bits. -/
theorem ofNat_sub_one {n : Nat} (h : 1 ≤ n) : BitVec.ofNat 64 n - 1#64 = BitVec.ofNat 64 (n - 1) := by
  obtain ⟨m, rfl⟩ := Nat.exists_eq_add_of_le' h
  rw [BitVec.ofNat_add, BitVec.add_sub_cancel, Nat.add_sub_cancel]

/-- Settles O55: the loop stops at iteration `n`, having drawn `n` times. -/
theorem poissonCompletesAtItsFirstSmallProduct : Obligations.PoissonCompletesAtItsFirstSmallProduct := by
  refine ⟨rfl, fun s n number nonneg finite hn fuel above stop => ?completes, fun s invalid => ?refused⟩
  case completes =>
    have loop := poissonLoop_first (k := 0) (s := started s) (fuel := Config.poissonFuel) fuel hn
      (fun j hj hjn => by rw [Nat.zero_add]; exact above j hj hjn) (by rwa [Nat.zero_add])
    have count : (drawMany n (started s)).draws = n := (drawMany_draws _ _).trans (Nat.zero_add _)
    rw [Nat.zero_add] at loop
    rw [exec_poisson_of_loop ((meanOk_iff _).2 ⟨number, nonneg, finite⟩) loop,
      completeValue_eq_completed (drewFrom_drawMany _ _), count, ofNat_sub_one hn]
    rfl
  case refused =>
    have refusal : ¬meanOk (operandF64 s.operand0) = true := by
      rw [operandF64, meanOk_iff]
      rintro ⟨number, nonneg, finite⟩
      rcases invalid with nan | negative | infinite
      · rw [number] at nan
        cases nan
      · exact negative.not_ge nonneg
      · exact finite.ne infinite
    exact if_neg refusal

end Sys2Proof.Machine
end

section
/-! Commands run on equal generators and operands: every draw, and so every outcome, is the same; O57. -/

namespace Sys2Proof.Machine

open Sys2Proof.Safety

/-- Two states with the same generator that have drawn equally often. -/
def Paired (a b : State) : Prop := sameGenerator a b ∧ a.draws = b.draws

section Draws

variable {a b : State}

theorem paired_beginCommand (h : sameGenerator a b) : Paired (beginCommand a) (beginCommand b) := ⟨h, rfl⟩

/-- A seed reads no part of the generator (R102). -/
theorem paired_seed (h : Paired a b) (v : Word) : Paired (seed v a) (seed v b) := by
  obtain ⟨⟨-, -, cfgM, cfgMatrixA⟩, draws⟩ := h
  exact ⟨⟨rfl, rfl, cfgM, cfgMatrixA⟩, draws⟩

/-- Lazy seeding depends on the cursor (R104). -/
theorem paired_ensureSeeded (h : Paired a b) : Paired (ensureSeeded a) (ensureSeeded b) := by
  have ⟨⟨_, index, _, _⟩, _⟩ := h
  unfold ensureSeeded
  rw [index]
  split
  · exact paired_seed h _
  · exact h

/-- A twist depends on the words and the configuration (R106). -/
theorem paired_twist (h : Paired a b) : Paired (twist a) (twist b) := by
  obtain ⟨⟨words, -, cfgM, cfgMatrixA⟩, draws⟩ := h
  exact ⟨⟨by rw [twist_words, twist_words, words, cfgM, cfgMatrixA], rfl, cfgM, cfgMatrixA⟩, draws⟩

/-- A raw draw is the same and leaves the states paired (R110). -/
theorem paired_nextRaw (h : Paired a b) : (nextRaw a).1 = (nextRaw b).1 ∧ Paired (nextRaw a).2 (nextRaw b).2 := by
  obtain ⟨value, generator⟩ := nextRaw_sameGenerator h.1
  exact ⟨value, generator, by rw [nextRaw_draws, nextRaw_draws, h.2]⟩

theorem paired_mapRange (h : Paired a b) (lo : Int) (span : Nat) :
    (mapRange lo span a).1 = (mapRange lo span b).1 ∧ Paired (mapRange lo span a).2 (mapRange lo span b).2 := by
  obtain ⟨value, paired⟩ := paired_nextRaw h
  exact ⟨by rw [mapRange, mapRange, value], paired⟩

theorem paired_xorDraws (h : Paired a b) (n : Nat) (acc : Word) :
    (xorDraws n acc a).1 = (xorDraws n acc b).1 ∧ Paired (xorDraws n acc a).2 (xorDraws n acc b).2 := by
  induction n generalizing acc a b with
  | zero => exact ⟨rfl, h⟩
  | succ n ih =>
    obtain ⟨value, paired⟩ := paired_nextRaw h
    rw [xorDraws, xorDraws, value]
    exact ih paired _

/-- Two answers of a drawing loop: the same value and paired states. -/
def SameAnswer {α : Type} (x y : α × State) : Prop := x.1 = y.1 ∧ Paired x.2 y.2

/-- The resampling loop gives up on both or answers the same (R155). -/
theorem sameAnswer_drawNonzero (h : Paired a b) (n : Nat) :
    Option.Rel SameAnswer (drawNonzero n a) (drawNonzero n b) := by
  induction n generalizing a b with
  | zero => exact .none
  | succ n ih =>
    obtain ⟨value, paired⟩ := paired_nextRaw h
    rw [drawNonzero, drawNonzero, value]
    split
    · exact ih paired
    · exact .some ⟨value, paired⟩

/-- The loop of R173 gives up on both or answers the same. -/
theorem sameAnswer_poissonLoop (h : Paired a b) (limit : F64) (n : Nat) (k : Dword) (p : F64) :
    Option.Rel SameAnswer (poissonLoop limit n k p a) (poissonLoop limit n k p b) := by
  induction n generalizing a b k p with
  | zero => exact .none
  | succ n ih =>
    obtain ⟨value, paired⟩ := paired_nextRaw h
    rw [poissonLoop, poissonLoop, value]
    split
    · exact ih paired _ _
    · exact .some ⟨rfl, paired⟩

end Draws

/-- The states that the command `i` leaves agree in the generator, in LAST_DRAWS and the flags, and in RES where `i` writes
one (R18). -/
def AgreeAfter (i : Instr) (s t : State) : Prop :=
  sameGenerator s t ∧ s.lastDraws = t.lastDraws ∧ s.err = t.err ∧ s.errCode = t.errCode ∧
    (s.err = false → i ≠ .seed → i ≠ .seedent → i ≠ .twist → s.res = t.res)

/-- Two outcomes of the command `i` that stop alike or agree. -/
inductive SameOutcome (i : Instr) : Host.Outcome State Fault Refusal → Host.Outcome State Fault Refusal → Prop
  | next {s t : State} (h : AgreeAfter i s t) : SameOutcome i (.next s) (.next t)
  | fault (f : Fault) : SameOutcome i (.fault f) (.fault f)

section Outcomes

variable {i : Instr} {a b : State}

theorem sameOutcome_completeValue {v w : Dword} (value : v = w) (h : Paired a b) :
    SameOutcome i (.next (completeValue v a)) (.next (completeValue w b)) := by
  obtain ⟨generator, draws⟩ := h
  exact .next ⟨generator, congrArg saturate draws, rfl, rfl, fun _ _ _ _ => value⟩

/-- SEED, SEEDENT and TWIST write no result (R34). -/
theorem sameOutcome_completeOk (noResult : i = .seed ∨ i = .seedent ∨ i = .twist) (h : Paired a b) :
    SameOutcome i (.next (completeOk a)) (.next (completeOk b)) := by
  obtain ⟨generator, draws⟩ := h
  refine .next ⟨generator, congrArg saturate draws, rfl, rfl, fun _ seed seedent twist => ?_⟩
  rcases noResult with h | h | h
  · exact absurd h seed
  · exact absurd h seedent
  · exact absurd h twist

theorem sameOutcome_completeError (h : sameGenerator a b) (code : BitVec 4) :
    SameOutcome i (.next (completeError code a)) (.next (completeError code b)) :=
  .next ⟨h, rfl, rfl, rfl, fun failed => absurd failed (by simp)⟩

theorem SameOutcome.ite {c : Prop} [Decidable c] {x x' y y' : Host.Outcome State Fault Refusal}
    (hx : SameOutcome i x x') (hy : SameOutcome i y y') : SameOutcome i (if c then x else y) (if c then x' else y') := by
  split
  · exact hx
  · exact hy

/-- A completion with one draw. -/
theorem sameOutcome_one (h : sameGenerator a b) (f : Word → Dword) :
    SameOutcome i (.next (completeValue (f (nextRaw (beginCommand a)).1) (nextRaw (beginCommand a)).2))
      (.next (completeValue (f (nextRaw (beginCommand b)).1) (nextRaw (beginCommand b)).2)) := by
  obtain ⟨value, paired⟩ := paired_nextRaw (paired_beginCommand h)
  exact sameOutcome_completeValue (congrArg f value) paired

/-- A completion with one mapped draw (R131). -/
theorem sameOutcome_mapped (h : sameGenerator a b) (lo : Int) (span : Nat) (f : Int → Dword) :
    SameOutcome i (.next (completeValue (f (mapRange lo span (beginCommand a)).1) (mapRange lo span (beginCommand a)).2))
      (.next (completeValue (f (mapRange lo span (beginCommand b)).1) (mapRange lo span (beginCommand b)).2)) := by
  obtain ⟨value, paired⟩ := paired_mapRange (paired_beginCommand h) lo span
  exact sameOutcome_completeValue (congrArg f value) paired

end Outcomes

section Commands

variable {s t : State} (generator : sameGenerator s t) (operands : sameOperands s t)
include generator operands

theorem sameOutcome_normal : SameOutcome .normal (execNormal s) (execNormal t) := by
  obtain ⟨operand0, operand1, -, math⟩ := operands
  have first := sameAnswer_drawNonzero (paired_beginCommand generator) Config.openFuel
  have boxMuller_eq (u u' : F64) : boxMuller s s.operand0 s.operand1 u u' = boxMuller t t.operand0 t.operand1 u u' := by
    simp only [boxMuller, ln64, cos64, operand0, operand1, math]
  simp only [execNormal, operandF64]
  generalize drawNonzero Config.openFuel (beginCommand s) = x, drawNonzero Config.openFuel (beginCommand t) = y at first
  cases first with
  | none => exact .fault .hang
  | @some d e answer =>
    obtain ⟨value, paired⟩ := answer
    have second := sameAnswer_drawNonzero paired Config.openFuel
    dsimp only
    generalize drawNonzero Config.openFuel d.2 = x, drawNonzero Config.openFuel e.2 = y at second
    cases second with
    | none => exact .fault .hang
    | some answer' =>
      obtain ⟨value', paired'⟩ := answer'
      refine sameOutcome_completeValue ?_ paired'
      rw [boxMuller_eq, value, value', operand0, operand1]

theorem sameOutcome_poisson : SameOutcome .poisson (execPoisson s) (execPoisson t) := by
  obtain ⟨operand0, -, -, math⟩ := operands
  have limit (x : F64) : exp64 s x = exp64 t x := by simp only [exp64, math]
  have loop := sameAnswer_poissonLoop (paired_beginCommand generator) (exp64 t (fneg t.operand0)) Config.poissonFuel 0#64
    f64One
  simp only [execPoisson, operandF64, operand0, limit]
  refine .ite ?_ (sameOutcome_completeError generator _)
  generalize poissonLoop _ _ _ _ (beginCommand s) = x, poissonLoop _ _ _ _ (beginCommand t) = y at loop
  cases loop with
  | none => exact .fault .hang
  | some answer =>
    obtain ⟨value, paired⟩ := answer
    exact sameOutcome_completeValue (by rw [value]) paired

theorem sameOutcome_expon : SameOutcome .expon (execExpon s) (execExpon t) := by
  obtain ⟨operand0, -, -, math⟩ := operands
  have inverse (rate u : F64) : inverseCdf s rate u = inverseCdf t rate u := by simp only [inverseCdf, ln64, math]
  simp only [execExpon, operand0, inverse]
  exact .ite (sameOutcome_one generator fun r => resultF64 .expon [operandF64 t.operand0]
    (inverseCdf t (operandF64 t.operand0) (unitF64 r))) (sameOutcome_completeError generator _)

/-- SEEDENT completes with the same answer, where there is one (R112). -/
theorem sameOutcome_seedent {e : Word} (answered : s.port = .answered e) :
    SameOutcome .seedent (execSeedent s) (execSeedent t) := by
  obtain ⟨-, -, port, -⟩ := operands
  rw [execSeedent, execSeedent, ← port, answered]
  exact sameOutcome_completeOk (.inr (.inl rfl)) (paired_seed (paired_beginCommand generator) e)

/-- Every command but a waiting SEEDENT has the same outcome on equal generators and operands (R18). -/
theorem sameOutcome_exec (i : Instr) (h : i ≠ .seedent ∨ ∃ e, s.port = .answered e) :
    SameOutcome i (exec i s) (exec i t) := by
  have begun := paired_beginCommand generator
  have refused (i : Instr) := sameOutcome_completeError (i := i) generator argumentError
  have ⟨operand0, operand1, _, _⟩ := operands
  cases i with
  | seed =>
    rw [exec, exec, execSeed, execSeed, operand0]
    exact sameOutcome_completeOk (.inl rfl) (paired_seed begun _)
  | seedent =>
    obtain ⟨e, answered⟩ := h.resolve_left (absurd rfl)
    exact sameOutcome_seedent generator operands answered
  | twist => exact sameOutcome_completeOk (.inr (.inr rfl)) (paired_twist (paired_ensureSeeded begun))
  | next => exact sameOutcome_one generator resultU32
  | bool =>
    rw [exec, exec, execBool, execBool, operand0]
    exact .ite (sameOutcome_one generator fun r => resultBool (flt (unitF64 r) (operandF64 t.operand0))) (refused _)
  | int =>
    rw [exec, exec, execInt, execInt, operand0, operand1]
    exact .ite (refused _) (sameOutcome_mapped generator _ _ resultI32)
  | uint =>
    rw [exec, exec, execUint, execUint, operand0, operand1]
    exact .ite (refused _) (sameOutcome_mapped generator _ _ fun v => resultU32 (BitVec.ofInt 32 v))
  | ruint =>
    rw [exec, exec, execRuint, execRuint, operand0, operand1]
    exact .ite (refused _) (sameOutcome_mapped generator _ _ fun v => resultU32 (BitVec.ofInt 32 v))
  | float => exact sameOutcome_one generator fun r => resultF32 (unitF32 r)
  | double => exact sameOutcome_one generator fun r => resultF64 .double [] (unitF64 r)
  | byte => exact sameOutcome_one generator fun r => resultCode (r.extractLsb' 0 8)
  | char => exact sameOutcome_mapped generator 0x61 26 fun v => resultCode (BitVec.ofInt 8 v)
  | alnum => exact sameOutcome_mapped generator 0 62 fun v => resultCode (alphabet v.toNat)
  | normal => exact sameOutcome_normal generator operands
  | expon => exact sameOutcome_expon generator operands
  | poisson => exact sameOutcome_poisson generator operands
  | pseudo =>
    obtain ⟨value, paired⟩ := paired_xorDraws begun 32 0#32
    exact sameOutcome_completeValue (congrArg resultU32 value) paired

end Commands

/-- Settles O57: a waiting SEEDENT leaves both states as they are, and every other command has the same outcome. -/
theorem sameGeneratorSameResults : Obligations.SameGeneratorSameResults := by
  intro i s t generator operands
  by_cases completes : i ≠ .seedent ∨ ∃ e, s.port = .answered e
  · have outcome := sameOutcome_exec generator operands i completes
    generalize exec i s = x, exec i t = y at outcome
    cases outcome with
    | fault f => exact ⟨fun s' h => (by cases h), fun _ => id⟩
    | @next s' t' agree =>
      obtain ⟨generator', lastDraws, err, errCode, res⟩ := agree
      refine ⟨fun s'' h => ?_, fun f h => (by cases h)⟩
      obtain rfl := Host.Outcome.next.inj h
      exact ⟨t', rfl, generator', fun _ => ⟨lastDraws, err, errCode, res⟩⟩
  · obtain ⟨seedent, unanswered⟩ := not_or.1 completes
    obtain rfl := not_not.1 seedent
    have waiting (u : State) (h : u.port = s.port) : exec .seedent u = .next u := by
      refine exec_seedent_waiting ?_
      cases port : s.port with
      | quiet => exact .inl (h.trans port)
      | requested => exact .inr (h.trans port)
      | answered e => exact absurd ⟨e, port⟩ unanswered
    obtain ⟨-, -, port, -⟩ := operands
    rw [waiting s rfl, waiting t port.symm]
    refine ⟨fun s' h => ?_, fun f h => (by cases h)⟩
    obtain rfl := Host.Outcome.next.inj h
    exact ⟨t, rfl, generator, fun h => absurd h completes⟩

end Sys2Proof.Machine
end

section
/-! The swaps of `shuffle` permute; O58. -/

namespace Sys2Proof.Machine

open Sys2Proof.Safety

/-- A mapped ending with a value is the value mapped. -/
theorem map_eq_done {α β : Type} {x : ProcResult α} {f : α → β} {v : β} {t : State} (h : x.map f = .done v t) :
    ∃ a, x = .done a t ∧ f a = v := by
  cases x with
  | done a s =>
    obtain ⟨rfl, rfl⟩ := ProcResult.done.inj h
    exact ⟨a, rfl, rfl⟩
  | _ => cases h

/-- A swap permutes the list (R205). -/
theorem swap_perm {α : Type} (xs : List α) (i j : Nat) : (swap xs i j).Perm xs := by
  unfold swap
  split
  case h_1 a b ha hb =>
    obtain ⟨hi, rfl⟩ := List.getElem?_eq_some_iff.1 ha
    obtain ⟨hj, rfl⟩ := List.getElem?_eq_some_iff.1 hb
    exact List.set_set_perm hi hj
  all_goals exact .refl xs

/-- The swaps of `shuffle` permute the list, whatever indices were drawn (R205). -/
theorem shuffleSwaps_perm {α : Type} (n : Nat) (js : List Dword) (xs : List α) : (shuffleSwaps n js xs).Perm xs := by
  induction n generalizing js xs with
  | zero => exact .refl xs
  | succ n ih =>
    cases js with
    | nil => exact .refl xs
    | cons j js => exact (ih js _).trans (swap_perm xs _ _)

/-- Settles O58: a shuffle that ends with a value has made swaps only. -/
theorem shuffleIsAPermutation : Obligations.ShuffleIsAPermutation := by
  intro l values out s t h
  unfold shuffle at h
  split at h
  · cases h
  · obtain ⟨js, -, rfl⟩ := map_eq_done h
    exact shuffleSwaps_perm _ js values

end Sys2Proof.Machine
end

section
/-! Host procedures on a block outside reset: events that it answers, reads and writes of an idle block, a poll, and the
call of RUINT; O59. -/

namespace Sys2Proof.Machine

open Sys2Proof.Safety

/-- An event that goes on and, if it is an access, is answered is one step of a procedure. -/
theorem procEvents_cons {ev : Event} {s t : State} (goesOn : perform ev s = .next t) (answered : unanswered ev t = false)
    (rest : List Event) : procEvents (ev :: rest) s = procEvents rest t := by
  rw [procEvents, goesOn]
  simp [answered]

/-- A host access that is answered leaves a response on the bus. -/
theorem unanswered_of_bus {ev : Event} {s : State} (h : s.bus ≠ .none) : unanswered ev s = false := by
  cases ev <;> simp [unanswered, h]

section Accesses

variable {s : State} (released : s.inReset = false) (idle : s.busy = false)
include released

/-- A read of `STATUS` in a procedure (R57, R273). -/
theorem procEvents_rd_status (rest : List Event) :
    procEvents (.host (rd .status) :: rest) s = procEvents rest { s with bus := .data (statusWord s) } := by
  refine procEvents_cons ?_ (unanswered_of_bus (by simp)) rest
  rw [perform_rd (regAt_offset .status) released, busRead_status]

/-- The reads of a poll that find `BUSY` change the bus record only (R15, R57). -/
theorem procEvents_polls (n : Nat) (rest : List Event) :
    ∃ b, procEvents (List.replicate n (.host (rd .status)) ++ rest) s = procEvents rest { s with bus := b } := by
  induction n generalizing s with
  | zero => exact ⟨s.bus, rfl⟩
  | succ n ih =>
    rw [List.replicate_succ, List.cons_append, procEvents_rd_status released]
    exact ih (s := { s with bus := .data (statusWord s) }) released

include idle

/-- A write of an idle block in a procedure (R57). -/
theorem procEvents_wr (r : Reg) (v : Word) (rest : List Event) :
    procEvents (.host (wr r v) :: rest) s = procEvents rest { writeReg r v s with bus := .ack } :=
  procEvents_cons (perform_wr_idle r v released idle) (unanswered_of_bus (by simp)) rest

/-- `RD REG` of an idle block in a procedure (R57). -/
theorem procRead_idle (r : Reg) : procRead r s = .done (readReg r s) { s with bus := .data (readReg r s) } := by
  rw [procRead, procEvents_cons (perform_rd_idle r released idle) (unanswered_of_bus (by simp))]
  rfl

end Accesses

/-- The engine's move on the accepted word of `i`, in a procedure. -/
theorem procEvents_engine {i : Instr} {s t : State} (released : s.inReset = false) (pending : s.seq = .busy (encode i))
    (h : exec i s = .next t) (rest : List Event) : procEvents (.engine :: rest) s = procEvents rest t := by
  refine procEvents_cons ?_ rfl rest
  rw [perform, engineStep_exec released pending (decode_encode i), h]

/-- An entropy answer that finds no request changes nothing (R38). -/
theorem procEvents_entropy {s : State} (quiet : s.port = .quiet) (e : Word) (rest : List Event) :
    procEvents (.entropy e :: rest) s = procEvents rest s := by
  refine procEvents_cons ?_ rfl rest
  rw [perform, answerEntropy, quiet]

/-- A command other than SEEDENT makes no entropy request (R38). -/
theorem requestOf_encode {i : Instr} (other : i ≠ .seedent) : requestOf (encode i) = .quiet := by
  unfold requestOf
  rw [decode_encode]
  split
  case h_1 h => exact absurd (Except.ok.inj h) other
  case h_2 => rfl

/-- `WR CMD` and `POLL` of a command other than SEEDENT on an idle block (R80): the command runs in the state that
acceptance left, whatever the bus record, and the last read changes that record only. -/
theorem procEvents_issue (l : Latency) {i : Instr} {s : State} (released : s.inReset = false) (idle : s.busy = false)
    (other : i ≠ .seedent) {P : State → Prop}
    (runs : ∀ b, ∃ t, exec i { accept (encode i) s with bus := b } = .next t ∧ t.inReset = false ∧ P t) :
    ∃ t, procEvents ((issue i).flatMap (HostOp.events l)) s = .done () { t with bus := .data (statusWord t) } ∧
      t.inReset = false ∧ P t := by
  obtain ⟨b, polls⟩ := procEvents_polls (s := { accept (encode i) s with bus := .ack }) released l.polls
    [.entropy l.answer, .engine, .host (rd .status)]
  obtain ⟨t, run, released', post⟩ := runs b
  refine ⟨t, ?_, released', post⟩
  simp only [issue, List.flatMap_cons, List.flatMap_nil, HostOp.events, List.append_nil, List.singleton_append]
  calc procEvents (.host (wr .cmd (encode i)) :: _) s
      = procEvents [.entropy l.answer, .engine, .host (rd .status)] { accept (encode i) s with bus := b } :=
        (procEvents_wr released idle .cmd (encode i) _).trans polls
    _ = procEvents [.engine, .host (rd .status)] { accept (encode i) s with bus := b } :=
        procEvents_entropy (s := { accept (encode i) s with bus := b }) (requestOf_encode other) l.answer _
    _ = procEvents [.host (rd .status)] t :=
        procEvents_engine (s := { accept (encode i) s with bus := b }) released rfl run _
    _ = .done () { t with bus := .data (statusWord t) } := procEvents_rd_status released' []

/-- `s` with the two `_LO` halves written. -/
def withRange (lo hi : Word) (s : State) : State :=
  { s with arg0 := withLo s.arg0 lo, arg1 := withLo s.arg1 hi, bus := .ack }

/-- The writes of the two `_LO` halves on an idle block (R80). -/
theorem procEvents_loadRange {s : State} (released : s.inReset = false) (idle : s.busy = false) (lo hi : Word)
    (rest : List Event) :
    procEvents (.host (wr .arg0Lo lo) :: .host (wr .arg1Lo hi) :: rest) s = procEvents rest (withRange lo hi s) := by
  rw [procEvents_wr released idle]
  exact procEvents_wr (s := { s with arg0 := withLo s.arg0 lo, bus := .ack }) released idle .arg1Lo hi rest

/-- RUINT with its operands in strict order, by the value of its result (R134). -/
theorem exec_ruint_value {s : State} {lo hi : Word} (hlo : operandU32 s.operand0 = lo) (hhi : operandU32 s.operand1 = hi)
    (h : lo.toNat < hi.toNat) : ∃ v : Word, v.toNat = lo.toNat + (nextRaw (started s)).1.toNat % (hi.toNat - lo.toNat) ∧
      exec .ruint s = .next (completed s (nextRaw (started s)).2 (v.zeroExtend 64) 1#32) := by
  obtain ⟨-, completes, -⟩ := rangedUintCompletesInItsRange
  obtain rfl := hlo
  obtain rfl := hhi
  obtain ⟨v, run, value, -⟩ := completes s h
  exact ⟨v, value, run⟩

/-- The low half of a zero-extended word is the word. -/
theorem loHalf_zeroExtend (v : Word) : loHalf (v.zeroExtend 64) = v := by
  apply BitVec.eq_of_toNat_eq
  have := v.isLt
  rw [loHalf, BitVec.extractLsb'_toNat, Nat.shiftRight_zero, BitVec.zeroExtend, BitVec.toNat_setWidth]
  omega

/-- What the call of RUINT finds when its poll ends: an idle block with the mapped draw in RES. -/
def RuintDone (lo hi : Word) (s t : State) : Prop :=
  t.busy = false ∧ t.err = false ∧ sameGenerator t (nextRaw (started s)).2 ∧
    ∃ v : Word, v.toNat = lo.toNat + (nextRaw (started s)).1.toNat % (hi.toNat - lo.toNat) ∧ t.res = v.zeroExtend 64

/-- RUINT in a state with the generator of `s` and the operands `lo` and `hi`. -/
theorem ruintDone_exec {s u : State} {lo hi : Word} (generator : sameGenerator u s) (hlo : operandU32 u.operand0 = lo)
    (hhi : operandU32 u.operand1 = hi) (h : lo.toNat < hi.toNat) :
    ∃ t, exec .ruint u = .next t ∧ t.inReset = u.inReset ∧ RuintDone lo hi s t := by
  obtain ⟨v, value, run⟩ := exec_ruint_value hlo hhi h
  obtain ⟨draw, generator'⟩ := nextRaw_sameGenerator (a := started u) (b := started s) generator
  rw [draw] at value
  exact ⟨_, run, rfl, rfl, rfl, sameGenerator_trans (sameGenerator_completed (drewFrom_nextRaw _) _ _) generator', v, value,
    rfl⟩

/-- The expansion of RUINT on an idle block, up to the end of its poll (R80). -/
theorem procEvents_ruint (l : Latency) {lo hi : Word} {s : State} (released : s.inReset = false) (idle : s.busy = false)
    (h : lo.toNat < hi.toNat) : ∃ t, procEvents ((Pseudo.ruint lo hi).events l) s =
      .done () { t with bus := .data (statusWord t) } ∧ t.inReset = false ∧ RuintDone lo hi s t := by
  have events : (Pseudo.ruint lo hi).events l = .host (wr .arg0Lo lo) :: .host (wr .arg1Lo hi) ::
      (issue .ruint).flatMap (HostOp.events l) := rfl
  rw [events, procEvents_loadRange released idle]
  refine procEvents_issue l (i := .ruint) (s := withRange lo hi s) released idle (by decide) fun b => ?_
  obtain ⟨t, run, released', done⟩ := ruintDone_exec (s := s)
    (u := { accept (encode .ruint) (withRange lo hi s) with bus := b }) ⟨rfl, rfl, rfl, rfl⟩ (loHalf_withLo s.arg0 lo)
    (loHalf_withLo s.arg1 hi) h
  exact ⟨t, run, released'.trans released, done⟩

/-- The call of RUINT on an idle block answers the mapped draw, and leaves an idle block with the generator of one raw
draw (R134, R201). -/
theorem call_ruint (l : Latency) {lo hi : Word} {s : State} (released : s.inReset = false) (idle : s.busy = false)
    (h : lo.toNat < hi.toNat) : ∃ v t, call l (.ruint lo hi) s = .done v t ∧
      v.toNat = lo.toNat + (nextRaw (started s)).1.toNat % (hi.toNat - lo.toNat) ∧ t.busy = false ∧
      sameGenerator t (nextRaw (started s)).2 := by
  obtain ⟨t, events, released', idle', ok, generator, v, value, res⟩ := procEvents_ruint l released idle h
  have noError : (statusWord t).getLsbD 1 = false := (statusWord_err t).trans ok
  refine ⟨v.zeroExtend 64, { t with bus := .data (loHalf t.res) }, ?answer, ?value, idle', generator⟩
  case answer =>
    have status : procRead .status { t with bus := .data (statusWord t) } =
        .done (statusWord t) { t with bus := .data (statusWord t) } := procRead_idle released' idle' .status
    have low : procRead .resLo { t with bus := .data (statusWord t) } =
        .done (loHalf t.res) { t with bus := .data (loHalf t.res) } := procRead_idle released' idle' .resLo
    have result : (loHalf t.res).zeroExtend 64 = v.zeroExtend 64 := by rw [res, loHalf_zeroExtend]
    simp only [call, events, status, low, noError, result, ProcResult.andThen, Pseudo.needsHigh, Bool.false_eq_true,
      if_false]
  case value =>
    rw [← value]
    exact BitVec.toNat_setWidth_of_le (by decide)

/-- A draw between the weight counted so far and the total picks the choice whose cumulative weight is the first to exceed
it (R208). -/
theorem pickWeighted_spec {α : Type} {d cum : Nat} {choices : List α} {weights : List Word}
    (sameLength : choices.length = weights.length) (low : cum ≤ d) (high : d < cum + weightTotal weights) :
    ∃ (k : Nat) (c : α) (w : Word), pickWeighted d cum (choices.zip weights) = some c ∧ choices[k]? = some c ∧
      weights[k]? = some w ∧ w ≠ 0#32 ∧ cum + weightTotal (weights.take k) ≤ d ∧
      d < cum + weightTotal (weights.take (k + 1)) := by
  induction choices generalizing cum weights with
  | nil =>
    obtain rfl := List.eq_nil_of_length_eq_zero sameLength.symm
    exact absurd high low.not_gt
  | cons c choices ih =>
    obtain ⟨w, weights, rfl⟩ := List.exists_cons_of_length_eq_add_one sameLength.symm
    have total (ws : List Word) : weightTotal (w :: ws) = w.toNat + weightTotal ws := rfl
    have empty : weightTotal [] = 0 := rfl
    rw [List.zip_cons_cons, pickWeighted]
    by_cases here : d < cum + w.toNat
    · refine ⟨0, c, w, if_pos here, rfl, rfl, ?_, low, by simpa [total, empty] using here⟩
      rintro rfl
      exact absurd here low.not_gt
    · rw [total, ← Nat.add_assoc] at high
      obtain ⟨k, c', w', picked, choice, weight, nonzero, below, above⟩ := ih (Nat.succ.inj sameLength) (not_lt.1 here) high
      rw [Nat.add_assoc, ← total, ← List.take_succ_cons] at below above
      exact ⟨k + 1, c', w', (if_neg here).trans picked, choice, weight, nonzero, below, above⟩

/-- A number of the operand range is kept whole (R201). -/
theorem u32_toNat {n : Nat} (h : n ≤ 0xFFFFFFFF) : (u32 n).toNat = n := by
  rw [u32, BitVec.toNat_ofNat, Nat.mod_eq_of_lt (by omega)]

/-- Settles O59: the one call of RUINT answers the draw modulo the total, which picks a choice. -/
theorem weightedChoiceFollowsTheCumulativeWeights : Obligations.WeightedChoiceFollowsTheCumulativeWeights := by
  intro l choices weights s
  refine ⟨fun released idle sameLength short positive bounded => ?draws, fun invalid => ?refused⟩
  case draws =>
    obtain ⟨v, t, call, value, idle', generator⟩ := call_ruint l (lo := 0#32) (hi := u32 (weightTotal weights)) released
      idle (by rw [u32_toNat bounded]; exact positive)
    have draw : v.toNat = (nextRaw (started s)).1.toNat % weightTotal weights := by
      rw [value, u32_toNat bounded]
      exact Nat.zero_add _
    obtain ⟨k, c, w, picked, choice, weight, nonzero, below, above⟩ := pickWeighted_spec (cum := 0)
      (d := (nextRaw (started s)).1.toNat % weightTotal weights) sameLength (Nat.zero_le _)
      (by rw [Nat.zero_add]; exact Nat.mod_lt _ positive)
    rw [Nat.zero_add] at below above
    refine ⟨k, c, w, t, ?_, choice, weight, nonzero, below, above, idle', generator⟩
    have valid : ¬(maxLength < choices.length ∨ choices.length ≠ weights.length ∨ weightTotal weights = 0 ∨
        0xFFFFFFFF < weightTotal weights) := by
      rw [maxLength]
      omega
    rw [weightedChoice, if_neg valid, call, ProcResult.map, draw, picked]
  case refused =>
    rw [weightedChoice, if_pos]
    rw [maxLength]
    omega

end Sys2Proof.Machine
end

section
/-! Cloning copies the registers one by one, and together they are the generator; O60. -/

namespace Sys2Proof.Machine

open Sys2Proof.Safety

/-- Block B after the listed registers of A have been written to it in turn (R220). -/
def copied (a : State) (regs : List Reg) (b : State) : State :=
  regs.foldl (fun b r => { writeReg r (readReg r a) b with bus := .ack }) b

/-- A taken write of anything but `CMD` leaves the sequencer and the reset input as they are. -/
theorem Taken.keeps_idle {s t : State} {r : Reg} {v : Word} (taken : Taken s v r t) (other : r ≠ .cmd) :
    t.busy = s.busy ∧ t.inReset = s.inReset := by
  cases taken with
  | accepted => exact absurd rfl other
  | _ => exact ⟨rfl, rfl⟩

/-- No register reads the bus record (log entry 19). -/
theorem readReg_bus (r : Reg) (s : State) (b : BusResponse) : readReg r { s with bus := b } = readReg r s := by
  cases r <;> rfl

theorem copied_bus (a b : State) (regs : List Reg) (x : BusResponse) :
    copied { a with bus := x } regs b = copied a regs b := by
  simp only [copied, readReg_bus]

/-- One register copied between idle blocks. -/
theorem copyRegs_cons {a b : State} (releasedA : a.inReset = false) (idleA : a.busy = false) (releasedB : b.inReset = false)
    (idleB : b.busy = false) (r : Reg) (regs : List Reg) : copyRegs (r :: regs) a b =
      copyRegs regs { a with bus := .data (readReg r a) } { writeReg r (readReg r a) b with bus := .ack } := by
  rw [copyRegs, procRead_idle releasedA idleA]
  simp only [ProcResult.andThen]
  rw [procEvents_wr releasedB idleB]
  rfl

/-- Copying registers other than `CMD` between idle blocks changes only the bus record of the source, and the target as
`copied` says, which stays idle. -/
theorem copyRegs_done {regs : List Reg} (noCommand : .cmd ∉ regs) {a b : State} (releasedA : a.inReset = false)
    (idleA : a.busy = false) (releasedB : b.inReset = false) (idleB : b.busy = false) :
    (∃ x, copyRegs regs a b = .done { a with bus := x } (copied a regs b)) ∧ (copied a regs b).busy = false := by
  induction regs generalizing a b with
  | nil => exact ⟨⟨a.bus, rfl⟩, idleB⟩
  | cons r regs ih =>
    obtain ⟨first, others⟩ := not_or.1 (mt List.mem_cons.2 noCommand)
    obtain ⟨idle, released⟩ := (taken_writeReg r (readReg r a) b).keeps_idle (Ne.symm first)
    obtain ⟨⟨x, rest⟩, idle'⟩ := ih others (a := { a with bus := .data (readReg r a) })
      (b := { writeReg r (readReg r a) b with bus := .ack }) releasedA idleA (released.trans releasedB) (idle.trans idleB)
    rw [copied_bus] at rest idle'
    exact ⟨⟨x, (copyRegs_cons releasedA idleA releasedB idleB r regs).trans rest⟩, idle'⟩

/-- Copying words copies exactly the listed ones (R55). -/
theorem copied_words (a b : State) (is : List (Fin 624)) (j : Fin 624) :
    wordAt (copied a (is.map .word) b).words j.val = if j ∈ is then wordAt a.words j.val else wordAt b.words j.val := by
  induction is generalizing b with
  | nil => rfl
  | cons i is ih =>
    refine (ih { b with words := setWord b.words i.val (wordAt a.words i.val), bus := .ack }).trans ?_
    rw [wordAt_setWord, Nat.mod_eq_of_lt i.isLt, Nat.mod_eq_of_lt j.isLt]
    by_cases later : j ∈ is
    · simp [later]
    · by_cases now : j = i
      · simp [now]
      · simp [later, now, Fin.val_inj, Ne.symm now]

/-- Copying every word copies the state RAM (R220). -/
theorem copied_all_words (a b : State) : (copied a ((List.finRange 624).map .word) b).words = a.words :=
  ram_ext fun j hj => (copied_words a b _ ⟨j, hj⟩).trans (if_pos (List.mem_finRange _))

/-- A legal `CFG_M` is taken by another block (R29). -/
theorem writeReg_cfgM_of_legal {a : State} (legalA : legal a = true) (b : State) :
    writeReg .cfgM a.cfgM b = operationOk { b with cfgM := a.cfgM } := by
  obtain ⟨-, config, -⟩ := (legal_iff a).1 legalA
  simp only [configLegal, Bool.and_eq_true, decide_eq_true_eq] at config
  exact if_pos config.1

/-- A legal `CFG_MATRIX_A` is taken by another block (R30). -/
theorem writeReg_cfgMatrixA_of_legal {a : State} (legalA : legal a = true) (b : State) :
    writeReg .cfgMatrixA a.cfgMatrixA b = operationOk { b with cfgMatrixA := a.cfgMatrixA } := by
  obtain ⟨-, config, -⟩ := (legal_iff a).1 legalA
  simp only [configLegal, Bool.and_eq_true, decide_eq_true_eq] at config
  exact if_pos config.2

/-- A legal cursor, read zero-extended, is taken by another block (R56). -/
theorem writeReg_index_of_legal {a : State} (legalA : legal a = true) (b : State) :
    writeReg .index (a.index.zeroExtend 32) b = operationOk { b with index := a.index } := by
  obtain ⟨cursor, -⟩ := (legal_iff a).1 legalA
  have value : (a.index.zeroExtend 32).toNat = a.index.toNat := BitVec.toNat_setWidth_of_le (by decide)
  have low : (a.index.zeroExtend 32).extractLsb' 0 10 = a.index := by
    apply BitVec.eq_of_toNat_eq
    rw [BitVec.extractLsb'_toNat, Nat.shiftRight_zero, value, Nat.mod_eq_of_lt a.index.isLt]
  rw [writeReg, writeIndex, if_pos (by rw [value]; exact of_decide_eq_true cursor), low]

/-- Copying the three registers after the words makes the clone's generator that of a legal source (R220). -/
theorem sameGenerator_copied_configuration {a : State} (legalA : legal a = true) {c : State} (words : c.words = a.words) :
    sameGenerator a (copied a [.cfgM, .cfgMatrixA, .index] c) := by
  simp only [copied, List.foldl_cons, List.foldl_nil, readReg, writeReg_cfgM_of_legal legalA,
    writeReg_cfgMatrixA_of_legal legalA, writeReg_index_of_legal legalA]
  exact ⟨words.symm, rfl, rfl, rfl⟩

theorem copied_append (a b : State) (regs regs' : List Reg) :
    copied a (regs ++ regs') b = copied a regs' (copied a regs b) := List.foldl_append

/-- The registers that `clone` copies are the generator (R42, R220). -/
theorem sameGenerator_copied {a : State} (legalA : legal a = true) (b : State) : sameGenerator a (copied a cloneRegs b) := by
  rw [cloneRegs, copied_append]
  exact sameGenerator_copied_configuration legalA (copied_all_words a b)

/-- Settles O60: the clone's registers are copied, and together they are the generator. -/
theorem cloneCopiesTheGenerator : Obligations.CloneCopiesTheGenerator := by
  intro a b legalA releasedA releasedB idleA idleB
  have noCommand : .cmd ∉ cloneRegs := by simp [cloneRegs]
  obtain ⟨⟨x, done⟩, idle⟩ := copyRegs_done noCommand releasedA idleA releasedB idleB
  exact ⟨_, _, done, sameGenerator_copied legalA b, ⟨rfl, rfl, rfl, rfl⟩, idle⟩

end Sys2Proof.Machine
end
